-- ==== Sys2Proof/Config.lean ====
section
/-! DEFINITION. The fixed parameters of EDC-1 (00_scope.md R7). The constants a command can read stand in Machine/Rom.lean. -/

namespace Sys2Proof

/-- The field prime 2^255 − 19 (R7). -/
def Config.p : Nat := 2 ^ 255 - 19

/-- Entries of the field register file F (R7, R32). -/
abbrev Config.fieldRegs : Nat := 32

/-- Entries of the point register file P (R7, R35). -/
abbrev Config.pointRegs : Nat := 8

/-- Bytes of the DATA buffer (R7, R38). -/
abbrev Config.dataSize : Nat := 1024

theorem Config.p_pos : 0 < Config.p := by decide

end Sys2Proof
end

