-- ==== Sys2Proof/Word.lean ====
section
/-! DEFINITION. The plain data a command works on: words, bytes, operand fields and residues. -/

namespace Sys2Proof

/-- One command word, one host bus word (R100, R80). -/
abbrev Word := BitVec 32

/-- One byte of DATA (R38). -/
abbrev Byte := BitVec 8

/-- One operand field of a command word, an unsigned 5-bit number (R101). -/
abbrev Operand := BitVec 5

/-- A host byte address of the 4 KiB window (R70). -/
abbrev BusAddr := BitVec 12

/-- A field value: a residue in [0, p) (00_scope.md R11, 10_state.md R33). -/
structure Fe where
  val : Nat
  isLt : val < Config.p
  deriving DecidableEq, Repr

/-- The residue `n mod p` (R8, R11). -/
def Fe.ofNat (n : Nat) : Fe := ⟨n % Config.p, Nat.mod_lt _ Config.p_pos⟩

end Sys2Proof
end

