-- ==== Sys2Proof/Syntax.lean ====
section
/-! DEFINITION. The commands of EDC-1: one constructor per row of the opcode map (30_encoding.md R104), with the operand
fields that row uses, in the order rd, ra, rb, rc. -/

namespace Sys2Proof

/-- A command whose word is legal (R103). An operand may still lie outside its class range (R102): that is
`Instr.wf` false, and running it raises BAD_OPERAND (R336). -/
inductive Instr where
  /-- NOP (40_control.md R135). -/
  | nop
  /-- FE_ZERO rd:Fd (41_field.md R151). -/
  | feZero (rd : Operand)
  /-- FE_ONE rd:Fd (R152). -/
  | feOne (rd : Operand)
  /-- FE_MOV rd:Fd ra:Fs (R153). -/
  | feMov (rd ra : Operand)
  /-- FE_LDC rd:Fd ra:K (R154). -/
  | feLdc (rd ra : Operand)
  /-- FE_ADD rd:Fd ra:Fs rb:Fs (R155). -/
  | feAdd (rd ra rb : Operand)
  /-- FE_SUB rd:Fd ra:Fs rb:Fs (R156). -/
  | feSub (rd ra rb : Operand)
  /-- FE_NEG rd:Fd ra:Fs (R162). -/
  | feNeg (rd ra : Operand)
  /-- FE_MUL rd:Fd ra:Fs rb:Fs (R157). -/
  | feMul (rd ra rb : Operand)
  /-- FE_SQ rd:Fd ra:Fs (R158). -/
  | feSq (rd ra : Operand)
  /-- FE_SQ2 rd:Fd ra:Fs (R159). -/
  | feSq2 (rd ra : Operand)
  /-- FE_INV rd:Fd ra:Fs (R160). -/
  | feInv (rd ra : Operand)
  /-- FE_POW22523 rd:Fd ra:Fs (R161). -/
  | fePow22523 (rd ra : Operand)
  /-- FE_ISNEG ra:Fs (R164). -/
  | feIsneg (ra : Operand)
  /-- FE_ISNZ ra:Fs (R165). -/
  | feIsnz (ra : Operand)
  /-- FE_TOBYTES rd:Sd ra:Fs (R166). -/
  | feTobytes (rd ra : Operand)
  /-- FE_FROMBYTES rd:Fd ra:Ss (R163). -/
  | feFrombytes (rd ra : Operand)
  /-- PT_IDENT rd:Pd (43_point.md R224). -/
  | ptIdent (rd : Operand)
  /-- PT_LDB rd:Pd (R225). -/
  | ptLdb (rd : Operand)
  /-- PT_MOV rd:Pd ra:Ps (R226). -/
  | ptMov (rd ra : Operand)
  /-- PT_TOEXT rd:Pd ra:Ps (R227). -/
  | ptToext (rd ra : Operand)
  /-- PT_TOPROJ rd:Pd ra:Ps (R229). -/
  | ptToproj (rd ra : Operand)
  /-- PT_TOCACHED rd:Pd ra:Ps (R228). -/
  | ptTocached (rd ra : Operand)
  /-- PT_DBL rd:Pd ra:Ps (R230). -/
  | ptDbl (rd ra : Operand)
  /-- PT_ADD rd:Pd ra:Ps rb:Ps (R231). -/
  | ptAdd (rd ra rb : Operand)
  /-- PT_SUB rd:Pd ra:Ps rb:Ps (R232). -/
  | ptSub (rd ra rb : Operand)
  /-- PT_NEG rd:Pd ra:Ps (R233). -/
  | ptNeg (rd ra : Operand)
  /-- PT_GET rd:Fd ra:Ps rb:C (R235). -/
  | ptGet (rd ra rb : Operand)
  /-- PT_ENC rd:Sd ra:Ps (R234). -/
  | ptEnc (rd ra : Operand)
  /-- PT_DEC rd:Pd ra:Ss (R237). -/
  | ptDec (rd ra : Operand)
  /-- PT_DSMUL rd:Pd ra:Ps rb:Ss rc:Ss (44_scalar_mult.md R276). -/
  | ptDsmul (rd ra rb rc : Operand)
  /-- PT_SMULB rd:Pd ra:Ss (R280). -/
  | ptSmulb (rd ra : Operand)
  /-- SC_MULADD rd:Sd ra:Ss rb:Ss rc:Ss (45_scalar.md R301). -/
  | scMuladd (rd ra rb rc : Operand)
  /-- SC_REDUCE rd:Sd ra:Ss2 (R302). -/
  | scReduce (rd ra : Operand)
  /-- SC_MIN ra:Ss (R303). -/
  | scMin (ra : Operand)
  /-- SC_LDL rd:Sd (R304). -/
  | scLdl (rd : Operand)
  /-- SC_SLIDE rd:Sd8 ra:Ss (44_scalar_mult.md R272). -/
  | scSlide (rd ra : Operand)
  deriving DecidableEq, Repr

end Sys2Proof
end

