-- ==== Sys2Proof/WellFormed.lean ====
section
/-! DEFINITION. Well-formed commands: every operand lies in the range of its class (30_encoding.md R102). -/

namespace Sys2Proof

/-- The operand classes (R102). The first letter is the register file or the DATA buffer. -/
inductive OperandClass where
  | fd | fs | pd | ps | sd | ss | ss2 | sd8 | k | c
  deriving DecidableEq, Repr

/-- The largest legal value of a class (R102). -/
def OperandClass.limit : OperandClass → Nat
  | .fd => 31
  | .fs => 31
  | .pd => 7
  | .ps => 7
  | .sd => 31
  | .ss => 31
  | .ss2 => 30
  | .sd8 => 24
  | .k => 2
  | .c => 3

/-- The operand names that STATUS.ERRFIELD reports, with 0 for none (10_state.md R42). -/
inductive ErrField where
  | none | rd | ra | rb | rc
  deriving DecidableEq, Repr

/-- One used operand field of a command: which field, its class, its value. -/
structure UsedOperand where
  field : ErrField
  cls : OperandClass
  value : Operand
  deriving DecidableEq, Repr

/-- The operand fields a command uses, in the order rd, ra, rb, rc, with the classes of R104. -/
def Instr.operands : Instr → List UsedOperand
  | .nop => []
  | .feZero rd => [⟨.rd, .fd, rd⟩]
  | .feOne rd => [⟨.rd, .fd, rd⟩]
  | .feMov rd ra => [⟨.rd, .fd, rd⟩, ⟨.ra, .fs, ra⟩]
  | .feLdc rd ra => [⟨.rd, .fd, rd⟩, ⟨.ra, .k, ra⟩]
  | .feAdd rd ra rb => [⟨.rd, .fd, rd⟩, ⟨.ra, .fs, ra⟩, ⟨.rb, .fs, rb⟩]
  | .feSub rd ra rb => [⟨.rd, .fd, rd⟩, ⟨.ra, .fs, ra⟩, ⟨.rb, .fs, rb⟩]
  | .feNeg rd ra => [⟨.rd, .fd, rd⟩, ⟨.ra, .fs, ra⟩]
  | .feMul rd ra rb => [⟨.rd, .fd, rd⟩, ⟨.ra, .fs, ra⟩, ⟨.rb, .fs, rb⟩]
  | .feSq rd ra => [⟨.rd, .fd, rd⟩, ⟨.ra, .fs, ra⟩]
  | .feSq2 rd ra => [⟨.rd, .fd, rd⟩, ⟨.ra, .fs, ra⟩]
  | .feInv rd ra => [⟨.rd, .fd, rd⟩, ⟨.ra, .fs, ra⟩]
  | .fePow22523 rd ra => [⟨.rd, .fd, rd⟩, ⟨.ra, .fs, ra⟩]
  | .feIsneg ra => [⟨.ra, .fs, ra⟩]
  | .feIsnz ra => [⟨.ra, .fs, ra⟩]
  | .feTobytes rd ra => [⟨.rd, .sd, rd⟩, ⟨.ra, .fs, ra⟩]
  | .feFrombytes rd ra => [⟨.rd, .fd, rd⟩, ⟨.ra, .ss, ra⟩]
  | .ptIdent rd => [⟨.rd, .pd, rd⟩]
  | .ptLdb rd => [⟨.rd, .pd, rd⟩]
  | .ptMov rd ra => [⟨.rd, .pd, rd⟩, ⟨.ra, .ps, ra⟩]
  | .ptToext rd ra => [⟨.rd, .pd, rd⟩, ⟨.ra, .ps, ra⟩]
  | .ptToproj rd ra => [⟨.rd, .pd, rd⟩, ⟨.ra, .ps, ra⟩]
  | .ptTocached rd ra => [⟨.rd, .pd, rd⟩, ⟨.ra, .ps, ra⟩]
  | .ptDbl rd ra => [⟨.rd, .pd, rd⟩, ⟨.ra, .ps, ra⟩]
  | .ptAdd rd ra rb => [⟨.rd, .pd, rd⟩, ⟨.ra, .ps, ra⟩, ⟨.rb, .ps, rb⟩]
  | .ptSub rd ra rb => [⟨.rd, .pd, rd⟩, ⟨.ra, .ps, ra⟩, ⟨.rb, .ps, rb⟩]
  | .ptNeg rd ra => [⟨.rd, .pd, rd⟩, ⟨.ra, .ps, ra⟩]
  | .ptGet rd ra rb => [⟨.rd, .fd, rd⟩, ⟨.ra, .ps, ra⟩, ⟨.rb, .c, rb⟩]
  | .ptEnc rd ra => [⟨.rd, .sd, rd⟩, ⟨.ra, .ps, ra⟩]
  | .ptDec rd ra => [⟨.rd, .pd, rd⟩, ⟨.ra, .ss, ra⟩]
  | .ptDsmul rd ra rb rc => [⟨.rd, .pd, rd⟩, ⟨.ra, .ps, ra⟩, ⟨.rb, .ss, rb⟩, ⟨.rc, .ss, rc⟩]
  | .ptSmulb rd ra => [⟨.rd, .pd, rd⟩, ⟨.ra, .ss, ra⟩]
  | .scMuladd rd ra rb rc => [⟨.rd, .sd, rd⟩, ⟨.ra, .ss, ra⟩, ⟨.rb, .ss, rb⟩, ⟨.rc, .ss, rc⟩]
  | .scReduce rd ra => [⟨.rd, .sd, rd⟩, ⟨.ra, .ss2, ra⟩]
  | .scMin ra => [⟨.ra, .ss, ra⟩]
  | .scLdl rd => [⟨.rd, .sd, rd⟩]
  | .scSlide rd ra => [⟨.rd, .sd8, rd⟩, ⟨.ra, .ss, ra⟩]

/-- The operand's value is legal for its class (R102). -/
def UsedOperand.legal (o : UsedOperand) : Bool := o.value.toNat ≤ o.cls.limit

/-- Every operand of the command is legal for its class (R102). -/
def Instr.wf (i : Instr) : Bool := i.operands.all UsedOperand.legal

end Sys2Proof
end

