-- ==== Sys2Proof/Decode.lean ====
section
/-! DEFINITION. Decoding and encoding of the command word (30_encoding.md R100–R109). Decoding is total: a word outside the
opcode map answers `none`, which the core reports as ILLEGAL_CMD (R108, R335). -/

namespace Sys2Proof

/-- The fields of the one command format (R100). -/
structure Fields where
  op : BitVec 8
  rd : Operand
  ra : Operand
  rb : Operand
  rc : Operand
  res : BitVec 4
  deriving DecidableEq, Repr

/-- The fields of a word: OP[7:0], RD[12:8], RA[17:13], RB[22:18], RC[27:23], RES[31:28] (R100, R101). -/
def Fields.ofWord (w : Word) : Fields where
  op := w.extractLsb' 0 8
  rd := w.extractLsb' 8 5
  ra := w.extractLsb' 13 5
  rb := w.extractLsb' 18 5
  rc := w.extractLsb' 23 5
  res := w.extractLsb' 28 4

/-- The word of the fields, RES most significant (R100). -/
def Fields.toWord (f : Fields) : Word := f.res ++ f.rc ++ f.rb ++ f.ra ++ f.rd ++ f.op

/-- Format OP: every operand field must be 0 (R103). -/
def formNone (i : Instr) (f : Fields) : Option Instr :=
  if f.rd = 0 ∧ f.ra = 0 ∧ f.rb = 0 ∧ f.rc = 0 then some i else none

/-- Format OP-D: ra, rb, rc must be 0 (R103). -/
def formD (i : Operand → Instr) (f : Fields) : Option Instr :=
  if f.ra = 0 ∧ f.rb = 0 ∧ f.rc = 0 then some (i f.rd) else none

/-- Format OP-A: rd, rb, rc must be 0 (R103). -/
def formA (i : Operand → Instr) (f : Fields) : Option Instr :=
  if f.rd = 0 ∧ f.rb = 0 ∧ f.rc = 0 then some (i f.ra) else none

/-- Format OP-DA: rb, rc must be 0 (R103). -/
def formDA (i : Operand → Operand → Instr) (f : Fields) : Option Instr :=
  if f.rb = 0 ∧ f.rc = 0 then some (i f.rd f.ra) else none

/-- Format OP-DAB: rc must be 0 (R103). -/
def formDAB (i : Operand → Operand → Operand → Instr) (f : Fields) : Option Instr :=
  if f.rc = 0 then some (i f.rd f.ra f.rb) else none

/-- Format OP-DABC: no operand field is unused. -/
def formDABC (i : Operand → Operand → Operand → Operand → Instr) (f : Fields) : Option Instr :=
  some (i f.rd f.ra f.rb f.rc)

/-- The opcode map (R104), on the fields of a word whose RES is 0. -/
def decodeOp (f : Fields) : Option Instr :=
  match f.op.toNat with
  | 0x00 => formNone .nop f
  | 0x10 => formD .feZero f
  | 0x11 => formD .feOne f
  | 0x12 => formDA .feMov f
  | 0x13 => formDA .feLdc f
  | 0x14 => formDAB .feAdd f
  | 0x15 => formDAB .feSub f
  | 0x16 => formDA .feNeg f
  | 0x17 => formDAB .feMul f
  | 0x18 => formDA .feSq f
  | 0x19 => formDA .feSq2 f
  | 0x1A => formDA .feInv f
  | 0x1B => formDA .fePow22523 f
  | 0x1C => formA .feIsneg f
  | 0x1D => formA .feIsnz f
  | 0x1E => formDA .feTobytes f
  | 0x1F => formDA .feFrombytes f
  | 0x20 => formD .ptIdent f
  | 0x21 => formD .ptLdb f
  | 0x22 => formDA .ptMov f
  | 0x23 => formDA .ptToext f
  | 0x24 => formDA .ptToproj f
  | 0x25 => formDA .ptTocached f
  | 0x26 => formDA .ptDbl f
  | 0x27 => formDAB .ptAdd f
  | 0x28 => formDAB .ptSub f
  | 0x29 => formDA .ptNeg f
  | 0x2A => formDAB .ptGet f
  | 0x2B => formDA .ptEnc f
  | 0x2C => formDA .ptDec f
  | 0x2D => formDABC .ptDsmul f
  | 0x2E => formDA .ptSmulb f
  | 0x30 => formDABC .scMuladd f
  | 0x31 => formDA .scReduce f
  | 0x32 => formA .scMin f
  | 0x33 => formD .scLdl f
  | 0x34 => formDA .scSlide f
  | _ => none

/-- The first step of R105: the command of a legal word, `none` for ILLEGAL_CMD. -/
def decode (w : Word) : Option Instr :=
  if (Fields.ofWord w).res = 0 then decodeOp (Fields.ofWord w) else none

/-- The fields of a command: its opcode, its operands, 0 in every unused field and in RES (R103, R104). -/
def encodeFields : Instr → Fields
  | .nop => ⟨0x00, 0, 0, 0, 0, 0⟩
  | .feZero rd => ⟨0x10, rd, 0, 0, 0, 0⟩
  | .feOne rd => ⟨0x11, rd, 0, 0, 0, 0⟩
  | .feMov rd ra => ⟨0x12, rd, ra, 0, 0, 0⟩
  | .feLdc rd ra => ⟨0x13, rd, ra, 0, 0, 0⟩
  | .feAdd rd ra rb => ⟨0x14, rd, ra, rb, 0, 0⟩
  | .feSub rd ra rb => ⟨0x15, rd, ra, rb, 0, 0⟩
  | .feNeg rd ra => ⟨0x16, rd, ra, 0, 0, 0⟩
  | .feMul rd ra rb => ⟨0x17, rd, ra, rb, 0, 0⟩
  | .feSq rd ra => ⟨0x18, rd, ra, 0, 0, 0⟩
  | .feSq2 rd ra => ⟨0x19, rd, ra, 0, 0, 0⟩
  | .feInv rd ra => ⟨0x1A, rd, ra, 0, 0, 0⟩
  | .fePow22523 rd ra => ⟨0x1B, rd, ra, 0, 0, 0⟩
  | .feIsneg ra => ⟨0x1C, 0, ra, 0, 0, 0⟩
  | .feIsnz ra => ⟨0x1D, 0, ra, 0, 0, 0⟩
  | .feTobytes rd ra => ⟨0x1E, rd, ra, 0, 0, 0⟩
  | .feFrombytes rd ra => ⟨0x1F, rd, ra, 0, 0, 0⟩
  | .ptIdent rd => ⟨0x20, rd, 0, 0, 0, 0⟩
  | .ptLdb rd => ⟨0x21, rd, 0, 0, 0, 0⟩
  | .ptMov rd ra => ⟨0x22, rd, ra, 0, 0, 0⟩
  | .ptToext rd ra => ⟨0x23, rd, ra, 0, 0, 0⟩
  | .ptToproj rd ra => ⟨0x24, rd, ra, 0, 0, 0⟩
  | .ptTocached rd ra => ⟨0x25, rd, ra, 0, 0, 0⟩
  | .ptDbl rd ra => ⟨0x26, rd, ra, 0, 0, 0⟩
  | .ptAdd rd ra rb => ⟨0x27, rd, ra, rb, 0, 0⟩
  | .ptSub rd ra rb => ⟨0x28, rd, ra, rb, 0, 0⟩
  | .ptNeg rd ra => ⟨0x29, rd, ra, 0, 0, 0⟩
  | .ptGet rd ra rb => ⟨0x2A, rd, ra, rb, 0, 0⟩
  | .ptEnc rd ra => ⟨0x2B, rd, ra, 0, 0, 0⟩
  | .ptDec rd ra => ⟨0x2C, rd, ra, 0, 0, 0⟩
  | .ptDsmul rd ra rb rc => ⟨0x2D, rd, ra, rb, rc, 0⟩
  | .ptSmulb rd ra => ⟨0x2E, rd, ra, 0, 0, 0⟩
  | .scMuladd rd ra rb rc => ⟨0x30, rd, ra, rb, rc, 0⟩
  | .scReduce rd ra => ⟨0x31, rd, ra, 0, 0, 0⟩
  | .scMin ra => ⟨0x32, 0, ra, 0, 0, 0⟩
  | .scLdl rd => ⟨0x33, rd, 0, 0, 0, 0⟩
  | .scSlide rd ra => ⟨0x34, rd, ra, 0, 0, 0⟩

/-- The word of a command: `match | rd<<8 | ra<<13 | rb<<18 | rc<<23` (R110). -/
def encode (i : Instr) : Word := (encodeFields i).toWord

/-- One row of the opcode map as the spec prints it (R104): mnemonic, match, mask. -/
structure OpcodeRow where
  mnemonic : String
  pattern : Word
  mask : Word
  deriving DecidableEq, Repr

/-- A word is the row's command iff `(w & mask) == match` (R104). -/
def OpcodeRow.covers (r : OpcodeRow) (w : Word) : Bool := w &&& r.mask == r.pattern

/-- The control and field rows of R104. -/
def opcodeMapField : List OpcodeRow := [
  ⟨"NOP", 0x00000000, 0xFFFFFFFF⟩,
  ⟨"FE_ZERO", 0x00000010, 0xFFFFE0FF⟩,
  ⟨"FE_ONE", 0x00000011, 0xFFFFE0FF⟩,
  ⟨"FE_MOV", 0x00000012, 0xFFFC00FF⟩,
  ⟨"FE_LDC", 0x00000013, 0xFFFC00FF⟩,
  ⟨"FE_ADD", 0x00000014, 0xFF8000FF⟩,
  ⟨"FE_SUB", 0x00000015, 0xFF8000FF⟩,
  ⟨"FE_NEG", 0x00000016, 0xFFFC00FF⟩,
  ⟨"FE_MUL", 0x00000017, 0xFF8000FF⟩,
  ⟨"FE_SQ", 0x00000018, 0xFFFC00FF⟩,
  ⟨"FE_SQ2", 0x00000019, 0xFFFC00FF⟩,
  ⟨"FE_INV", 0x0000001A, 0xFFFC00FF⟩,
  ⟨"FE_POW22523", 0x0000001B, 0xFFFC00FF⟩,
  ⟨"FE_ISNEG", 0x0000001C, 0xFFFC1FFF⟩,
  ⟨"FE_ISNZ", 0x0000001D, 0xFFFC1FFF⟩,
  ⟨"FE_TOBYTES", 0x0000001E, 0xFFFC00FF⟩,
  ⟨"FE_FROMBYTES", 0x0000001F, 0xFFFC00FF⟩]

/-- The point and scalar rows of R104. -/
def opcodeMapPoint : List OpcodeRow := [
  ⟨"PT_IDENT", 0x00000020, 0xFFFFE0FF⟩,
  ⟨"PT_LDB", 0x00000021, 0xFFFFE0FF⟩,
  ⟨"PT_MOV", 0x00000022, 0xFFFC00FF⟩,
  ⟨"PT_TOEXT", 0x00000023, 0xFFFC00FF⟩,
  ⟨"PT_TOPROJ", 0x00000024, 0xFFFC00FF⟩,
  ⟨"PT_TOCACHED", 0x00000025, 0xFFFC00FF⟩,
  ⟨"PT_DBL", 0x00000026, 0xFFFC00FF⟩,
  ⟨"PT_ADD", 0x00000027, 0xFF8000FF⟩,
  ⟨"PT_SUB", 0x00000028, 0xFF8000FF⟩,
  ⟨"PT_NEG", 0x00000029, 0xFFFC00FF⟩,
  ⟨"PT_GET", 0x0000002A, 0xFF8000FF⟩,
  ⟨"PT_ENC", 0x0000002B, 0xFFFC00FF⟩,
  ⟨"PT_DEC", 0x0000002C, 0xFFFC00FF⟩,
  ⟨"PT_DSMUL", 0x0000002D, 0xF00000FF⟩,
  ⟨"PT_SMULB", 0x0000002E, 0xFFFC00FF⟩,
  ⟨"SC_MULADD", 0x00000030, 0xF00000FF⟩,
  ⟨"SC_REDUCE", 0x00000031, 0xFFFC00FF⟩,
  ⟨"SC_MIN", 0x00000032, 0xFFFC1FFF⟩,
  ⟨"SC_LDL", 0x00000033, 0xFFFFE0FF⟩,
  ⟨"SC_SLIDE", 0x00000034, 0xFFFC00FF⟩]

/-- The opcode map as a table (R104). `decode` does not read it: that the two agree is a statement. -/
def opcodeMap : List OpcodeRow := opcodeMapField ++ opcodeMapPoint

/-- The mnemonic of a command (R104). -/
def Instr.mnemonic : Instr → String
  | .nop => "NOP"
  | .feZero _ => "FE_ZERO"
  | .feOne _ => "FE_ONE"
  | .feMov _ _ => "FE_MOV"
  | .feLdc _ _ => "FE_LDC"
  | .feAdd _ _ _ => "FE_ADD"
  | .feSub _ _ _ => "FE_SUB"
  | .feNeg _ _ => "FE_NEG"
  | .feMul _ _ _ => "FE_MUL"
  | .feSq _ _ => "FE_SQ"
  | .feSq2 _ _ => "FE_SQ2"
  | .feInv _ _ => "FE_INV"
  | .fePow22523 _ _ => "FE_POW22523"
  | .feIsneg _ => "FE_ISNEG"
  | .feIsnz _ => "FE_ISNZ"
  | .feTobytes _ _ => "FE_TOBYTES"
  | .feFrombytes _ _ => "FE_FROMBYTES"
  | .ptIdent _ => "PT_IDENT"
  | .ptLdb _ => "PT_LDB"
  | .ptMov _ _ => "PT_MOV"
  | .ptToext _ _ => "PT_TOEXT"
  | .ptToproj _ _ => "PT_TOPROJ"
  | .ptTocached _ _ => "PT_TOCACHED"
  | .ptDbl _ _ => "PT_DBL"
  | .ptAdd _ _ _ => "PT_ADD"
  | .ptSub _ _ _ => "PT_SUB"
  | .ptNeg _ _ => "PT_NEG"
  | .ptGet _ _ _ => "PT_GET"
  | .ptEnc _ _ => "PT_ENC"
  | .ptDec _ _ => "PT_DEC"
  | .ptDsmul _ _ _ _ => "PT_DSMUL"
  | .ptSmulb _ _ => "PT_SMULB"
  | .scMuladd _ _ _ _ => "SC_MULADD"
  | .scReduce _ _ => "SC_REDUCE"
  | .scMin _ => "SC_MIN"
  | .scLdl _ => "SC_LDL"
  | .scSlide _ _ => "SC_SLIDE"

/-- The command of a table row's word: `w` holds its bits, bit 0 the least significant, zero above `nbits`. -/
def decodeTableWord (nbits w : Nat) : Option Instr := decode (BitVec.ofNat 32 (w % 2 ^ nbits))

end Sys2Proof
end

