-- ==== Sys2Proof/Machine/State.lean ====
section
/-! DEFINITION. The state of the core (10_state.md), its turns, the reasons a step can stop, and the state after reset. -/

namespace Sys2Proof.Machine

/-- Extended (X:Y:Z:T), affine (X/Z, Y/Z), T = XY/Z (43_point.md R220). -/
structure Ext where
  x : Fe
  y : Fe
  z : Fe
  t : Fe
  deriving DecidableEq, Repr

/-- Projective (X:Y:Z), affine (X/Z, Y/Z) (R220). -/
structure Proj where
  x : Fe
  y : Fe
  z : Fe
  deriving DecidableEq, Repr

/-- Completed (X:Y:Z:T), affine (X/Z, Y/T) (R220). -/
structure Compl where
  x : Fe
  y : Fe
  z : Fe
  t : Fe
  deriving DecidableEq, Repr

/-- Cached (Y+X, Y−X, Z, 2d·T) of an Extended point (R220). -/
structure Cached where
  yPlusX : Fe
  yMinusX : Fe
  z : Fe
  t2d : Fe
  deriving DecidableEq, Repr

/-- An entry of the point register file: a tag with the coordinates that tag gives a meaning to (10_state.md R35).
An EMPTY entry has none and a PROJ entry has no c3: those are not state (log entry 6). -/
inductive PReg where
  | empty
  | ext (e : Ext)
  | proj (q : Proj)
  | compl (c : Compl)
  | cached (k : Cached)
  deriving DecidableEq, Repr

/-- The error codes of STATUS.ERRCODE (60_exceptions.md R331); 5–15 are never written. -/
inductive ErrCode where
  | none | illegalCmd | badOperand | uninit | tag
  deriving DecidableEq, Repr

/-- An error a command's checks raise: the code and the offending operand field (00_scope.md R10, 60_exceptions.md R330). -/
structure CmdError where
  code : ErrCode
  field : ErrField
  deriving DecidableEq, Repr

/-- DATA as the bytes that differ from `Memory.unlisted`, by rising DATA offset (20_memory.md R70). -/
abbrev Memory := List Host.Cell

/-- What a command can read: F with its valid bits, P, DATA (40_control.md R133). An entry of F is `none` while V_F = 0. -/
structure Snapshot where
  fReg : Vector (Option Fe) Config.fieldRegs
  pReg : Vector PReg Config.pointRegs
  data : Memory
  deriving DecidableEq, Repr

/-- The command in flight: LATCH and SNAP (R131). -/
structure Pending where
  word : Word
  snap : Snapshot
  deriving DecidableEq, Repr

/-- One turn of an agent (10_state.md R30): a host read, a host write, a hard reset, or the sequencer's. -/
inductive Turn where
  | read (a : BusAddr)
  | write (a : BusAddr) (d : Word)
  | hardReset
  | sequencer
  deriving DecidableEq, Repr

/-- The state of the core. -/
structure State where
  /-- F[0..31]; `none` is an invalid entry, V_F = 0 (R32). -/
  fReg : Vector (Option Fe) Config.fieldRegs
  /-- P[0..7] (R35). -/
  pReg : Vector PReg Config.pointRegs
  /-- DATA[0..1023] (R38). -/
  data : Memory
  /-- CMD (R43). -/
  cmd : Word
  /-- CTRL.IRQ_EN (R41). -/
  irqEn : Bool
  /-- STATUS.DONE (R42). -/
  done : Bool
  /-- STATUS.ERR (R42). -/
  err : Bool
  /-- STATUS.FLAG (R44). -/
  flag : Bool
  /-- STATUS.HAZ (R47). -/
  haz : Bool
  /-- STATUS.ERRCODE (60_exceptions.md R331). -/
  errCode : ErrCode
  /-- STATUS.ERRFIELD (R42). -/
  errField : ErrField
  /-- The command in flight, present exactly while STATUS.BUSY = 1 (R51). -/
  pending : Option Pending
  /-- DESIGN CHOICE (log entry 2): the turns still to come, oldest first. The model's own field. -/
  agenda : List Turn
  /-- The word the last host read returned, bus_rdata (20_memory.md R80; reset value log entry 3). -/
  rdata : Word
  deriving DecidableEq, Repr

/-- The reasons a step stops with a fault: none. Every command completes (40_control.md R137) and every host access is
performed, ignored or recorded (70_reset_and_hazards.md R370), so no instruction raises one and nothing is left unsafe. -/
inductive Fault
  deriving DecidableEq, Repr

/-- The reasons a step is refused. -/
inductive Refusal where
  /-- The instruction has no meaning in the model; raised by `exec`'s arm of that instruction, safe. No arm raises it now. -/
  | notModelled (mnemonic : String)
  deriving DecidableEq, Repr

/-- The state after power-on and reset, with the DATA bytes `dataInit` the spec leaves open (10_state.md R52, U1). -/
def State.powerOn (dataInit : Memory) : State where
  fReg := Vector.replicate Config.fieldRegs none
  pReg := Vector.replicate Config.pointRegs .empty
  data := dataInit
  cmd := 0
  irqEn := false
  done := false
  err := false
  flag := false
  haz := false
  errCode := .none
  errField := .none
  pending := none
  agenda := []
  rdata := 0

/-- The machine right after reset (R52). DESIGN CHOICE (log entry 1): the open draw `data_init` is taken as nothing listed. -/
def State.reset : State := State.powerOn []

end Sys2Proof.Machine
end

