-- ==== Sys2Proof/Machine/Ops.lean ====
section
/-! DEFINITION. The shared operations: DATA, byte strings, register reads and writes, completion with a result or with an
error, recovery, START and reset. -/

namespace Sys2Proof.Machine

/-! ### DATA (20_memory.md) -/

/-- What an unlisted DATA offset reads as. DESIGN CHOICE (log entry 1): `data_init` is open, so the zero byte. -/
def Memory.unlisted (_off : Nat) : Byte := 0

/-- One byte of DATA. -/
def Memory.read : Memory → Nat → Byte
  | [], off => Memory.unlisted off
  | (k, b) :: rest, off => if k = off then b else Memory.read rest off

/-- Write one byte, keeping the canonical form. -/
def Memory.write : Memory → Nat → Byte → Memory
  | [], off, b => if b = Memory.unlisted off then [] else [(off, b)]
  | (k, c) :: rest, off, b =>
    if off < k then (if b = Memory.unlisted off then (k, c) :: rest else (off, b) :: (k, c) :: rest)
    else if off = k then (if b = Memory.unlisted off then rest else (off, b) :: rest)
    else (k, c) :: Memory.write rest off b

/-- The bytes at offsets `off … off + n − 1` (MemRead, 00_scope.md R10). -/
def Memory.readBytes (m : Memory) (off n : Nat) : List Byte := (List.range n).map fun i => m.read (off + i)

/-- Write a byte string at `off` (MemWrite, R10). -/
def Memory.writeBytes (m : Memory) (off : Nat) : List Byte → Memory
  | [] => m
  | b :: bs => Memory.writeBytes (Memory.write m off b) (off + 1) bs

/-- The canonical form: offsets strictly rising and inside DATA, no entry equal to what an unlisted offset reads as. -/
abbrev Memory.wf (m : Memory) : Prop :=
  m.Pairwise (fun c d => c.1 < d.1) ∧ ∀ c ∈ m, c.1 < Config.dataSize ∧ c.2 ≠ Memory.unlisted c.1

/-! ### Byte strings (R9) -/

/-- The little-endian value `Σ s[i]·2^(8i)` of a byte string (R9). -/
def le : List Byte → Nat
  | [] => 0
  | b :: bs => b.toNat + 256 * le bs

/-- `le_n(v)`, the n bytes of v, least significant first (R9). -/
def leBytes : Nat → Nat → List Byte
  | 0, _ => []
  | n + 1, v => BitVec.ofNat 8 v :: leBytes n (v / 256)

/-! ### Reads and writes of a command (40_control.md R133) -/

/-- STATUS.BUSY (10_state.md R42, R51). -/
def State.busy (s : State) : Bool := s.pending.isSome

/-- F with V_F, P and DATA as they stand. -/
def State.live (s : State) : Snapshot := ⟨s.fReg, s.pReg, s.data⟩

/-- What the running command reads: the snapshot taken at its START (R133); with no command in flight, the live state
(log entry 16). -/
def State.src (s : State) : Snapshot :=
  match s.pending with
  | some c => c.snap
  | none => s.live

/-- MemRead on the state at START (R10, R133). -/
def State.memRead (s : State) (off n : Nat) : List Byte := s.src.data.readBytes off n

/-- One write of a command's result (R10, R133). -/
inductive Write where
  | field (i : Fin Config.fieldRegs) (v : Fe)
  | point (i : Fin Config.pointRegs) (v : PReg)
  | data (off : Nat) (bytes : List Byte)
  | flag (b : Bool)
  deriving DecidableEq, Repr

/-- Apply one write. `F[i] <- v` also sets V_F[i] = 1 (41_field.md R150). -/
def State.applyWrite (s : State) : Write → State
  | .field i v => { s with fReg := s.fReg.set i (some v) }
  | .point i v => { s with pReg := s.pReg.set i v }
  | .data off bytes => { s with data := s.data.writeBytes off bytes }
  | .flag b => { s with flag := b }

/-- Apply a command's writes in order (R133). -/
def State.applyWrites (s : State) (ws : List Write) : State := ws.foldl State.applyWrite s

/-- The end of every completion step: BUSY ← 0, DONE ← 1 (R132). -/
def State.complete (s : State) : State := { s with pending := none, done := true }

/-- Taking an error (60_exceptions.md R330): ERR, ERRCODE and ERRFIELD are written, the command completes, nothing else
changes. There is no handler address: the handler is the host. -/
def State.raiseError (s : State) (e : CmdError) : State :=
  { s with err := true, errCode := e.code, errField := e.field, pending := none, done := true }

/-- The return from an error (R340, 10_state.md R42): writing 1 to STATUS.ERR clears ERR, ERRCODE and ERRFIELD. -/
def State.clearError (s : State) : State := { s with err := false, errCode := .none, errField := .none }

/-- What a command's Execute answers: an error or a finite list of writes (40_control.md R133). -/
abbrev Result := Except CmdError (List Write)

/-- The completion step on Execute's result (R132). -/
def finish (r : Result) (s : State) : Host.Outcome State Fault Refusal :=
  match r with
  | .ok ws => .next (s.applyWrites ws).complete
  | .error e => .next (s.raiseError e)

/-! ### START and reset -/

/-- An accepted START (R131): DONE ← 0, BUSY ← 1, LATCH ← CMD, SNAP ← (F, V_F, P, DATA). -/
def State.start (s : State) : State := { s with done := false, pending := some ⟨s.cmd, s.live⟩ }

/-- A reset step, hard or soft (70_reset_and_hazards.md R360–R362, 10_state.md R52): DATA is unchanged, a pending command
is abandoned. The agenda and the last read value belong to the host and stay (log entry 15). -/
def State.resetCore (s : State) : State :=
  { State.powerOn s.data with agenda := s.agenda, rdata := s.rdata }

end Sys2Proof.Machine
end

