-- ==== Sys2Proof/Machine/FieldArith.lean ====
section
/-! DEFINITION. Arithmetic of Fp on residues (00_scope.md R11, 41_field.md). Exact, total, never an error (R167). -/

namespace Sys2Proof

/-- The residue 0 (41_field.md R151). -/
def Fe.zero : Fe := Fe.ofNat 0

/-- The residue 1 (R152). -/
def Fe.one : Fe := Fe.ofNat 1

/-- `(a + b) mod p` (R155). -/
def Fe.add (a b : Fe) : Fe := Fe.ofNat (a.val + b.val)

/-- `(a − b) mod p` (R156). -/
def Fe.sub (a b : Fe) : Fe := Fe.ofNat (a.val + (Config.p - b.val))

/-- `(0 − a) mod p` (R162). -/
def Fe.neg (a : Fe) : Fe := Fe.ofNat (Config.p - a.val)

/-- `(a · b) mod p`, a plain product: no Montgomery factor (R157, 90_conflicts.md C1). -/
def Fe.mul (a b : Fe) : Fe := Fe.ofNat (a.val * b.val)

/-- `(a · a) mod p` (R158). -/
def Fe.sq (a : Fe) : Fe := Fe.mul a a

/-- `(2 · a · a) mod p` (R159). -/
def Fe.sq2 (a : Fe) : Fe := Fe.ofNat (2 * a.val * a.val)

/-- Square-and-multiply over the low `k` bits of `n`, least significant first. -/
def Fe.powBits : Nat → Fe → Nat → Fe
  | 0, _, _ => Fe.one
  | k + 1, x, n =>
    match n % 2 with
    | 0 => Fe.powBits k x.sq (n / 2)
    | _ => x.mul (Fe.powBits k x.sq (n / 2))

/-- `x^n mod p` for n < 2^256. The chain is free (42_field_datapath.md R202; log entry 17): its operations do not depend
on x. -/
def Fe.pow (x : Fe) (n : Nat) : Fe := Fe.powBits 256 x n

/-- `x^(p−2) mod p`, so the inverse of 0 is 0 (41_field.md R160). -/
def Fe.inv (x : Fe) : Fe := x.pow (Config.p - 2)

/-- `a / b` in field context: `a · b^(p−2)` (00_scope.md R11). -/
def Fe.div (a b : Fe) : Fe := a.mul b.inv

/-- `x^((p−5)/8) mod p`, the exponent 2^252 − 3 (R161). -/
def Fe.pow22523 (x : Fe) : Fe := x.pow ((Config.p - 5) / 8)

/-- The value of 32 bytes with bit 255 stripped, reduced (R163). -/
def Fe.ofBytes (s : List Byte) : Fe := Fe.ofNat (Machine.le s % 2 ^ 255)

/-- The canonical 32-byte encoding (R166). -/
def Fe.toBytes (a : Fe) : List Byte := Machine.leBytes 32 a.val

end Sys2Proof
end

