-- ==== Sys2Proof/Machine/Rom.lean ====
section
/-! DEFINITION. The constant ROM (10_state.md R49). Digits as the spec prints them. -/

namespace Sys2Proof.Machine

/-- d = −121665/121666 mod p (R49). -/
def Rom.d : Fe := Fe.ofNat 0x52036cee2b6ffe738cc740797779e89800700a4d4141d8ab75eb4dca135978a3

/-- 2·d mod p (R49). -/
def Rom.d2 : Fe := Fe.ofNat 0x2406d9dc56dffce7198e80f2eef3d13000e0149a8283b156ebd69b9426b2f159

/-- 2^((p−1)/4) mod p, the chosen square root of −1 (R49). -/
def Rom.sqrtm1 : Fe := Fe.ofNat 0x2b8324804fc1df0b2b4d00993dfbd7a72f431806ad2fe478c4ee1b274a0ea0b0

/-- The base point B, Extended, with y = 4/5 and even x (R49). -/
def Rom.base : Ext where
  x := Fe.ofNat 0x216936d3cd6e53fec0a4e231fdd6dc5c692cc7609525a7b2c9562d608f25d51a
  y := Fe.ofNat 0x6666666666666666666666666666666666666666666666666666666666666658
  z := Fe.one
  t := Fe.ofNat 0x67875f0fd78b766566ea4e8e64abe37d20f09f80775152f56dde8ab3a5b7dda3

/-- The identity, Extended (0, 1, 1, 0) (R49). -/
def Rom.identity : Ext := ⟨Fe.zero, Fe.one, Fe.one, Fe.zero⟩

/-- The group order L = 2^252 + δ (R49). -/
def Rom.L : Nat := 2 ^ 252 + 0x14def9dea2f79cd65812631a5cf5d3ed

/-- The constant of FE_LDC: 0 = d, 1 = d2, 2 = sqrtm1 (41_field.md R154). -/
def Rom.fieldConst : Fin 3 → Fe
  | 0 => Rom.d
  | 1 => Rom.d2
  | 2 => Rom.sqrtm1

/-- An entry of Btab: Cached with Z = 1 (44_scalar_mult.md R274). -/
def Rom.btabEntry (yPlusX yMinusX t2d : Nat) : Cached := ⟨Fe.ofNat yPlusX, Fe.ofNat yMinusX, Fe.one, Fe.ofNat t2d⟩

/-- 1B (R274). -/
def Rom.btab0 : Cached := Rom.btabEntry
  0x07cf9d3a33d4ba65270b4898643d42c2cf932dc6fb8c0e192fbc93c6f58c3b85
  0x44fd2f9298f81267a5c18434688f8a09fd399f05d140beb39d103905d740913e
  0x6f117b689f0c65a85a1b7dcbdd43598c26d9e823ccaac49eabc91205877aaa68

/-- 3B (R274). -/
def Rom.btab1 : Cached := Rom.btabEntry
  0x7a164e1b9a80f8f4c11b50029f016732025a8430e8864b8aaf25b0a84cee9730
  0x2ab91587555bda628131f31a214bd6bd3bd353fde5c1ba7d56611fe8a4fcd265
  0x5a2826af12b9b4c6d170e5458cf2db4c589423221c35da6214ae933f0dd0d889

/-- 5B (R274). -/
def Rom.btab2 : Cached := Rom.btabEntry
  0x2945ccf146e206ebdd1beb0c5abfec448d5048c3c75eed02a212bc4408a5bb33
  0x154a7e73eb1b55f3e33cf11cb864a087d50014d14b2729b77f9182c3a447d6ba
  0x43aabe696b3bb69ab41b670b1bbda72d270e0807d0bdd1fcbcbbdbf1812a8285

/-- 7B (R274). -/
def Rom.btab3 : Cached := Rom.btabEntry
  0x461bea69283c927e71b2528228542e497470353ab39dc0d26b1a5cd0944ea3bf
  0x1d6edd5d2e5317e09dea764f92192c3a6ca021533bba23a7ba6f2c9aaa3221b1
  0x7a9fbb1c6a0f90a7529c41ba5877adf3b3035f47053ea49af1836dc801b8b3a2

/-- 9B (R274). -/
def Rom.btab4 : Cached := Rom.btabEntry
  0x34b9ed338add7f59ceb233c9c686f5b5a6509e6f51bc46c59b2e678aa6a8632f
  0x49c05a51fadc9c8f96cbc608e75eb04498a081b6f520419bf36e217e039d8064
  0x73c172021b008b06aaf6fc2993d4cf16e2ff83e8a719d22f06b4e8bf9045af1b

/-- 11B (R274). -/
def Rom.btab5 : Cached := Rom.btabEntry
  0x4275aae2546d8faf113e847117703406e5d9fecf02302e272fbf00848a802ade
  0x18ab598029d5c77fa3a075556a8deb953ed6b36977088381315f5b0249864348
  0x3dc65522b53df94844311199b51a8622031eb4a13282e4a4d82b2cc5fd6089e9

/-- 13B (R274). -/
def Rom.btab6 : Cached := Rom.btabEntry
  0x234fd7eec346f241537a0e12fb07ba07bf84b39ab5bcdedbbf70c222a2007f6d
  0x0267882d176024a79d12b232aaad5968aefcebc99b776f6b506f013b327fbf93
  0x497ba6fdaa097863a2ef37f891a7e5332437e6b1df8dd4715360a119732ea378

/-- 15B (R274). -/
def Rom.btab7 : Cached := Rom.btabEntry
  0x61e22917f12de72b2dbdbdfac1f2d4d08648c28d189c246d24cecc0313cfeaa0
  0x43b5cd4218d05ebf7508300807b25192d3829ba42a9910d6040bcd86468ccf0b
  0x511d61210ae4d842032e5a7d93d64270eb38af4e373fdeee5d9a762f9bd0b516

/-- The odd multiples B, 3B, …, 15B (R274). -/
def Rom.btab : List Cached :=
  [Rom.btab0, Rom.btab1, Rom.btab2, Rom.btab3, Rom.btab4, Rom.btab5, Rom.btab6, Rom.btab7]

end Sys2Proof.Machine
end

