-- ==== Sys2Proof/Machine/Flags.lean ====
section
/-! DEFINITION. The flag computations, the codes of STATUS, the STATUS and CTRL words and the interrupt output. -/

namespace Sys2Proof.Machine

/-- Parity of the canonical residue (41_field.md R164). -/
def isNegative (a : Fe) : Bool := a.val % 2 == 1

/-- Non-zero test (R165). -/
def isNonZero (a : Fe) : Bool := a.val != 0

/-- Minimality of a scalar: `n < L` (45_scalar.md R303). -/
def isMinimal (n : Nat) : Bool := n < Rom.L

/-- STATUS.ERRCODE (60_exceptions.md R331). -/
def ErrCode.bits : ErrCode → BitVec 4
  | .none => 0
  | .illegalCmd => 1
  | .badOperand => 2
  | .uninit => 3
  | .tag => 4

end Sys2Proof.Machine

namespace Sys2Proof

/-- STATUS.ERRFIELD (10_state.md R42). -/
def ErrField.bits : ErrField → BitVec 3
  | .none => 0
  | .rd => 1
  | .ra => 2
  | .rb => 3
  | .rc => 4

end Sys2Proof

namespace Sys2Proof.Machine

/-- The STATUS word, most significant field first: reserved, ERRFIELD, ERRCODE, reserved, HAZ, FLAG, ERR, DONE, BUSY (R42). -/
def State.statusWord (s : State) : Word :=
  (0 : BitVec 17) ++ s.errField.bits ++ s.errCode.bits ++ (0 : BitVec 3) ++ BitVec.ofBool s.haz ++ BitVec.ofBool s.flag
    ++ BitVec.ofBool s.err ++ BitVec.ofBool s.done ++ BitVec.ofBool s.busy

/-- The CTRL word as read: only IRQ_EN, bit 2 (R41). -/
def State.ctrlWord (s : State) : Word := (0 : BitVec 29) ++ BitVec.ofBool s.irqEn ++ (0 : BitVec 2)

/-- The interrupt output `irq = CTRL.IRQ_EN AND STATUS.DONE` (R48). -/
def State.irq (s : State) : Bool := s.irqEn && s.done

/-- The tag code of a point register, 3 bits (R35). -/
def PReg.tagCode : PReg → BitVec 3
  | .empty => 0
  | .ext _ => 1
  | .proj _ => 2
  | .compl _ => 3
  | .cached _ => 4

end Sys2Proof.Machine
end

