-- ==== Sys2Proof/Machine/Bus.lean ====
section
/-! DEFINITION. The host's transactions (10_state.md R39–R48, 20_memory.md R72–R77, 70_reset_and_hazards.md R370). -/

namespace Sys2Proof.Machine

/-- What a host address names (10_state.md R39). -/
inductive BusTarget where
  | id | ctrl | status | cmd
  | data (off : Nat)
  | reserved
  deriving DecidableEq, Repr

/-- The target of a byte address: bits 1:0 are ignored (20_memory.md R75), 0x400 + off is DATA offset off (R70), every
other address is reserved (R73). -/
def busTarget (a : BusAddr) : BusTarget :=
  let w := 4 * (a.toNat / 4)
  if w = 0x000 then .id
  else if w = 0x004 then .ctrl
  else if w = 0x008 then .status
  else if w = 0x00C then .cmd
  else if 0x400 ≤ w ∧ w ≤ 0x7FC then .data (w - 0x400)
  else .reserved

/-- The ID register, "ED25" (R40). -/
def idWord : Word := 0x45443235

/-- A host word of DATA, little-endian (20_memory.md R72). -/
def Memory.readWord (m : Memory) (off : Nat) : Word := BitVec.ofNat 32 (le (m.readBytes off 4))

/-- Store a host word, little-endian (R72). -/
def Memory.writeWord (m : Memory) (off : Nat) (d : Word) : Memory := m.writeBytes off (leBytes 4 d.toNat)

/-- HAZ ← 1 and nothing else (10_state.md R47). -/
def State.hazard (s : State) : State := { s with haz := true }

/-- The word a host read returns. A DATA read while BUSY = 1 returns 0 (70_reset_and_hazards.md R370). -/
def busReadValue (a : BusAddr) (s : State) : Word :=
  match busTarget a with
  | .id => idWord
  | .ctrl => s.ctrlWord
  | .status => s.statusWord
  | .cmd => s.cmd
  | .data off => if s.busy then 0 else s.data.readWord off
  | .reserved => 0

/-- A DATA read while BUSY = 1 sets HAZ; no other read has a side effect (20_memory.md R77). -/
def busReadEffect (a : BusAddr) (s : State) : State :=
  match busTarget a with
  | .data _ => if s.busy then s.hazard else s
  | _ => s

/-- One host read (20_memory.md R80). -/
def busRead (a : BusAddr) (s : State) : State := { busReadEffect a s with rdata := busReadValue a s }

/-- A host write to CTRL: SRST resets and wins over everything else in the word; otherwise IRQ_EN is loaded, then START is
accepted, or refused with HAZ while BUSY = 1 or ERR = 1 (10_state.md R41, 40_control.md R131). -/
def writeCtrl (d : Word) (s : State) : State :=
  if d.getLsbD 1 then s.resetCore
  else
    let t : State := { s with irqEn := d.getLsbD 2 }
    if d.getLsbD 0 then
      if t.busy || t.err then t.hazard else t.start
    else t

/-- A host write to STATUS: only DONE, ERR and HAZ, each where the written bit is 1 (10_state.md R42). -/
def writeStatus (d : Word) (s : State) : State :=
  let t := if d.getLsbD 2 then s.clearError else s
  { t with done := t.done && !d.getLsbD 1, haz := t.haz && !d.getLsbD 4 }

/-- A host write to CMD, refused while BUSY = 1 (R43). -/
def writeCmd (d : Word) (s : State) : State := if s.busy then s.hazard else { s with cmd := d }

/-- A host write to DATA, refused while BUSY = 1 (70_reset_and_hazards.md R370). -/
def writeData (off : Nat) (d : Word) (s : State) : State :=
  if s.busy then s.hazard else { s with data := s.data.writeWord off d }

/-- One host write (20_memory.md R80). Writes to ID and to reserved addresses are ignored (R40, R73). -/
def busWrite (a : BusAddr) (d : Word) (s : State) : State :=
  match busTarget a with
  | .id => s
  | .ctrl => writeCtrl d s
  | .status => writeStatus d s
  | .cmd => writeCmd d s
  | .data off => writeData off d s
  | .reserved => s

/-- What an accepted START of the word `w` leaves, and the sequencer's turn next: the state in which the very next step
completes `w`. An accepted START needs ERR = 0, so a standing error is cleared (R131; log entry 4). -/
def State.startWord (s : State) (w : Word) : State :=
  { { s.clearError with cmd := w }.start with agenda := .sequencer :: s.agenda }

end Sys2Proof.Machine
end

