-- ==== Sys2Proof/Machine/Operands.lean ====
section
/-! DEFINITION. The operand forms (30_encoding.md R102) and their checks, in the pieces a command runs in the order of
60_exceptions.md R332: ranges (BAD_OPERAND), then validity (UNINIT), then tags (TAG). -/

namespace Sys2Proof.Machine

/-- An operand's value if it is below its class's range, else BAD_OPERAND with its field (R336). -/
def inRange (n : Nat) (o : Operand) (fld : ErrField) : Except CmdError (Fin n) :=
  if h : o.toNat < n then .ok ⟨o.toNat, h⟩ else .error ⟨.badOperand, fld⟩

/-- Classes Fd and Fs: every value names a field register (R102, R331). -/
def fieldIndex (o : Operand) : Fin Config.fieldRegs := ⟨o.toNat, o.isLt⟩

/-- Classes Pd and Ps (R102). -/
def pointIndex (o : Operand) (fld : ErrField) : Except CmdError (Fin Config.pointRegs) := inRange 8 o fld

/-- Class K (R102). -/
def constIndex (o : Operand) (fld : ErrField) : Except CmdError (Fin 3) := inRange 3 o fld

/-- Class C (R102). -/
def coordIndex (o : Operand) (fld : ErrField) : Except CmdError (Fin 4) := inRange 4 o fld

/-- Classes Sd and Ss: the DATA offset 32·s of slot s (R107, 20_memory.md R71). -/
def slotOffset (o : Operand) : Nat := 32 * o.toNat

/-- Class Ss2: the offset of a 64-byte group, s ≤ 30 (R102, R107). -/
def slotPairOffset (o : Operand) (fld : ErrField) : Except CmdError Nat := do
  let i ← inRange 31 o fld
  pure (32 * i.val)

/-- Class Sd8: the offset of a 256-byte group, s ≤ 24 (R102, R107). -/
def slotOctetOffset (o : Operand) (fld : ErrField) : Except CmdError Nat := do
  let i ← inRange 25 o fld
  pure (32 * i.val)

/-- The 32 bytes of a slot at START (R71). -/
def State.slot (s : State) (o : Operand) : List Byte := s.memRead (slotOffset o) 32

/-- Read a field register: UNINIT while V_F = 0 (60_exceptions.md R333). -/
def State.readField (s : State) (o : Operand) (fld : ErrField) : Except CmdError Fe :=
  match s.src.fReg[fieldIndex o] with
  | some v => .ok v
  | none => .error ⟨.uninit, fld⟩

/-- Read a point register: UNINIT while its tag is EMPTY (R333). -/
def State.readPoint (s : State) (i : Fin Config.pointRegs) (fld : ErrField) : Except CmdError PReg :=
  match s.src.pReg[i] with
  | .empty => .error ⟨.uninit, fld⟩
  | r => .ok r

/-- Accept EXT only (R334). -/
def PReg.asExt (r : PReg) (fld : ErrField) : Except CmdError Ext :=
  match r with
  | .ext e => .ok e
  | _ => .error ⟨.tag, fld⟩

/-- Accept COMPL only (R334). -/
def PReg.asCompl (r : PReg) (fld : ErrField) : Except CmdError Compl :=
  match r with
  | .compl c => .ok c
  | _ => .error ⟨.tag, fld⟩

/-- Accept CACHED only (R334). -/
def PReg.asCached (r : PReg) (fld : ErrField) : Except CmdError Cached :=
  match r with
  | .cached k => .ok k
  | _ => .error ⟨.tag, fld⟩

/-- Accept EXT or PROJ and take the first three coordinates (R334, 43_point.md R230, R234). -/
def PReg.asXyz (r : PReg) (fld : ErrField) : Except CmdError Proj :=
  match r with
  | .ext e => .ok ⟨e.x, e.y, e.z⟩
  | .proj q => .ok q
  | _ => .error ⟨.tag, fld⟩

/-- The stored coordinate `c_j` of a non-EMPTY entry (10_state.md R35); c3 of a PROJ entry is TAG (43_point.md R235). -/
def PReg.coord (r : PReg) (j : Fin 4) (fld : ErrField) : Except CmdError Fe :=
  match r, j with
  | .ext e, 0 => .ok e.x
  | .ext e, 1 => .ok e.y
  | .ext e, 2 => .ok e.z
  | .ext e, 3 => .ok e.t
  | .proj q, 0 => .ok q.x
  | .proj q, 1 => .ok q.y
  | .proj q, 2 => .ok q.z
  | .proj _, 3 => .error ⟨.tag, fld⟩
  | .compl c, 0 => .ok c.x
  | .compl c, 1 => .ok c.y
  | .compl c, 2 => .ok c.z
  | .compl c, 3 => .ok c.t
  | .cached k, 0 => .ok k.yPlusX
  | .cached k, 1 => .ok k.yMinusX
  | .cached k, 2 => .ok k.z
  | .cached k, 3 => .ok k.t2d
  | .empty, _ => .error ⟨.uninit, fld⟩

end Sys2Proof.Machine
end

