-- ==== Sys2Proof/Machine/Control.lean ====
section
/-! DEFINITION. The meaning of the control command (40_control.md R135). -/

namespace Sys2Proof.Machine

/-- NOP: no writes (R135). -/
def execNop (s : State) : Host.Outcome State Fault Refusal := finish (.ok []) s

end Sys2Proof.Machine
end

