-- ==== Sys2Proof/Machine/FieldCommands.lean ====
section
/-! DEFINITION. The meanings of the FE commands (41_field.md). Each reads its sources in the order ra, rb (60_exceptions.md
R332) and writes one residue, one flag or one slot. -/

namespace Sys2Proof.Machine

/-- FE_ZERO: `F[rd] <- 0` (R151). -/
def execFeZero (rd : Operand) (s : State) : Host.Outcome State Fault Refusal :=
  finish (.ok [.field (fieldIndex rd) Fe.zero]) s

/-- FE_ONE: `F[rd] <- 1` (R152). -/
def execFeOne (rd : Operand) (s : State) : Host.Outcome State Fault Refusal :=
  finish (.ok [.field (fieldIndex rd) Fe.one]) s

/-- FE_LDC: `F[rd] <- [d, 2·d mod p, sqrtm1][ra]` (R154). -/
def execFeLdc (rd ra : Operand) (s : State) : Host.Outcome State Fault Refusal :=
  finish (do
    let k ← constIndex ra .ra
    pure [.field (fieldIndex rd) (Rom.fieldConst k)]) s

/-- The shape `F[rd] <- f(F[ra])`. -/
def fieldUnary (f : Fe → Fe) (rd ra : Operand) (s : State) : Host.Outcome State Fault Refusal :=
  finish (do
    let a ← s.readField ra .ra
    pure [.field (fieldIndex rd) (f a)]) s

/-- The shape `F[rd] <- f(F[ra], F[rb])`. -/
def fieldBinary (f : Fe → Fe → Fe) (rd ra rb : Operand) (s : State) : Host.Outcome State Fault Refusal :=
  finish (do
    let a ← s.readField ra .ra
    let b ← s.readField rb .rb
    pure [.field (fieldIndex rd) (f a b)]) s

/-- The shape `FLAG <- f(F[ra])`. -/
def fieldTest (f : Fe → Bool) (ra : Operand) (s : State) : Host.Outcome State Fault Refusal :=
  finish (do
    let a ← s.readField ra .ra
    pure [.flag (f a)]) s

/-- FE_MOV: `F[rd] <- F[ra]` (R153). -/
def execFeMov (rd ra : Operand) (s : State) : Host.Outcome State Fault Refusal := fieldUnary (fun a => a) rd ra s

/-- FE_ADD (R155). -/
def execFeAdd (rd ra rb : Operand) (s : State) : Host.Outcome State Fault Refusal := fieldBinary Fe.add rd ra rb s

/-- FE_SUB (R156). -/
def execFeSub (rd ra rb : Operand) (s : State) : Host.Outcome State Fault Refusal := fieldBinary Fe.sub rd ra rb s

/-- FE_NEG (R162). -/
def execFeNeg (rd ra : Operand) (s : State) : Host.Outcome State Fault Refusal := fieldUnary Fe.neg rd ra s

/-- FE_MUL (R157). -/
def execFeMul (rd ra rb : Operand) (s : State) : Host.Outcome State Fault Refusal := fieldBinary Fe.mul rd ra rb s

/-- FE_SQ (R158). -/
def execFeSq (rd ra : Operand) (s : State) : Host.Outcome State Fault Refusal := fieldUnary Fe.sq rd ra s

/-- FE_SQ2 (R159). -/
def execFeSq2 (rd ra : Operand) (s : State) : Host.Outcome State Fault Refusal := fieldUnary Fe.sq2 rd ra s

/-- FE_INV; the inverse of 0 is 0, not an error (R160). -/
def execFeInv (rd ra : Operand) (s : State) : Host.Outcome State Fault Refusal := fieldUnary Fe.inv rd ra s

/-- FE_POW22523 (R161). -/
def execFePow22523 (rd ra : Operand) (s : State) : Host.Outcome State Fault Refusal := fieldUnary Fe.pow22523 rd ra s

/-- FE_ISNEG: `FLAG <- F[ra] mod 2` (R164). -/
def execFeIsneg (ra : Operand) (s : State) : Host.Outcome State Fault Refusal := fieldTest isNegative ra s

/-- FE_ISNZ: `FLAG <- (F[ra] != 0)` (R165). -/
def execFeIsnz (ra : Operand) (s : State) : Host.Outcome State Fault Refusal := fieldTest isNonZero ra s

/-- FE_TOBYTES: `MemWrite(32·rd, 32, le_32(F[ra]))` (R166). -/
def execFeTobytes (rd ra : Operand) (s : State) : Host.Outcome State Fault Refusal :=
  finish (do
    let a ← s.readField ra .ra
    pure [.data (slotOffset rd) a.toBytes]) s

/-- FE_FROMBYTES: `F[rd] <- (le(s) mod 2^255) mod p` (R163). -/
def execFeFrombytes (rd ra : Operand) (s : State) : Host.Outcome State Fault Refusal :=
  finish (.ok [.field (fieldIndex rd) (Fe.ofBytes (s.slot ra))]) s

end Sys2Proof.Machine
end

