-- ==== Sys2Proof/Machine/PointArith.lean ====
section
/-! DEFINITION. The point formulas (43_point.md R227–R237). They fix every stored coordinate (92_eei_decisions.md D16). -/

namespace Sys2Proof.Machine

/-- An affine point (x, y) (43_point.md R221). -/
structure Affine where
  x : Fe
  y : Fe
  deriving DecidableEq, Repr

/-- Completed to Extended (R227). -/
def Compl.toExt (c : Compl) : Ext := ⟨c.x.mul c.t, c.y.mul c.z, c.z.mul c.t, c.x.mul c.y⟩

/-- Completed to Projective (R229). -/
def Compl.toProj (c : Compl) : Proj := ⟨c.x.mul c.t, c.y.mul c.z, c.z.mul c.t⟩

/-- Extended to Projective: drop T (R229, D35). -/
def Ext.toProj (e : Ext) : Proj := ⟨e.x, e.y, e.z⟩

/-- Extended to Cached (R228). -/
def Ext.toCached (e : Ext) : Cached := ⟨e.y.add e.x, e.y.sub e.x, e.z, e.t.mul Rom.d2⟩

/-- Doubling; T of an Extended input is not read (R230). -/
def Proj.dbl (q : Proj) : Compl :=
  let xx := q.x.mul q.x
  let yy := q.y.mul q.y
  let b := q.z.sq2
  let aa := (q.x.add q.y).mul (q.x.add q.y)
  let y3 := yy.add xx
  let z3 := yy.sub xx
  ⟨aa.sub y3, y3, z3, b.sub z3⟩

/-- Mixed addition, Extended ⊕ Cached (R231). -/
def Ext.add (e : Ext) (k : Cached) : Compl :=
  let pp := (e.y.add e.x).mul k.yPlusX
  let mm := (e.y.sub e.x).mul k.yMinusX
  let tt := k.t2d.mul e.t
  let zz := (e.z.mul k.z).add (e.z.mul k.z)
  ⟨pp.sub mm, pp.add mm, zz.add tt, zz.sub tt⟩

/-- Mixed subtraction, Extended ⊖ Cached (R232). -/
def Ext.sub (e : Ext) (k : Cached) : Compl :=
  let pp := (e.y.add e.x).mul k.yMinusX
  let mm := (e.y.sub e.x).mul k.yPlusX
  let tt := k.t2d.mul e.t
  let zz := (e.z.mul k.z).add (e.z.mul k.z)
  ⟨pp.sub mm, pp.add mm, zz.sub tt, zz.add tt⟩

/-- Negation of an Extended point (R233). -/
def Ext.neg (e : Ext) : Ext := ⟨e.x.neg, e.y, e.z, e.t.neg⟩

/-- Negation of a Projective point (R233). -/
def Proj.neg (q : Proj) : Proj := ⟨q.x.neg, q.y, q.z⟩

/-- The affine point of (X, Y, Z) by one inversion (R234). -/
def Proj.affine (q : Proj) : Affine := ⟨q.x.mul q.z.inv, q.y.mul q.z.inv⟩

/-- Extended with Z = 1 of an affine point (R237, 44_scalar_mult.md R280). -/
def Affine.toExt (a : Affine) : Ext := ⟨a.x, a.y, Fe.one, a.x.mul a.y⟩

/-- The compressed encoding: y little-endian, the parity of x in bit 7 of byte 31 (R234). -/
def Affine.encode (a : Affine) : List Byte :=
  let s := a.y.toBytes
  s.set 31 (s.getD 31 0 ||| (if isNegative a.x then 0x80 else 0))

/-- The candidate root `u·v³ · (u·v⁷)^((p−5)/8)` (R236). -/
def candidateRoot (u v : Fe) : Fe :=
  let v3 := (v.mul v).mul v
  let v7 := (v3.mul v3).mul v
  (u.mul v3).mul (u.mul v7).pow22523

/-- The root of `v·x² = u`, or `none` where no modular square root exists (R236). -/
def squareRootRatio (u v : Fe) : Option Fe :=
  let x := candidateRoot u v
  let vxx := v.mul (x.mul x)
  if vxx = u then some x
  else if vxx = u.neg then some (x.mul Rom.sqrtm1)
  else none

/-- `Dec(s)` (R236): the point of a compressed encoding, `none` for FAIL. -/
def decodePoint (s : List Byte) : Option Affine :=
  let sign : Bool := (s.getD 31 0).toNat / 128 == 1
  let yraw := le s % 2 ^ 255
  if yraw ≥ Config.p then none
  else
    let y := Fe.ofNat yraw
    let u := (y.mul y).sub Fe.one
    let v := (Rom.d.mul (y.mul y)).add Fe.one
    match squareRootRatio u v with
    | none => none
    | some x =>
      if x = Fe.zero ∧ sign = true then none
      else if isNegative x = sign then some ⟨x, y⟩
      else some ⟨x.neg, y⟩

end Sys2Proof.Machine
end

