-- ==== Sys2Proof/Machine/Curve.lean ====
section
/-! DEFINITION. The curve, its addition law, and the affine meaning of each representation (43_point.md R220–R222). The
commands do not read this file; statements about them do. -/

namespace Sys2Proof.Machine

/-- (x, y) lies on E: −x² + y² = 1 + d·x²·y² (R221). -/
def Affine.onCurve (a : Affine) : Prop :=
  (a.y.mul a.y).sub (a.x.mul a.x) = Fe.one.add (Rom.d.mul ((a.x.mul a.x).mul (a.y.mul a.y)))

/-- The unified addition law (R221). -/
def Affine.add (a b : Affine) : Affine :=
  let k := Rom.d.mul ((a.x.mul b.x).mul (a.y.mul b.y))
  ⟨((a.x.mul b.y).add (a.y.mul b.x)).div (Fe.one.add k), ((a.y.mul b.y).add (a.x.mul b.x)).div (Fe.one.sub k)⟩

/-- The inverse −(x, y) = (−x, y) (R221). -/
def Affine.neg (a : Affine) : Affine := ⟨a.x.neg, a.y⟩

/-- The neutral element (0, 1) (R221). -/
def Affine.identity : Affine := ⟨Fe.zero, Fe.one⟩

/-- The affine point of an Extended point (R220). -/
def Ext.affine (e : Ext) : Affine := ⟨e.x.div e.z, e.y.div e.z⟩

/-- The affine point of a Completed point, (X/Z, Y/T) (R220). -/
def Compl.affine (c : Compl) : Affine := ⟨c.x.div c.z, c.y.div c.t⟩

/-- The affine point of a Cached point (R222). -/
def Cached.affine (k : Cached) : Affine :=
  let twoZ := k.z.add k.z
  ⟨(k.yPlusX.sub k.yMinusX).div twoZ, (k.yPlusX.add k.yMinusX).div twoZ⟩

/-- An Extended entry as R36 and R220 require it: Z ≠ 0, XY = ZT, affine point on E. -/
def Ext.valid (e : Ext) : Prop := e.z ≠ Fe.zero ∧ e.x.mul e.y = e.z.mul e.t ∧ e.affine.onCurve

/-- A Projective entry as R36 requires it. -/
def Proj.valid (q : Proj) : Prop := q.z ≠ Fe.zero ∧ q.affine.onCurve

/-- A Completed entry as R36 requires it. -/
def Compl.valid (c : Compl) : Prop := c.z ≠ Fe.zero ∧ c.t ≠ Fe.zero ∧ c.affine.onCurve

/-- A Cached entry as R36 requires it: the image of a valid Extended entry. -/
def Cached.valid (k : Cached) : Prop := ∃ e : Ext, e.valid ∧ e.toCached = k

/-- An entry of P represents a point of the curve in the meaning its tag gives (R36). -/
def PReg.valid : PReg → Prop
  | .empty => True
  | .ext e => e.valid
  | .proj q => q.valid
  | .compl c => c.valid
  | .cached k => k.valid

/-- `aff(P[i])`, none for EMPTY (R222). -/
def PReg.affine? : PReg → Option Affine
  | .empty => none
  | .ext e => some e.affine
  | .proj q => some q.affine
  | .compl c => some c.affine
  | .cached k => some k.affine

/-- `n·a` by double-and-add with the addition law, over the low `k` bits of n (R221: E is a group, so any order of
additions gives this point). -/
def Affine.mul (a : Affine) : Nat → Nat → Affine
  | 0, _ => Affine.identity
  | k + 1, n =>
    if n = 0 then Affine.identity
    else
      let d := (Affine.mul a k (n / 2)).add (Affine.mul a k (n / 2))
      if n % 2 = 1 then d.add a else d

/-- The odd multiples a, 3a, …, 15a, each 2a more than the one before (44_scalar_mult.md R273). -/
def Affine.oddMultiplesFrom (a2 : Affine) : Nat → Affine → List Affine
  | 0, a => [a]
  | n + 1, a => a :: Affine.oddMultiplesFrom a2 n (a2.add a)

/-- The eight affine odd multiples of a point (R273, R274). -/
def Affine.oddMultiples (a : Affine) : List Affine := Affine.oddMultiplesFrom (a.add a) 7 a

/-- `r + digit·A` where the table holds A, 3A, …, 15A (R275). -/
def Affine.addDigit (table : List Affine) (digit : Int) (r : Affine) : Affine :=
  if digit > 0 then r.add (table.getD (digit.natAbs / 2) Affine.identity)
  else if digit < 0 then r.add (table.getD (digit.natAbs / 2) Affine.identity).neg
  else r

/-- One turn of the double-scalar loop by the addition law: `2r + as[i]·A + bs[i]·B` (R275). -/
def Affine.doubleScalarStep (tableA tableB : List Affine) (r : Affine) (digits : Int × Int) : Affine :=
  Affine.addDigit tableB digits.2 (Affine.addDigit tableA digits.1 (r.add r))

end Sys2Proof.Machine
end

