-- ==== Sys2Proof/Machine/Slide.lean ====
section
/-! DEFINITION. The signed sliding-window recoding (44_scalar_mult.md R270, R271). The digit array is a list; position i is
worked on as the head of its suffix, so that `r[i + b]` is the b-th digit after the head (log entry 12). -/

namespace Sys2Proof.Machine

/-- The 256 single bits of a 32-byte scalar: `r[i] <- (s[i >> 3] >> (i & 7)) & 1` (R270). -/
def scalarBits (s : List Byte) : List Int :=
  (List.range 256).map fun i => (((s.getD (i / 8) 0).toNat / 2 ^ (i % 8) % 2 : Nat) : Int)

/-- The borrow walk: clear 1-bits until a 0-bit is found, which is set to 1; it may run off the end (R270). -/
def borrowWalk : List Int → List Int
  | [] => []
  | r :: rest => if r = 0 then 1 :: rest else 0 :: borrowWalk rest

/-- The look-ahead of one position: `digit` is `r[i]`, the list starts at `r[i + b]`, `w` is 2^b, and `n` offsets are left
(R270). It answers the new digit and the digits after it. -/
def absorb : Nat → Int → Int → List Int → Int × List Int
  | 0, _, digit, rest => (digit, rest)
  | _ + 1, _, digit, [] => (digit, [])
  | n + 1, w, digit, r :: rest =>
    if r = 0 then
      let (digit', rest') := absorb n (2 * w) digit rest
      (digit', 0 :: rest')
    else if digit + r * w ≤ 15 then
      let (digit', rest') := absorb n (2 * w) (digit + r * w) rest
      (digit', 0 :: rest')
    else if digit - r * w ≥ -15 then
      let (digit', rest') := absorb n (2 * w) (digit - r * w) (borrowWalk rest)
      (digit', 0 :: rest')
    else (digit, r :: rest)

/-- Positions i, i + 1, … in order; `n` bounds how many are left (R270). -/
def recode : Nat → List Int → List Int
  | 0, r => r
  | _ + 1, [] => []
  | n + 1, digit :: rest =>
    if digit = 0 then 0 :: recode n rest
    else
      let (digit', rest') := absorb 6 2 digit rest
      digit' :: recode n rest'

/-- `slide(s)`: 256 signed digits (R270). -/
def slide (s : List Byte) : List Int := recode 256 (scalarBits s)

/-- `sv(s) = Σ r[i]·2^i` (R271). -/
def digitSum : List Int → Int
  | [] => 0
  | r :: rest => r + 2 * digitSum rest

/-- The digits as int8 two's complement bytes (R272). -/
def digitBytes (r : List Int) : List Byte := r.map fun d => BitVec.ofInt 8 d

end Sys2Proof.Machine
end

