-- ==== Sys2Proof/Machine/ScalarMult.lean ====
section
/-! DEFINITION. The scalar multiplier (44_scalar_mult.md R273–R280). -/

namespace Sys2Proof.Machine

/-- `Ai[k+1] <- cached(toExt(add(A2, Ai[k])))` for the `n` entries after `k` (R273). -/
def oddMultiplesFrom (a2 : Ext) : Nat → Cached → List Cached
  | 0, k => [k]
  | n + 1, k => k :: oddMultiplesFrom a2 n (a2.add k).toExt.toCached

/-- The table {A, 3A, …, 15A}, each entry cached (R273). -/
def oddMultiples (a : Ext) : List Cached := oddMultiplesFrom a.toProj.dbl.toExt 7 a.toCached

/-- The table entry of an odd digit of magnitude m: index m / 2 (R275). -/
def tableEntry (table : List Cached) (m : Nat) : Cached := table.getD (m / 2) Rom.identity.toCached

/-- One digit's addition or subtraction of a table entry; a zero digit leaves the accumulator (R275). -/
def addDigit (table : List Cached) (digit : Int) (t : Compl) : Compl :=
  if digit > 0 then t.toExt.add (tableEntry table digit.natAbs)
  else if digit < 0 then t.toExt.sub (tableEntry table digit.natAbs)
  else t

/-- One turn of the accumulation loop on the digits (as[i], bs[i]) (R275). -/
def doubleScalarStep (ai : List Cached) (r : Proj) (digits : Int × Int) : Proj :=
  (addDigit Rom.btab digits.2 (addDigit ai digits.1 r.dbl)).toProj

/-- The digit pairs from the highest non-zero index down to 0 (R275 step 4). -/
def digitPairs (a b : List Byte) : List (Int × Int) :=
  ((slide a).zip (slide b)).reverse.dropWhile fun d => d.1 == 0 && d.2 == 0

/-- `DS(a, A, b)` (R275). -/
def doubleScalarMult (a : List Byte) (pt : Ext) (b : List Byte) : Proj :=
  (digitPairs a b).foldl (doubleScalarStep (oddMultiples pt)) ⟨Fe.zero, Fe.one, Fe.one⟩

/-- `n·A` by double-and-add over the low `k` bits of n, most significant first, with the formulas of R227, R228, R230 and
R231. -/
def extMul (a : Ext) : Nat → Nat → Ext
  | 0, _ => Rom.identity
  | k + 1, n =>
    if n = 0 then Rom.identity
    else
      let d := (extMul a k (n / 2)).toProj.dbl.toExt
      if n % 2 = 1 then (d.add a.toCached).toExt else d

/-- `SB(s) = (le(s) mod L)·B`, normalised to an affine point (R279, R280). The algorithm is free (R280; log entry 11). -/
def baseMult (s : List Byte) : Affine := (extMul Rom.base 256 (le s % Rom.L)).toProj.affine

end Sys2Proof.Machine
end

