-- ==== Sys2Proof/Machine/PointCommands.lean ====
section
/-! DEFINITION. The meanings of the PT commands (43_point.md, 44_scalar_mult.md). Each checks its ranges in the order rd, ra,
rb, then reads (UNINIT), then takes tags (TAG) (60_exceptions.md R332). -/

namespace Sys2Proof.Machine

/-- PT_IDENT: `P[rd] <- (EXT, 0, 1, 1, 0)` (R224). -/
def execPtIdent (rd : Operand) (s : State) : Host.Outcome State Fault Refusal :=
  finish (do
    let d ← pointIndex rd .rd
    pure [.point d (.ext Rom.identity)]) s

/-- PT_LDB: `P[rd] <- B` (R225). -/
def execPtLdb (rd : Operand) (s : State) : Host.Outcome State Fault Refusal :=
  finish (do
    let d ← pointIndex rd .rd
    pure [.point d (.ext Rom.base)]) s

/-- The shape `P[rd] <- f(P[ra])`, where `f` takes the tags it accepts. -/
def pointUnary (f : PReg → Except CmdError PReg) (rd ra : Operand) (s : State) : Host.Outcome State Fault Refusal :=
  finish (do
    let d ← pointIndex rd .rd
    let a ← pointIndex ra .ra
    let r ← s.readPoint a .ra
    let v ← f r
    pure [.point d v]) s

/-- The shape `P[rd] <- f(P[ra], P[rb])` of the mixed addition and subtraction. -/
def pointMixed (f : Ext → Cached → Compl) (rd ra rb : Operand) (s : State) : Host.Outcome State Fault Refusal :=
  finish (do
    let d ← pointIndex rd .rd
    let a ← pointIndex ra .ra
    let b ← pointIndex rb .rb
    let ar ← s.readPoint a .ra
    let br ← s.readPoint b .rb
    let e ← ar.asExt .ra
    let k ← br.asCached .rb
    pure [.point d (.compl (f e k))]) s

/-- PT_MOV: `P[rd] <- P[ra]`, any non-EMPTY tag (R226). -/
def execPtMov (rd ra : Operand) (s : State) : Host.Outcome State Fault Refusal := pointUnary (fun r => .ok r) rd ra s

/-- PT_TOEXT, from COMPL (R227). -/
def execPtToext (rd ra : Operand) (s : State) : Host.Outcome State Fault Refusal :=
  pointUnary (fun r => do
    let c ← r.asCompl .ra
    pure (.ext c.toExt)) rd ra s

/-- PT_TOPROJ, from COMPL or EXT (R229). -/
def execPtToproj (rd ra : Operand) (s : State) : Host.Outcome State Fault Refusal :=
  pointUnary (fun r =>
    match r with
    | .compl c => .ok (.proj c.toProj)
    | .ext e => .ok (.proj e.toProj)
    | _ => .error ⟨.tag, .ra⟩) rd ra s

/-- PT_TOCACHED, from EXT (R228). -/
def execPtTocached (rd ra : Operand) (s : State) : Host.Outcome State Fault Refusal :=
  pointUnary (fun r => do
    let e ← r.asExt .ra
    pure (.cached e.toCached)) rd ra s

/-- PT_DBL, from EXT or PROJ (R230). -/
def execPtDbl (rd ra : Operand) (s : State) : Host.Outcome State Fault Refusal :=
  pointUnary (fun r => do
    let q ← r.asXyz .ra
    pure (.compl q.dbl)) rd ra s

/-- PT_ADD (R231). -/
def execPtAdd (rd ra rb : Operand) (s : State) : Host.Outcome State Fault Refusal := pointMixed Ext.add rd ra rb s

/-- PT_SUB (R232). -/
def execPtSub (rd ra rb : Operand) (s : State) : Host.Outcome State Fault Refusal := pointMixed Ext.sub rd ra rb s

/-- PT_NEG, from EXT or PROJ; the tag is kept (R233). -/
def execPtNeg (rd ra : Operand) (s : State) : Host.Outcome State Fault Refusal :=
  pointUnary (fun r =>
    match r with
    | .ext e => .ok (.ext e.neg)
    | .proj q => .ok (.proj q.neg)
    | _ => .error ⟨.tag, .ra⟩) rd ra s

/-- PT_GET: `F[rd] <- c_rb(P[ra])` (R235). -/
def execPtGet (rd ra rb : Operand) (s : State) : Host.Outcome State Fault Refusal :=
  finish (do
    let a ← pointIndex ra .ra
    let j ← coordIndex rb .rb
    let r ← s.readPoint a .ra
    let v ← r.coord j .rb
    pure [.field (fieldIndex rd) v]) s

/-- PT_ENC, from EXT or PROJ (R234). -/
def execPtEnc (rd ra : Operand) (s : State) : Host.Outcome State Fault Refusal :=
  finish (do
    let a ← pointIndex ra .ra
    let r ← s.readPoint a .ra
    let q ← r.asXyz .ra
    pure [.data (slotOffset rd) q.affine.encode]) s

/-- What PT_DEC writes: the point with FLAG = 1, or EMPTY with FLAG = 0 (R237). -/
def decodeWrites (d : Fin Config.pointRegs) : Option Affine → List Write
  | some a => [.point d (.ext a.toExt), .flag true]
  | none => [.point d .empty, .flag false]

/-- PT_DEC (R237). A failed decode is not an error (60_exceptions.md R337). -/
def execPtDec (rd ra : Operand) (s : State) : Host.Outcome State Fault Refusal :=
  finish (do
    let d ← pointIndex rd .rd
    pure (decodeWrites d (decodePoint (s.slot ra)))) s

/-- PT_DSMUL: `P[rd] <- DS(a, A, b)`, tag PROJ (44_scalar_mult.md R276). -/
def execPtDsmul (rd ra rb rc : Operand) (s : State) : Host.Outcome State Fault Refusal :=
  finish (do
    let d ← pointIndex rd .rd
    let a ← pointIndex ra .ra
    let r ← s.readPoint a .ra
    let e ← r.asExt .ra
    pure [.point d (.proj (doubleScalarMult (s.slot rb) e (s.slot rc)))]) s

/-- PT_SMULB: `P[rd] <- (EXT, x, y, 1, x·y)` with (x, y) = SB(s) (R280). -/
def execPtSmulb (rd ra : Operand) (s : State) : Host.Outcome State Fault Refusal :=
  finish (do
    let d ← pointIndex rd .rd
    pure [.point d (.ext (baseMult (s.slot ra)).toExt)]) s

end Sys2Proof.Machine
end

