-- ==== Sys2Proof/Machine/ScalarCommands.lean ====
section
/-! DEFINITION. The meanings of the SC commands (45_scalar.md, 44_scalar_mult.md R272). Scalars are read at their full
256-bit or 512-bit value (R300, 92_eei_decisions.md D22). -/

namespace Sys2Proof.Machine

/-- SC_MULADD: `MemWrite(32·rd, 32, le_32((a·b + c) mod L))` (R301). -/
def execScMuladd (rd ra rb rc : Operand) (s : State) : Host.Outcome State Fault Refusal :=
  finish (.ok [.data (slotOffset rd)
    (leBytes 32 ((le (s.slot ra) * le (s.slot rb) + le (s.slot rc)) % Rom.L))]) s

/-- SC_REDUCE: `MemWrite(32·rd, 32, le_32(s mod L))` of 64 bytes (R302). -/
def execScReduce (rd ra : Operand) (s : State) : Host.Outcome State Fault Refusal :=
  finish (do
    let off ← slotPairOffset ra .ra
    pure [.data (slotOffset rd) (leBytes 32 (le (s.memRead off 64) % Rom.L))]) s

/-- SC_MIN: `FLAG <- (le(s) < L)` (R303). -/
def execScMin (ra : Operand) (s : State) : Host.Outcome State Fault Refusal :=
  finish (.ok [.flag (isMinimal (le (s.slot ra)))]) s

/-- SC_LDL: `MemWrite(32·rd, 32, le_32(L))` (R304). -/
def execScLdl (rd : Operand) (s : State) : Host.Outcome State Fault Refusal :=
  finish (.ok [.data (slotOffset rd) (leBytes 32 Rom.L)]) s

/-- SC_SLIDE: the 256 digits of slide(s), one int8 a byte (44_scalar_mult.md R272). -/
def execScSlide (rd ra : Operand) (s : State) : Host.Outcome State Fault Refusal :=
  finish (do
    let off ← slotOctetOffset rd .rd
    pure [.data off (digitBytes (slide (s.slot ra)))]) s

end Sys2Proof.Machine
end

