-- ==== Sys2Proof/Machine/Dispatch.lean ====
section
/-! DEFINITION. One arm per command: the completion step of a decoded command (40_control.md R132). -/

namespace Sys2Proof.Machine

def exec (i : Instr) (s : State) : Host.Outcome State Fault Refusal :=
  match i with
  | .nop => Sys2Proof.Machine.execNop s
  | .feZero rd => Sys2Proof.Machine.execFeZero rd s
  | .feOne rd => Sys2Proof.Machine.execFeOne rd s
  | .feMov rd ra => Sys2Proof.Machine.execFeMov rd ra s
  | .feLdc rd ra => Sys2Proof.Machine.execFeLdc rd ra s
  | .feAdd rd ra rb => Sys2Proof.Machine.execFeAdd rd ra rb s
  | .feSub rd ra rb => Sys2Proof.Machine.execFeSub rd ra rb s
  | .feNeg rd ra => Sys2Proof.Machine.execFeNeg rd ra s
  | .feMul rd ra rb => Sys2Proof.Machine.execFeMul rd ra rb s
  | .feSq rd ra => Sys2Proof.Machine.execFeSq rd ra s
  | .feSq2 rd ra => Sys2Proof.Machine.execFeSq2 rd ra s
  | .feInv rd ra => Sys2Proof.Machine.execFeInv rd ra s
  | .fePow22523 rd ra => Sys2Proof.Machine.execFePow22523 rd ra s
  | .feIsneg ra => Sys2Proof.Machine.execFeIsneg ra s
  | .feIsnz ra => Sys2Proof.Machine.execFeIsnz ra s
  | .feTobytes rd ra => Sys2Proof.Machine.execFeTobytes rd ra s
  | .feFrombytes rd ra => Sys2Proof.Machine.execFeFrombytes rd ra s
  | .ptIdent rd => Sys2Proof.Machine.execPtIdent rd s
  | .ptLdb rd => Sys2Proof.Machine.execPtLdb rd s
  | .ptMov rd ra => Sys2Proof.Machine.execPtMov rd ra s
  | .ptToext rd ra => Sys2Proof.Machine.execPtToext rd ra s
  | .ptToproj rd ra => Sys2Proof.Machine.execPtToproj rd ra s
  | .ptTocached rd ra => Sys2Proof.Machine.execPtTocached rd ra s
  | .ptDbl rd ra => Sys2Proof.Machine.execPtDbl rd ra s
  | .ptAdd rd ra rb => Sys2Proof.Machine.execPtAdd rd ra rb s
  | .ptSub rd ra rb => Sys2Proof.Machine.execPtSub rd ra rb s
  | .ptNeg rd ra => Sys2Proof.Machine.execPtNeg rd ra s
  | .ptGet rd ra rb => Sys2Proof.Machine.execPtGet rd ra rb s
  | .ptEnc rd ra => Sys2Proof.Machine.execPtEnc rd ra s
  | .ptDec rd ra => Sys2Proof.Machine.execPtDec rd ra s
  | .ptDsmul rd ra rb rc => Sys2Proof.Machine.execPtDsmul rd ra rb rc s
  | .ptSmulb rd ra => Sys2Proof.Machine.execPtSmulb rd ra s
  | .scMuladd rd ra rb rc => Sys2Proof.Machine.execScMuladd rd ra rb rc s
  | .scReduce rd ra => Sys2Proof.Machine.execScReduce rd ra s
  | .scMin ra => Sys2Proof.Machine.execScMin ra s
  | .scLdl rd => Sys2Proof.Machine.execScLdl rd s
  | .scSlide rd ra => Sys2Proof.Machine.execScSlide rd ra s

end Sys2Proof.Machine
end

