-- ==== Sys2Proof/Machine/Step.lean ====
section
/-! DEFINITION. One step of the machine: the next turn of the agenda, or the sequencer's when none is left (10_state.md R30,
20_memory.md R81). -/

namespace Sys2Proof.Machine

/-- The completion step of the latched word: ILLEGAL_CMD for a word outside the opcode map, else its command (40_control.md
R132, 60_exceptions.md R335). -/
def runWord (w : Word) (s : State) : Host.Outcome State Fault Refusal :=
  match decode w with
  | some i => exec i s
  | none => .next (s.raiseError ⟨.illegalCmd, .none⟩)

/-- The sequencer's turn: complete the pending command; with none the core is idle (R132, 60_exceptions.md R347). -/
def sequencerTurn (s : State) : Host.Outcome State Fault Refusal :=
  match s.pending with
  | some c => runWord c.word s
  | none => .next s

/-- One step: the first turn of the agenda is taken; an empty agenda leaves the turn to the sequencer, so that a pending
command is completed at the latest when the host is done (70_reset_and_hazards.md R377, R379). -/
def step (s : State) : Host.Outcome State Fault Refusal :=
  match s.agenda with
  | [] => sequencerTurn s
  | .sequencer :: rest => sequencerTurn { s with agenda := rest }
  | .read a :: rest => .next (busRead a { s with agenda := rest })
  | .write a d :: rest => .next (busWrite a d { s with agenda := rest })
  | .hardReset :: rest => .next (State.resetCore { s with agenda := rest })

/-- `s` after the host has written the word to CMD and started it, with the sequencer's turn next (log entry 4). -/
def State.withFetchWord (s : State) (nbits w : Nat) : State := s.startWord (BitVec.ofNat 32 (w % 2 ^ nbits))

end Sys2Proof.Machine
end

