-- ==== Sys2Proof/Machine/Limbs.lean ====
section
/-! DEFINITION. The radix-2^25.5 limb datapath (42_field_datapath.md). No command exposes a limb (R33), so the commands keep
residues (R203, log entry 5) and this file is the implementation side of the refinement obligation: signed limbs, the lazy
adder, the multiply-and-reduce unit, the carry pass, the canonical output. -/

namespace Sys2Proof.Machine

/-- Ten signed limbs (R190). Each is an exact integer here; that it fits its 32-bit register, and every sum its 64-bit
accumulator, is said by the predicates below (R203, log entry 18). -/
abbrev Limbs := Vector Int 10

/-- `o_i = ceil(25.5·i)` (R190). -/
def limbOffset (i : Nat) : Nat := (51 * i + 1) / 2

/-- `w_i`: 26 bits for even i, 25 for odd i (R190). -/
def limbWidth (i : Nat) : Nat := if i % 2 = 0 then 26 else 25

/-- `value(h) = Σ h_i · 2^(o_i)` (R191). -/
def Limbs.value (h : Limbs) : Int := ((List.finRange 10).map fun i : Fin 10 => h[i] * 2 ^ limbOffset i).sum

/-- The residue a limb vector represents (R191). -/
def Limbs.residue (h : Limbs) : Int := h.value % Config.p

/-- The stored-limb bound `|h_i| ≤ 1.1 · 2^(w_i − 1)` (R192). -/
def Limbs.carried (h : Limbs) : Prop := ∀ i : Fin 10, 10 * |h[i]| ≤ 11 * 2 ^ (limbWidth i - 1)

/-- The bound of a lazy sum, `|h_i| ≤ 1.1 · 2^(w_i)` (R194). -/
def Limbs.lazyBound (h : Limbs) : Prop := ∀ i : Fin 10, 10 * |h[i]| ≤ 11 * 2 ^ limbWidth i

/-- The multiplier input bound `|h_i| ≤ 1.65 · 2^(w_i)` (R195). -/
def Limbs.mulBound (h : Limbs) : Prop := ∀ i : Fin 10, 100 * |h[i]| ≤ 165 * 2 ^ limbWidth i

/-- The lazy adder: no carry between limbs (R194). -/
def Limbs.add (f g : Limbs) : Limbs := Vector.ofFn fun i => f[i] + g[i]

/-- The lazy subtractor (R194). -/
def Limbs.sub (f g : Limbs) : Limbs := Vector.ofFn fun i => f[i] - g[i]

/-- Limb-wise negation (R194). -/
def Limbs.neg (f : Limbs) : Limbs := Vector.ofFn fun i => -f[i]

/-- One rounding carry at limb i; the carry out of limb 9 re-enters limb 0 times 19 (R198). -/
def Limbs.roundCarry (h : Limbs) (i : Fin 10) : Limbs :=
  let c := (h[i] + 2 ^ (limbWidth i - 1)) / 2 ^ limbWidth i
  Vector.ofFn fun j =>
    if j = i then h[j] - c * 2 ^ limbWidth i
    else if j = i + 1 then h[j] + (if i = 9 then 19 else 1) * c
    else h[j]

/-- The carry order after a multiplication and at commit (R198, R199). -/
def carryOrder : List (Fin 10) := [0, 4, 1, 5, 2, 6, 3, 7, 4, 8, 9, 0]

/-- The carry order after a load (R193). -/
def loadOrder : List (Fin 10) := [9, 1, 3, 5, 7, 0, 2, 4, 6, 8]

/-- The carry pass (R198). -/
def Limbs.carryPass (h : Limbs) : Limbs := carryOrder.foldl Limbs.roundCarry h

/-- The carries after a load (R193). -/
def Limbs.loadCarry (h : Limbs) : Limbs := loadOrder.foldl Limbs.roundCarry h

/-- Three bytes from k, little-endian (R193). -/
def load3 (s : List Byte) (k : Nat) : Int := (le ((s.drop k).take 3) : Nat)

/-- Four bytes from k, little-endian (R193). -/
def load4 (s : List Byte) (k : Nat) : Int := (le ((s.drop k).take 4) : Nat)

/-- The limbs of 32 bytes before the carries; bit 255 is masked off (R193). -/
def Limbs.loadRaw (s : List Byte) : Limbs :=
  #v[load4 s 0, load3 s 4 * 2 ^ 6, load3 s 7 * 2 ^ 5, load3 s 10 * 2 ^ 3, load3 s 13 * 2 ^ 2,
     load4 s 16, load3 s 20 * 2 ^ 7, load3 s 23 * 2 ^ 5, load3 s 26 * 2 ^ 4, (load3 s 29 % 2 ^ 23) * 2 ^ 2]

/-- Loading 32 bytes (R193). -/
def Limbs.load (s : List Byte) : Limbs := (Limbs.loadRaw s).loadCarry

/-- The term of `f_i · g_j` in `H_k`: twice for i and j both odd, times 19 where i + j = k + 10 (R196). -/
def productTerm (f g : Limbs) (k i : Fin 10) : Int :=
  (if i ≤ k then 1 else 19) * (if i.val % 2 = 1 ∧ (k - i).val % 2 = 1 then 2 else 1) * f[i] * g[k - i]

/-- The ten product sums `H_k` (R196). -/
def Limbs.productSums (f g : Limbs) : Limbs := Vector.ofFn fun k => ((List.finRange 10).map (productTerm f g k)).sum

/-- Multiply and reduce (R196). -/
def Limbs.mul (f g : Limbs) : Limbs := (f.productSums g).carryPass

/-- Squaring (R197). -/
def Limbs.sq (f : Limbs) : Limbs := f.mul f

/-- The product sums of FE_SQ2, each `H_k` doubled (R197). -/
def Limbs.doubledSums (f : Limbs) : Limbs := Vector.ofFn fun k => 2 * (f.productSums f)[k]

/-- Squaring with each `H_k` doubled before the carry pass (R197). -/
def Limbs.sq2 (f : Limbs) : Limbs := f.doubledSums.carryPass

/-- `q` of the canonical output: 1 if value(h) ≥ p, else 0, for a carried h (R200). -/
def Limbs.quotient (h : Limbs) : Int :=
  (List.finRange 10).foldl (fun (q : Int) (i : Fin 10) => (h[i] + q) / 2 ^ limbWidth i) ((19 * h[(9 : Fin 10)] + 2 ^ 24) / 2 ^ 25)

/-- One exact carry at limb i; the carry out of limb 9 is dropped (R200). -/
def Limbs.exactCarry (h : Limbs) (i : Fin 10) : Limbs :=
  let c := h[i] / 2 ^ limbWidth i
  Vector.ofFn fun j =>
    if j = i then h[j] - c * 2 ^ limbWidth i
    else if j = i + 1 ∧ i ≠ 9 then h[j] + c
    else h[j]

/-- The limbs the exact carries start from: 19·q is added to h_0 (R200). -/
def Limbs.canonicalStart (h : Limbs) : Limbs := h.set 0 (h[0] + 19 * h.quotient)

/-- The canonical limbs, each in [0, 2^(w_i)) (R200). -/
def Limbs.canonical (h : Limbs) : Limbs := (List.finRange 10).foldl Limbs.exactCarry h.canonicalStart

/-- The canonical 32 bytes (R200). -/
def Limbs.toBytes (h : Limbs) : List Byte := leBytes 32 h.canonical.value.toNat

/-- isneg: bit 0 of byte 0 of the canonical bytes (R201). -/
def Limbs.isNegative (h : Limbs) : Bool := (h.toBytes.getD 0 0).getLsbD 0

/-- isnz: some canonical byte is non-zero (R201). -/
def Limbs.isNonZero (h : Limbs) : Bool := h.toBytes.any (fun b => b != 0)

/-! ### Accumulators (R203) -/

/-- A signed n-bit accumulator holds x. -/
def fitsSigned (n : Nat) (x : Int) : Prop := -2 ^ (n - 1) ≤ x ∧ x < 2 ^ (n - 1)

/-- Every limb fits a signed n-bit register. -/
def Limbs.fits (n : Nat) (h : Limbs) : Prop := ∀ i : Fin 10, fitsSigned n h[i]

/-- Every sum of a carry sequence fits 64 bits: the limbs before each carry, the rounded limb, what is taken from limb i and
what is added to the next; and the limbs it leaves fit their 32-bit registers (R190, R198). -/
def Limbs.carriesFit (h : Limbs) : List (Fin 10) → Prop
  | [] => h.fits 32
  | i :: rest =>
    let rounded := h[i] + 2 ^ (limbWidth i - 1)
    let c := rounded / 2 ^ limbWidth i
    h.fits 64 ∧ fitsSigned 64 rounded ∧ fitsSigned 64 (c * 2 ^ limbWidth i) ∧ fitsSigned 64 (19 * c) ∧
      (h.roundCarry i).carriesFit rest

/-- The magnitudes of the terms of `H_k` added up: no partial sum of `H_k`, in any order, exceeds it (R195). -/
def Limbs.productMagnitude (f g : Limbs) (k : Fin 10) : Int := ((List.finRange 10).map fun i => |productTerm f g k i|).sum

/-- Every sum of a multiplication fits 64 bits (R195, R203). -/
def Limbs.mulFits (f g : Limbs) : Prop :=
  (∀ k : Fin 10, fitsSigned 64 (f.productMagnitude g k)) ∧ (f.productSums g).carriesFit carryOrder

/-- Every sum of a doubled squaring fits 64 bits, the doubled `H_k` too (R197, R203). -/
def Limbs.sq2Fits (f : Limbs) : Prop :=
  (∀ k : Fin 10, fitsSigned 64 (2 * f.productMagnitude f k)) ∧ f.doubledSums.carriesFit carryOrder

end Sys2Proof.Machine
end

