-- ==== Sys2Proof/Machine/LimbCommands.lean ====
section
/-! DEFINITION. The commands on limbs (42_field_datapath.md R199, R202–R204): each value a field or point command stores is a
field expression over the values it reads, computed with the lazy adder and the multiplier and carried at commit. The machine
keeps residues (R203, log entry 5); this file is the implementation that refines it. -/

namespace Sys2Proof.Machine

/-- The field steps behind one stored value: sources, ROM constants, the steps of R194, R196, R197, and powers (R202). -/
inductive FieldExpr where
  | input (n : Nat)
  | const (c : Fe)
  | add (a b : FieldExpr)
  | sub (a b : FieldExpr)
  | neg (a : FieldExpr)
  | mul (a b : FieldExpr)
  | sq (a : FieldExpr)
  | sq2 (a : FieldExpr)
  | pow (a : FieldExpr) (n : Nat)
  deriving DecidableEq, Repr

/-! ### What an expression computes -/

/-- On residues (41_field.md). -/
def FieldExpr.eval (vs : List Fe) : FieldExpr → Fe
  | .input n => vs.getD n Fe.zero
  | .const c => c
  | .add a b => (a.eval vs).add (b.eval vs)
  | .sub a b => (a.eval vs).sub (b.eval vs)
  | .neg a => (a.eval vs).neg
  | .mul a b => (a.eval vs).mul (b.eval vs)
  | .sq a => (a.eval vs).sq
  | .sq2 a => (a.eval vs).sq2
  | .pow a n => (a.eval vs).pow n

/-- The carried limbs of a ROM constant. -/
def Limbs.ofFe (c : Fe) : Limbs := Limbs.load c.toBytes

/-- The exponentiation chain on limbs: the squarings and multiplications of `Fe.powBits` (R202, log entry 17). -/
def Limbs.powBits : Nat → Limbs → Nat → Limbs
  | 0, _, _ => Limbs.ofFe Fe.one
  | k + 1, x, n =>
    match n % 2 with
    | 0 => Limbs.powBits k x.sq (n / 2)
    | _ => x.mul (Limbs.powBits k x.sq (n / 2))

/-- On limbs, with no carry after a lazy step (R194). -/
def FieldExpr.lazyLimbs (ls : List Limbs) : FieldExpr → Limbs
  | .input n => ls.getD n (Limbs.ofFe Fe.zero)
  | .const c => Limbs.ofFe c
  | .add a b => (a.lazyLimbs ls).add (b.lazyLimbs ls)
  | .sub a b => (a.lazyLimbs ls).sub (b.lazyLimbs ls)
  | .neg a => (a.lazyLimbs ls).neg
  | .mul a b => (a.lazyLimbs ls).mul (b.lazyLimbs ls)
  | .sq a => (a.lazyLimbs ls).sq
  | .sq2 a => (a.lazyLimbs ls).sq2
  | .pow a n => Limbs.powBits 256 (a.lazyLimbs ls) n

/-- What is stored at commit (R199): a product straight out of its carry pass, everything else through one. -/
def FieldExpr.store (ls : List Limbs) (e : FieldExpr) : Limbs :=
  match e with
  | .mul _ _ | .sq _ | .sq2 _ | .pow _ _ => e.lazyLimbs ls
  | .input _ | .const _ | .add _ _ | .sub _ _ | .neg _ => (e.lazyLimbs ls).carryPass

/-- A stored limb vector stands for a residue: it is carried (R192) and its value is that residue mod p (R191). -/
def Limbs.represents (h : Limbs) (v : Fe) : Prop := h.carried ∧ h.residue = v.val

/-! ### Bounds and accumulators -/

/-- `|h_i| ≤ n · 1.1 · 2^(w_i − 1)`: 1 is the stored bound, 2 that of one lazy step, 3 the multiplier's input bound
(R192, R194, R195). -/
def Limbs.boundedBy (n : Nat) (h : Limbs) : Prop := ∀ i : Fin 10, 10 * |h[i]| ≤ n * 11 * 2 ^ (limbWidth i - 1)

/-- The bound an expression keeps over carried sources, `none` where a step would exceed the multiplier's input bound: a
product is carried, a sum adds its operands' bounds (R204). -/
def FieldExpr.level : FieldExpr → Option Nat
  | .input _ => some 1
  | .const _ => some 1
  | .add a b => sumLevel a.level b.level
  | .sub a b => sumLevel a.level b.level
  | .neg a => a.level
  | .mul a b => if a.level.isSome && b.level.isSome then some 1 else none
  | .sq a => if a.level.isSome then some 1 else none
  | .sq2 a => if a.level.isSome then some 1 else none
  | .pow a _ => if a.level.isSome then some 1 else none
where
  /-- The bound of a lazy sum, within 1.65·2^w = 3 · 1.1 · 2^(w − 1). -/
  sumLevel : Option Nat → Option Nat → Option Nat
    | some m, some n => if m + n ≤ 3 then some (m + n) else none
    | _, _ => none

/-- Every sum of the exponentiation chain fits its accumulator. -/
def Limbs.powFits : Nat → Limbs → Nat → Prop
  | 0, _, _ => True
  | k + 1, x, n =>
    x.mulFits x ∧ Limbs.powFits k x.sq (n / 2) ∧ (n % 2 ≠ 0 → x.mulFits (Limbs.powBits k x.sq (n / 2)))

/-- Every sum an expression forms fits: a lazy sum 32 bits, product sums and carries 64 (R203 clause 3). -/
def FieldExpr.stepsFit (ls : List Limbs) : FieldExpr → Prop
  | .input n => (FieldExpr.lazyLimbs ls (.input n)).fits 32
  | .const c => (Limbs.loadRaw c.toBytes).carriesFit loadOrder
  | .add a b => a.stepsFit ls ∧ b.stepsFit ls ∧ (FieldExpr.lazyLimbs ls (.add a b)).fits 32
  | .sub a b => a.stepsFit ls ∧ b.stepsFit ls ∧ (FieldExpr.lazyLimbs ls (.sub a b)).fits 32
  | .neg a => a.stepsFit ls ∧ (FieldExpr.lazyLimbs ls (.neg a)).fits 32
  | .mul a b => a.stepsFit ls ∧ b.stepsFit ls ∧ (a.lazyLimbs ls).mulFits (b.lazyLimbs ls)
  | .sq a => a.stepsFit ls ∧ (a.lazyLimbs ls).mulFits (a.lazyLimbs ls)
  | .sq2 a => a.stepsFit ls ∧ (a.lazyLimbs ls).sq2Fits
  | .pow a n => a.stepsFit ls ∧ Limbs.powFits 256 (a.lazyLimbs ls) n

/-- Every sum of the steps and of the commit carry fits (R199, R203). -/
def FieldExpr.sumsFit (ls : List Limbs) (e : FieldExpr) : Prop := e.stepsFit ls ∧ (e.lazyLimbs ls).carriesFit carryOrder

/-! ### The commands' expressions -/

/-- Extended of the Completed sources (43_point.md R227). -/
def toExtExprs : List FieldExpr := [.mul (.input 0) (.input 3), .mul (.input 1) (.input 2), .mul (.input 2) (.input 3), .mul (.input 0) (.input 1)]

/-- Projective of the Completed sources (R229). -/
def toProjExprs : List FieldExpr := [.mul (.input 0) (.input 3), .mul (.input 1) (.input 2), .mul (.input 2) (.input 3)]

/-- Cached of the Extended sources (R228). -/
def toCachedExprs : List FieldExpr := [.add (.input 1) (.input 0), .sub (.input 1) (.input 0), .input 2, .mul (.input 3) (.const Rom.d2)]

/-- Doubling of the sources X, Y, Z (R230). -/
def dblExprs : List FieldExpr :=
  let y3 : FieldExpr := .add (.mul (.input 1) (.input 1)) (.mul (.input 0) (.input 0))
  let z3 : FieldExpr := .sub (.mul (.input 1) (.input 1)) (.mul (.input 0) (.input 0))
  [.sub (.mul (.add (.input 0) (.input 1)) (.add (.input 0) (.input 1))) y3, y3, z3, .sub (.sq2 (.input 2)) z3]

/-- Mixed addition: Extended sources 0–3, Cached sources 4–7 (R231). -/
def addExprs : List FieldExpr :=
  let pp : FieldExpr := .mul (.add (.input 1) (.input 0)) (.input 4)
  let mm : FieldExpr := .mul (.sub (.input 1) (.input 0)) (.input 5)
  let tt : FieldExpr := .mul (.input 7) (.input 3)
  let zz : FieldExpr := .add (.mul (.input 2) (.input 6)) (.mul (.input 2) (.input 6))
  [.sub pp mm, .add pp mm, .add zz tt, .sub zz tt]

/-- Mixed subtraction (R232). -/
def subExprs : List FieldExpr :=
  let pp : FieldExpr := .mul (.add (.input 1) (.input 0)) (.input 5)
  let mm : FieldExpr := .mul (.sub (.input 1) (.input 0)) (.input 4)
  let tt : FieldExpr := .mul (.input 7) (.input 3)
  let zz : FieldExpr := .add (.mul (.input 2) (.input 6)) (.mul (.input 2) (.input 6))
  [.sub pp mm, .add pp mm, .sub zz tt, .add zz tt]

/-- The affine point of the sources X, Y, Z by one inversion (R234). -/
def affineExprs : List FieldExpr :=
  let zInv : FieldExpr := .pow (.input 2) (Config.p - 2)
  [.mul (.input 0) zInv, .mul (.input 1) zInv]

/-- Extended with Z = 1 of the affine sources x, y (R237, 44_scalar_mult.md R280). -/
def fromAffineExprs : List FieldExpr := [.input 0, .input 1, .const Fe.one, .mul (.input 0) (.input 1)]

/-- The coordinates of a ROM point. -/
def constExprs (e : Ext) : List FieldExpr := [.const e.x, .const e.y, .const e.z, .const e.t]

end Sys2Proof.Machine

namespace Sys2Proof

open Machine

/-- What a command stores, over its sources in the order of `Instr.sources`, for a source entry P[ra] of the tag of `entry`;
`none` for a command that is no fixed expression or does not accept the tag. -/
def Instr.program (i : Instr) (entry : PReg) : Option (List FieldExpr) :=
  match i with
  | .feZero _ => some [.const Fe.zero]
  | .feOne _ => some [.const Fe.one]
  | .feMov _ _ => some [.input 0]
  | .feLdc _ ra => if h : ra.toNat < 3 then some [.const (Rom.fieldConst ⟨ra.toNat, h⟩)] else none
  | .feAdd _ _ _ => some [.add (.input 0) (.input 1)]
  | .feSub _ _ _ => some [.sub (.input 0) (.input 1)]
  | .feNeg _ _ => some [.neg (.input 0)]
  | .feMul _ _ _ => some [.mul (.input 0) (.input 1)]
  | .feSq _ _ => some [.sq (.input 0)]
  | .feSq2 _ _ => some [.sq2 (.input 0)]
  | .feInv _ _ => some [.pow (.input 0) (Config.p - 2)]
  | .fePow22523 _ _ => some [.pow (.input 0) ((Config.p - 5) / 8)]
  | .ptIdent _ => some (constExprs Rom.identity)
  | .ptLdb _ => some (constExprs Rom.base)
  | .ptMov _ _ =>
    match entry with
    | .empty => none
    | .proj _ => some [.input 0, .input 1, .input 2]
    | .ext _ | .compl _ | .cached _ => some [.input 0, .input 1, .input 2, .input 3]
  | .ptToext _ _ => some toExtExprs
  | .ptToproj _ _ =>
    match entry with
    | .compl _ => some toProjExprs
    | .ext _ => some [.input 0, .input 1, .input 2]
    | .empty | .proj _ | .cached _ => none
  | .ptTocached _ _ => some toCachedExprs
  | .ptDbl _ _ => some dblExprs
  | .ptAdd _ _ _ => some addExprs
  | .ptSub _ _ _ => some subExprs
  | .ptNeg _ _ =>
    match entry with
    | .ext _ => some [.neg (.input 0), .input 1, .input 2, .neg (.input 3)]
    | .proj _ => some [.neg (.input 0), .input 1, .input 2]
    | .empty | .compl _ | .cached _ => none
  | .ptGet _ _ rb => some [.input rb.toNat]
  | .nop | .feIsneg _ | .feIsnz _ | .feTobytes _ _ | .feFrombytes _ _ | .ptEnc _ _ | .ptDec _ _ | .ptDsmul _ _ _ _
  | .ptSmulb _ _ | .scMuladd _ _ _ _ | .scReduce _ _ | .scMin _ | .scLdl _ | .scSlide _ _ => none

end Sys2Proof

namespace Sys2Proof.Machine

/-! ### The commands that are no fixed expression -/

/-- The coordinates after one point step, each carried as at commit (R199). DESIGN CHOICE (log entry 19): PT_DSMUL and
PT_SMULB use it for every inner step too, where R199 only lets lazy sums feed multiplications uncarried. -/
def storeAll (es : List FieldExpr) (ls : List Limbs) : List Limbs := es.map (·.store ls)

/-- The compressed bytes of an affine point (43_point.md R234). -/
def Limbs.encodePoint (x y : Limbs) : List Byte :=
  let s := y.toBytes
  s.set 31 (s.getD 31 0 ||| (if x.isNegative then 0x80 else 0))

/-- PT_ENC: affine by one inversion, then the bytes (R234). -/
def limbEncode (xyz : List Limbs) : List Byte :=
  let a := storeAll affineExprs xyz
  Limbs.encodePoint (a.getD 0 (Limbs.ofFe Fe.zero)) (a.getD 1 (Limbs.ofFe Fe.zero))

/-- `u = y·y − 1` over the source y (R236). -/
def decodeU (y : FieldExpr) : FieldExpr := .sub (.mul y y) (.const Fe.one)

/-- `v = d·y·y + 1` (R236). -/
def decodeV (y : FieldExpr) : FieldExpr := .add (.mul (.const Rom.d) (.mul y y)) (.const Fe.one)

/-- The candidate root `u·v³ · (u·v⁷)^((p−5)/8)` (R236). -/
def decodeRoot : FieldExpr :=
  let u := decodeU (.input 0)
  let w := decodeV (.input 0)
  let w3 : FieldExpr := .mul (.mul w w) w
  let w7 : FieldExpr := .mul (.mul w3 w3) w
  .mul (.mul u w3) (.pow (.mul u w7) ((Config.p - 5) / 8))

/-- `v·x·x − u` over the sources y, x (R236). -/
def decodeMinus : FieldExpr := .sub (.mul (decodeV (.input 0)) (.mul (.input 1) (.input 1))) (decodeU (.input 0))

/-- `v·x·x + u` over the sources y, x (R236). -/
def decodePlus : FieldExpr := .add (.mul (decodeV (.input 0)) (.mul (.input 1) (.input 1))) (decodeU (.input 0))

/-- `Dec(s)` on limbs (R236): the tests are zero tests of carried values. -/
def limbDecode (s : List Byte) : Option (Limbs × Limbs) :=
  let sign : Bool := (s.getD 31 0).toNat / 128 == 1
  let y := Limbs.load s
  let x := decodeRoot.store [y]
  if le s % 2 ^ 255 ≥ Config.p then none
  else
    let root : Option Limbs :=
      if (decodeMinus.store [y, x]).isNonZero = false then some x
      else if (decodePlus.store [y, x]).isNonZero = false then some ((FieldExpr.mul (.input 0) (.const Rom.sqrtm1)).store [x])
      else none
    match root with
    | none => none
    | some x =>
      if x.isNonZero = false ∧ sign = true then none
      else if x.isNegative = sign then some (x, y)
      else some ((FieldExpr.neg (.input 0)).store [x], y)

/-- The odd multiples of a point, each cached (44_scalar_mult.md R273). -/
def limbOddMultiplesFrom (a2 : List Limbs) : Nat → List Limbs → List (List Limbs)
  | 0, k => [k]
  | n + 1, k => k :: limbOddMultiplesFrom a2 n (storeAll toCachedExprs (storeAll toExtExprs (storeAll addExprs (a2 ++ k))))

/-- The table {A, 3A, …, 15A} (R273). -/
def limbOddMultiples (a : List Limbs) : List (List Limbs) :=
  limbOddMultiplesFrom (storeAll toExtExprs (storeAll dblExprs a)) 7 (storeAll toCachedExprs a)

/-- Btab on limbs (R274). -/
def limbBtab : List (List Limbs) := Rom.btab.map fun k => [k.yPlusX, k.yMinusX, k.z, k.t2d].map Limbs.ofFe

/-- One digit's addition or subtraction (R275). -/
def limbAddDigit (table : List (List Limbs)) (digit : Int) (t : List Limbs) : List Limbs :=
  let k := table.getD (digit.natAbs / 2) (storeAll toCachedExprs (storeAll (constExprs Rom.identity) []))
  if digit > 0 then storeAll addExprs (storeAll toExtExprs t ++ k)
  else if digit < 0 then storeAll subExprs (storeAll toExtExprs t ++ k)
  else t

/-- PT_DSMUL: one turn of the loop (R275). -/
def limbDoubleScalarStep (ai : List (List Limbs)) (r : List Limbs) (digits : Int × Int) : List Limbs :=
  storeAll toProjExprs (limbAddDigit limbBtab digits.2 (limbAddDigit ai digits.1 (storeAll dblExprs r)))

/-- PT_DSMUL: `DS(a, A, b)` on limbs (R275, R276). -/
def limbDoubleScalarMult (a : List Byte) (pt : List Limbs) (b : List Byte) : List Limbs :=
  (digitPairs a b).foldl (limbDoubleScalarStep (limbOddMultiples pt)) ([Fe.zero, Fe.one, Fe.one].map Limbs.ofFe)

/-- Double-and-add on limbs, as `extMul` (log entry 11). -/
def limbExtMul (a : List Limbs) : Nat → Nat → List Limbs
  | 0, _ => storeAll (constExprs Rom.identity) []
  | k + 1, n =>
    if n = 0 then storeAll (constExprs Rom.identity) []
    else
      let d := storeAll toExtExprs (storeAll dblExprs (limbExtMul a k (n / 2)))
      if n % 2 = 1 then storeAll toExtExprs (storeAll addExprs (d ++ storeAll toCachedExprs a)) else d

/-- PT_SMULB on limbs: the base multiple, normalised to Z = 1 (R280). -/
def limbBaseMult (s : List Byte) : List Limbs :=
  storeAll fromAffineExprs
    (storeAll affineExprs (limbExtMul (storeAll (constExprs Rom.base) []) 256 (le s % Rom.L)))

end Sys2Proof.Machine
end

