-- ==== Sys2Proof/Machine/ScalarLimbs.lean ====
section
/-! DEFINITION. The radix-2^21 scalar datapath (45_scalar.md R306–R308). The value rules R301 and R302 are normative and are
what the commands compute; this file is the implementation side of the refinement obligation R308. It holds the sequence
twice: on exact limbs (the arithmetic of R307), and on the signed 64-bit limb registers of R306. -/

namespace Sys2Proof.Machine

/-- Exact limbs s_0 … s_23 of weight 2^(21k) (R306). -/
abbrev ScalarLimbs := Vector Int 24

/-- The limb registers: 24 signed 64-bit words, two's complement (R306). -/
abbrev ScalarRegs := Vector (BitVec 64) 24

/-- One primitive of the datapath (R306). -/
inductive ScalarStep where
  | fold (k : Fin 24)
  | carryR (k : Fin 24)
  | carryF (k : Fin 24)
  deriving DecidableEq, Repr

/-- The reduction tail without the packing (R308). -/
def reduceSteps : List ScalarStep :=
  ([23, 22, 21, 20, 19, 18] : List (Fin 24)).map .fold
    ++ ([6, 8, 10, 12, 14, 16, 7, 9, 11, 13, 15] : List (Fin 24)).map .carryR
    ++ ([17, 16, 15, 14, 13, 12] : List (Fin 24)).map .fold
    ++ ([0, 2, 4, 6, 8, 10, 1, 3, 5, 7, 9, 11] : List (Fin 24)).map .carryR
    ++ .fold 12 :: ([0, 1, 2, 3, 4, 5, 6, 7, 8, 9, 10, 11] : List (Fin 24)).map .carryF
    ++ .fold 12 :: ([0, 1, 2, 3, 4, 5, 6, 7, 8, 9, 10] : List (Fin 24)).map .carryF

/-- The carries after SC_MULADD's multiplication, then the tail (R308). -/
def mulAddSteps : List ScalarStep :=
  ([0, 2, 4, 6, 8, 10, 12, 14, 16, 18, 20, 22, 1, 3, 5, 7, 9, 11, 13, 15, 17, 19, 21] : List (Fin 24)).map .carryR
    ++ reduceSteps

/-- The six fold constants, `Σ c_j·2^(21j) = −δ` (R306, R307). -/
def foldConst : Nat → Int
  | 0 => 666643
  | 1 => 470296
  | 2 => 654183
  | 3 => -997805
  | 4 => 136657
  | 5 => -683901
  | _ => 0

/-- Limb k of a 32-byte operand: 21 bits each for k = 0..10, the rest in s_11 (R306). -/
def loadLimb32 (b : List Byte) (k : Nat) : Nat :=
  if k < 11 then le b / 2 ^ (21 * k) % 2 ^ 21 else if k = 11 then le b / 2 ^ 231 else 0

/-- Limb k of a 64-byte operand: 21 bits each for k = 0..22, the rest in s_23 (R306). -/
def loadLimb64 (b : List Byte) (k : Nat) : Nat :=
  if k < 23 then le b / 2 ^ (21 * k) % 2 ^ 21 else le b / 2 ^ 483

/-! ### Exact limbs -/

/-- `Σ s_k · 2^(21k)` (R306). -/
def ScalarLimbs.value (s : ScalarLimbs) : Int := ((List.finRange 24).map fun k : Fin 24 => s[k] * 2 ^ (21 * k.val)).sum

/-- The limbs of a 32-byte operand (R306). -/
def ScalarLimbs.load32 (b : List Byte) : ScalarLimbs := Vector.ofFn fun k : Fin 24 => (loadLimb32 b k.val : Int)

/-- The limbs of a 64-byte operand (R306). -/
def ScalarLimbs.load64 (b : List Byte) : ScalarLimbs := Vector.ofFn fun k : Fin 24 => (loadLimb64 b k.val : Int)

/-- `fold(k)` for k ≥ 12: s_k is folded into s_(k−12) … s_(k−7) (R306). -/
def ScalarLimbs.fold (s : ScalarLimbs) (k : Fin 24) : ScalarLimbs :=
  Vector.ofFn fun j : Fin 24 =>
    if j = k then 0
    else if k.val ≤ j.val + 12 then s[j] + foldConst (j.val + 12 - k.val) * s[k]
    else s[j]

/-- Move the carry `c` of limb k into limb k + 1 (R306). -/
def ScalarLimbs.moveCarry (s : ScalarLimbs) (k : Fin 24) (c : Int) : ScalarLimbs :=
  Vector.ofFn fun j : Fin 24 =>
    if j = k then s[j] - c * 2 ^ 21 else if j.val = k.val + 1 then s[j] + c else s[j]

/-- The rounding carry `carry_r(k)` (R306). -/
def ScalarLimbs.carryR (s : ScalarLimbs) (k : Fin 24) : ScalarLimbs := s.moveCarry k ((s[k] + 2 ^ 20) / 2 ^ 21)

/-- The floor carry `carry_f(k)` (R306). -/
def ScalarLimbs.carryF (s : ScalarLimbs) (k : Fin 24) : ScalarLimbs := s.moveCarry k (s[k] / 2 ^ 21)

/-- One primitive on exact limbs. -/
def ScalarLimbs.step (s : ScalarLimbs) : ScalarStep → ScalarLimbs
  | .fold k => s.fold k
  | .carryR k => s.carryR k
  | .carryF k => s.carryF k

/-- `s_k = z_k + Σ_{i+j=k} x_i·y_j` for k = 0..22, s_23 = 0 (R308). -/
def ScalarLimbs.mulAdd (x y z : ScalarLimbs) : ScalarLimbs :=
  Vector.ofFn fun k : Fin 24 =>
    z[k] + ((List.finRange 12).map fun i : Fin 12 =>
      if i.val ≤ k.val ∧ k.val < i.val + 12 then x[i.val] * y[k.val - i.val] else 0).sum

/-- The limbs SC_MULADD starts its carries from (R308). -/
def ScalarLimbs.product (a b c : List Byte) : ScalarLimbs :=
  (ScalarLimbs.load32 a).mulAdd (ScalarLimbs.load32 b) (ScalarLimbs.load32 c)

/-! ### Limb registers -/

/-- The exact limbs that registers hold. -/
def ScalarRegs.limbs (s : ScalarRegs) : ScalarLimbs := s.map BitVec.toInt

/-- The registers of a 32-byte operand (R306). -/
def ScalarRegs.load32 (b : List Byte) : ScalarRegs := Vector.ofFn fun k : Fin 24 => BitVec.ofNat 64 (loadLimb32 b k.val)

/-- The registers of a 64-byte operand (R306). -/
def ScalarRegs.load64 (b : List Byte) : ScalarRegs := Vector.ofFn fun k : Fin 24 => BitVec.ofNat 64 (loadLimb64 b k.val)

/-- `fold(k)` in 64-bit arithmetic (R306). -/
def ScalarRegs.fold (s : ScalarRegs) (k : Fin 24) : ScalarRegs :=
  Vector.ofFn fun j : Fin 24 =>
    if j = k then 0
    else if k.val ≤ j.val + 12 then s[j] + BitVec.ofInt 64 (foldConst (j.val + 12 - k.val)) * s[k]
    else s[j]

/-- Move the carry `c` of register k into register k + 1 (R306). -/
def ScalarRegs.moveCarry (s : ScalarRegs) (k : Fin 24) (c : BitVec 64) : ScalarRegs :=
  Vector.ofFn fun j : Fin 24 =>
    if j = k then s[j] - c <<< 21 else if j.val = k.val + 1 then s[j] + c else s[j]

/-- `carry_r(k)` with an arithmetic shift (R306, 00_scope.md R8). -/
def ScalarRegs.carryR (s : ScalarRegs) (k : Fin 24) : ScalarRegs := s.moveCarry k ((s[k] + 2 ^ 20).sshiftRight 21)

/-- `carry_f(k)` with an arithmetic shift (R306). -/
def ScalarRegs.carryF (s : ScalarRegs) (k : Fin 24) : ScalarRegs := s.moveCarry k (s[k].sshiftRight 21)

/-- One primitive on the registers. -/
def ScalarRegs.step (s : ScalarRegs) : ScalarStep → ScalarRegs
  | .fold k => s.fold k
  | .carryR k => s.carryR k
  | .carryF k => s.carryF k

/-- `s_k = z_k + Σ_{i+j=k} x_i·y_j` in 64-bit arithmetic (R308). -/
def ScalarRegs.mulAdd (x y z : ScalarRegs) : ScalarRegs :=
  Vector.ofFn fun k : Fin 24 =>
    z[k] + ((List.finRange 12).map fun i : Fin 12 =>
      if i.val ≤ k.val ∧ k.val < i.val + 12 then x[i.val] * y[k.val - i.val] else 0).sum

/-- The registers SC_MULADD starts its carries from (R308). -/
def ScalarRegs.product (a b c : List Byte) : ScalarRegs :=
  (ScalarRegs.load32 a).mulAdd (ScalarRegs.load32 b) (ScalarRegs.load32 c)

/-- Pack registers 0 … 11 into 32 bytes (R308). -/
def ScalarRegs.pack (s : ScalarRegs) : List Byte :=
  leBytes 32 ((List.finRange 12).map fun k : Fin 12 => s[k.val].toInt * 2 ^ (21 * k.val)).sum.toNat

/-- SC_REDUCE's datapath on the registers (R308). -/
def scalarReduceLimbs (b : List Byte) : List Byte := (reduceSteps.foldl ScalarRegs.step (ScalarRegs.load64 b)).pack

/-- SC_MULADD's datapath on the registers (R308). -/
def scalarMulAddLimbs (a b c : List Byte) : List Byte :=
  (mulAddSteps.foldl ScalarRegs.step (ScalarRegs.product a b c)).pack

end Sys2Proof.Machine
end

