-- ==== Sys2Proof/Safety.lean ====
section
/-! DEFINITION. What holds in every state of a safe run, and the error a command must report, written from the spec's tables
alone. The machine does not read this file; statements do. -/

namespace Sys2Proof

open Machine

/-! ### What the spec's tables say of each command -/

/-- The tag codes each command accepts in a source field (R334); `none` where the field is no point source. -/
def Instr.acceptedTags : Instr → ErrField → Option (List (BitVec 3))
  | .ptMov _ _, .ra => some [1, 2, 3, 4]
  | .ptGet _ _ _, .ra => some [1, 2, 3, 4]
  | .ptToext _ _, .ra => some [3]
  | .ptToproj _ _, .ra => some [3, 1]
  | .ptTocached _ _, .ra => some [1]
  | .ptDbl _ _, .ra => some [1, 2]
  | .ptNeg _ _, .ra => some [1, 2]
  | .ptEnc _ _, .ra => some [1, 2]
  | .ptAdd _ _ _, .ra => some [1]
  | .ptAdd _ _ _, .rb => some [4]
  | .ptSub _ _ _, .ra => some [1]
  | .ptSub _ _ _, .rb => some [4]
  | .ptDsmul _ _ _ _, .ra => some [1]
  | _, _ => none

/-- The field register a command writes (R34). -/
def Instr.fieldDest : Instr → Option Operand
  | .feZero rd => some rd
  | .feOne rd => some rd
  | .feMov rd _ => some rd
  | .feLdc rd _ => some rd
  | .feAdd rd _ _ => some rd
  | .feSub rd _ _ => some rd
  | .feNeg rd _ => some rd
  | .feMul rd _ _ => some rd
  | .feSq rd _ => some rd
  | .feSq2 rd _ => some rd
  | .feInv rd _ => some rd
  | .fePow22523 rd _ => some rd
  | .feFrombytes rd _ => some rd
  | .ptGet rd _ _ => some rd
  | _ => none

/-- The point register a command writes (R37). -/
def Instr.pointDest : Instr → Option Operand
  | .ptIdent rd => some rd
  | .ptLdb rd => some rd
  | .ptMov rd _ => some rd
  | .ptToext rd _ => some rd
  | .ptToproj rd _ => some rd
  | .ptTocached rd _ => some rd
  | .ptDbl rd _ => some rd
  | .ptAdd rd _ _ => some rd
  | .ptSub rd _ _ => some rd
  | .ptNeg rd _ => some rd
  | .ptDec rd _ => some rd
  | .ptDsmul rd _ _ _ => some rd
  | .ptSmulb rd _ => some rd
  | _ => none

/-- The DATA bytes a command writes: offset and length (20_memory.md R71). -/
def Instr.dataDest : Instr → Option (Nat × Nat)
  | .feTobytes rd _ => some (slotOffset rd, 32)
  | .ptEnc rd _ => some (slotOffset rd, 32)
  | .scMuladd rd _ _ _ => some (slotOffset rd, 32)
  | .scReduce rd _ => some (slotOffset rd, 32)
  | .scLdl rd => some (slotOffset rd, 32)
  | .scSlide rd _ => some (slotOffset rd, 256)
  | _ => none

/-- The commands that write FLAG (R44). -/
def Instr.writesFlag : Instr → Bool
  | .feIsneg _ => true
  | .feIsnz _ => true
  | .ptDec _ _ => true
  | .scMin _ => true
  | _ => false

end Sys2Proof

namespace Sys2Proof.Machine

/-! ### Invariants -/

/-- ERRCODE and ERRFIELD are 0 while ERR = 0, and an error has a code (10_state.md R42, R46; 60_exceptions.md R331). -/
def State.statusOk (s : State) : Prop :=
  (s.err = false → s.errCode = .none ∧ s.errField = .none) ∧ (s.err = true → s.errCode ≠ .none)

/-- While a command is in flight its snapshot is the live state, DONE = 0 and ERR = 0 (10_state.md R45, R46; 40_control.md
R131, R133). -/
def State.pendingOk (s : State) : Prop :=
  ∀ c, s.pending = some c → c.snap = s.live ∧ s.done = false ∧ s.err = false

/-- What every reachable state satisfies. -/
structure State.Inv (s : State) : Prop where
  dataWf : s.data.wf
  statusOk : s.statusOk
  pendingOk : s.pendingOk

/-- Every non-EMPTY entry of P represents a point of the curve in the meaning its tag gives (10_state.md R36). -/
def State.pointsValid (s : State) : Prop := ∀ i : Fin Config.pointRegs, s.pReg[i].valid

/-! ### Errors, from the tables of 60_exceptions.md -/

/-- The entry of P an operand names; EMPTY for a number that names none. -/
def State.pointEntry (s : State) (o : Operand) : PReg := if h : o.toNat < 8 then s.src.pReg[o.toNat] else .empty

/-- An operand that reads an invalid F entry or an EMPTY P entry (R333). -/
def State.uninitAt (s : State) (o : UsedOperand) : Bool :=
  match o.cls with
  | .fs => s.src.fReg[fieldIndex o.value] == none
  | .ps => s.pointEntry o.value == .empty
  | _ => false

/-- A point source whose tag the command does not accept (R334). -/
def State.tagRefusedAt (s : State) (i : Instr) (o : UsedOperand) : Bool :=
  match Instr.acceptedTags i o.field with
  | some tags => !tags.contains (s.pointEntry o.value).tagCode
  | none => false

/-- PT_GET asks for c3 of a PROJ entry (R332, 43_point.md R235). -/
def State.missingCoord (s : State) : Instr → Bool
  | .ptGet _ ra rb => rb == 3 && (s.pointEntry ra).tagCode == 2
  | _ => false

/-- The first operand, in the order rd, ra, rb, rc, for which the test holds, as an error of that code. -/
def firstAt (code : ErrCode) (test : UsedOperand → Bool) (i : Instr) : Option CmdError :=
  (i.operands.find? test).map fun o => ⟨code, o.field⟩

/-- The one error a decoded command reports, `none` if all checks pass (R332, steps 2 to 4). -/
def firstError (i : Instr) (s : State) : Option CmdError :=
  (firstAt .badOperand (fun o => !o.legal) i).or <|
    (firstAt .uninit s.uninitAt i).or <|
      (firstAt .tag (s.tagRefusedAt i) i).or <|
        if s.missingCoord i then some ⟨.tag, .rb⟩ else none

/-- The error of a latched word: ILLEGAL_CMD first, then the command's own checks (R332). -/
def wordError (w : Word) (s : State) : Option CmdError :=
  match decode w with
  | none => some ⟨.illegalCmd, .none⟩
  | some i => firstError i s

/-! ### The outcomes a command rule can name, as record updates of the state -/

/-- A row of the opcode map: of the words with this OP, exactly those with `w & mask = match` are the command, with the
operand fields of R100; every other one is illegal (30_encoding.md R103, R104). -/
def RowDecides (pattern mask : Word) (make : Operand → Operand → Operand → Operand → Instr) : Prop :=
  ∀ w : Word, w &&& 0xFF = pattern →
    decode w = if w &&& mask = pattern then
      some (make (w.extractLsb' 8 5) (w.extractLsb' 13 5) (w.extractLsb' 18 5) (w.extractLsb' 23 5)) else none

/-- The completion changes nothing but F[rd], which becomes valid and holds `v`; BUSY = 0, DONE = 1. -/
def State.doneWithField (s : State) (rd : Operand) (v : Fe) : State :=
  { s with fReg := s.fReg.set (fieldIndex rd) (some v), pending := none, done := true }

/-- The completion changes nothing but P[rd]; BUSY = 0, DONE = 1. -/
def State.doneWithPoint (s : State) (rd : Operand) (r : PReg) : State :=
  { s with pReg := s.pReg.setIfInBounds rd.toNat r, pending := none, done := true }

/-- The completion changes nothing but FLAG; BUSY = 0, DONE = 1. -/
def State.doneWithFlag (s : State) (b : Bool) : State := { s with flag := b, pending := none, done := true }

/-- The command fails with this error and changes nothing but ERR, ERRCODE, ERRFIELD, BUSY and DONE (60_exceptions.md R330). -/
def FailsWith (s : State) (o : Host.Outcome State Fault Refusal) (code : ErrCode) (field : ErrField) : Prop :=
  o = .next { s with err := true, errCode := code, errField := field, pending := none, done := true }

/-- The command stores `bytes` at DATA offset `off` and changes nothing else: every other offset reads as before. -/
def StoresBytes (s : State) (o : Host.Outcome State Fault Refusal) (off : Nat) (bytes : List Byte) : Prop :=
  ∃ m : Memory, o = .next { s with data := m, pending := none, done := true } ∧ m.wf ∧
    (∀ k b, bytes[k]? = some b → m.read (off + k) = b) ∧
    ∀ a, a < off ∨ off + bytes.length ≤ a → m.read a = s.data.read a

/-- `F[rd] <- value(F[ra])`, else UNINIT(ra) (41_field.md R150). -/
def FieldUnaryRule (cmd : Operand → Operand → Instr) (value : Nat → Int) : Prop :=
  ∀ (s : State) (rd ra : Operand),
    (∀ a, s.src.fReg[fieldIndex ra] = some a →
      ∃ v : Fe, (v.val : Int) = value a.val % Config.p ∧ exec (cmd rd ra) s = .next (s.doneWithField rd v)) ∧
    (s.src.fReg[fieldIndex ra] = none → FailsWith s (exec (cmd rd ra) s) .uninit .ra)

/-- `F[rd] <- value(F[ra], F[rb])`, else UNINIT(ra), else UNINIT(rb) (R150). -/
def FieldBinaryRule (cmd : Operand → Operand → Operand → Instr) (value : Nat → Nat → Int) : Prop :=
  ∀ (s : State) (rd ra rb : Operand),
    (∀ a b, s.src.fReg[fieldIndex ra] = some a → s.src.fReg[fieldIndex rb] = some b →
      ∃ v : Fe, (v.val : Int) = value a.val b.val % Config.p ∧ exec (cmd rd ra rb) s = .next (s.doneWithField rd v)) ∧
    (s.src.fReg[fieldIndex ra] = none → FailsWith s (exec (cmd rd ra rb) s) .uninit .ra) ∧
    (∀ a, s.src.fReg[fieldIndex ra] = some a → s.src.fReg[fieldIndex rb] = none →
      FailsWith s (exec (cmd rd ra rb) s) .uninit .rb)

/-- `FLAG <- test(F[ra])`, else UNINIT(ra). -/
def FieldTestRule (cmd : Operand → Instr) (test : Nat → Bool) : Prop :=
  ∀ (s : State) (ra : Operand),
    (∀ a, s.src.fReg[fieldIndex ra] = some a → exec (cmd ra) s = .next (s.doneWithFlag (test a.val))) ∧
    (s.src.fReg[fieldIndex ra] = none → FailsWith s (exec (cmd ra) s) .uninit .ra)

/-- The errors of a command with one point source: UNINIT(ra) for EMPTY, TAG(ra) for a tag not accepted, with the operands
in range (`rd` at most `rdMax`). -/
def PointSourceErrors (cmd : Operand → Operand → Instr) (rdMax : Nat) (accepts : List (BitVec 3)) : Prop :=
  ∀ (s : State) (rd ra : Operand), rd.toNat ≤ rdMax → ra.toNat ≤ 7 →
    (s.pointEntry ra = .empty → FailsWith s (exec (cmd rd ra) s) .uninit .ra) ∧
    (s.pointEntry ra ≠ .empty → accepts.contains (s.pointEntry ra).tagCode = false →
      FailsWith s (exec (cmd rd ra) s) .tag .ra)

/-- `P[rd] <- value` whenever P[ra] holds the entry `src`, with both operands in range. -/
def PointUnaryResult (cmd : Operand → Operand → Instr) (src value : PReg) : Prop :=
  ∀ (s : State) (rd ra : Operand), rd.toNat ≤ 7 → ra.toNat ≤ 7 → s.pointEntry ra = src →
    exec (cmd rd ra) s = .next (s.doneWithPoint rd value)

/-- `P[rd] <- value(P[ra], P[rb])` for EXT and CACHED sources, and the errors in the order of 43_point.md R231. -/
def PointMixedRule (cmd : Operand → Operand → Operand → Instr) (value : Ext → Cached → Compl) : Prop :=
  ∀ (s : State) (rd ra rb : Operand), rd.toNat ≤ 7 → ra.toNat ≤ 7 → rb.toNat ≤ 7 →
    (∀ e k, s.pointEntry ra = .ext e → s.pointEntry rb = .cached k →
      exec (cmd rd ra rb) s = .next (s.doneWithPoint rd (.compl (value e k)))) ∧
    (s.pointEntry ra = .empty → FailsWith s (exec (cmd rd ra rb) s) .uninit .ra) ∧
    (s.pointEntry ra ≠ .empty → s.pointEntry rb = .empty → FailsWith s (exec (cmd rd ra rb) s) .uninit .rb) ∧
    (s.pointEntry ra ≠ .empty → (s.pointEntry ra).tagCode ≠ 1 → s.pointEntry rb ≠ .empty →
      FailsWith s (exec (cmd rd ra rb) s) .tag .ra) ∧
    ((s.pointEntry ra).tagCode = 1 → s.pointEntry rb ≠ .empty → (s.pointEntry rb).tagCode ≠ 4 →
      FailsWith s (exec (cmd rd ra rb) s) .tag .rb)

/-- The coordinates c0, c1, … an entry's tag gives (10_state.md R35). -/
def PReg.coords : PReg → List Fe
  | .empty => []
  | .ext e => [e.x, e.y, e.z, e.t]
  | .proj q => [q.x, q.y, q.z]
  | .compl c => [c.x, c.y, c.z, c.t]
  | .cached k => [k.yPlusX, k.yMinusX, k.z, k.t2d]

/-- The residue an F entry holds; 0 for an invalid one, which no command without an error reads. -/
def State.fieldValue (s : State) (o : Operand) : Fe := (s.src.fReg[fieldIndex o]).getD Fe.zero

/-- The values a field or point command reads: F[ra], F[rb], or the coordinates of P[ra], then of P[rb] (41_field.md,
43_point.md). -/
def State.sources (s : State) : Instr → List Fe
  | .feMov _ ra => [s.fieldValue ra]
  | .feAdd _ ra rb => [s.fieldValue ra, s.fieldValue rb]
  | .feSub _ ra rb => [s.fieldValue ra, s.fieldValue rb]
  | .feNeg _ ra => [s.fieldValue ra]
  | .feMul _ ra rb => [s.fieldValue ra, s.fieldValue rb]
  | .feSq _ ra => [s.fieldValue ra]
  | .feSq2 _ ra => [s.fieldValue ra]
  | .feInv _ ra => [s.fieldValue ra]
  | .fePow22523 _ ra => [s.fieldValue ra]
  | .ptMov _ ra => (s.pointEntry ra).coords
  | .ptToext _ ra => (s.pointEntry ra).coords
  | .ptToproj _ ra => (s.pointEntry ra).coords
  | .ptTocached _ ra => (s.pointEntry ra).coords
  | .ptDbl _ ra => (s.pointEntry ra).coords
  | .ptAdd _ ra rb => (s.pointEntry ra).coords ++ (s.pointEntry rb).coords
  | .ptSub _ ra rb => (s.pointEntry ra).coords ++ (s.pointEntry rb).coords
  | .ptNeg _ ra => (s.pointEntry ra).coords
  | .ptGet _ ra _ => (s.pointEntry ra).coords
  | _ => []

/-- The point entry whose tag selects a command's variant: P[ra] of PT_MOV, PT_TOPROJ and PT_NEG. -/
def State.tagEntry (s : State) : Instr → PReg
  | .ptMov _ ra => s.pointEntry ra
  | .ptToproj _ ra => s.pointEntry ra
  | .ptNeg _ ra => s.pointEntry ra
  | _ => .empty

/-- The values a command's destination register holds: F[rd], or the coordinates of P[rd]. -/
def State.stored (s : State) (i : Instr) : List Fe :=
  match i.fieldDest, i.pointDest with
  | some rd, _ => (s.fReg[fieldIndex rd]).toList
  | none, some rd => (s.pReg.getD rd.toNat .empty).coords
  | none, none => []

/-- The host address names the register at word `4·n`: its low two bits are ignored (20_memory.md R75). -/
def AtWord (a : BusAddr) (n : Nat) : Prop := a.toNat / 4 = n

/-- The host address lies in the DATA window (20_memory.md R70). -/
def InDataWindow (a : BusAddr) : Prop := 0x400 ≤ a.toNat ∧ a.toNat < 0x800

/-- The DATA offset of the word a window address names (R70, R72, R75). -/
def windowOffset (a : BusAddr) : Nat := 4 * (a.toNat / 4) - 0x400

end Sys2Proof.Machine
end

