-- ==== Sys2Proof/Certificates/Slice0/Obligations.lean ====
section
/-! DEFINITION. The statements for the provers. Each docstring says what its statement formalises. -/

open Sys2Proof Sys2Proof.Machine

/-- Decoding an encoded command gives it back (R100, R101, R103, R104, R110; derived). -/
def Obligations.DecodeOfEncodeIsTheCommand : Prop :=
  ∀ i : Instr, decode (encode i) = some i

/-- Each legal word has one meaning and is the encoding of it (R100, R103, R104, R110; derived). -/
def Obligations.EncodeOfDecodeIsTheWord : Prop :=
  ∀ (w : Word) (i : Instr), decode w = some i → encode i = w

/-- A word is a command iff exactly one row of the opcode map covers it (R103, R104, R105; derived). -/
def Obligations.DecodeAgreesWithOpcodeMap : Prop :=
  ∀ w : Word,
    (∀ i, decode w = some i → ∃ r ∈ opcodeMap, r.covers w = true ∧ r.mnemonic = i.mnemonic ∧
      ∀ r' ∈ opcodeMap, r'.covers w = true → r' = r) ∧
    (decode w = none → ∀ r ∈ opcodeMap, r.covers w = false)

/-- Words printed in the spec decode to the commands they stand for (R104, R112, R155, R235, R276, R301, R272;
derived). -/
def Obligations.SpecExampleWordsDecode : Prop :=
  decode 0x00000000 = some .nop ∧
  decode 0x00082314 = some (.feAdd 3 1 2) ∧
  decode 0x0004002A = some (.ptGet 0 0 1) ∧
  decode 0x0188202D = some (.ptDsmul 0 1 2 3) ∧
  decode 0x01882430 = some (.scMuladd 4 1 2 3) ∧
  decode 0x00002834 = some (.scSlide 8 1) ∧
  decode 0x0000002F = none

/-- A step of the sequencer runs the decoded latched word; an empty agenda gives it the turn (model's choice, log entry
2) (R30, R132; derived). -/
def Obligations.StepRunsTheLatchedCommand : Prop :=
  ∀ (s : State) (c : Pending) (i : Instr), s.pending = some c → decode c.word = some i →
    (s.agenda = [] → step s = exec i s) ∧
    ∀ rest, s.agenda = .sequencer :: rest → step s = exec i { s with agenda := rest }

/-- Every latched word outside the opcode map raises ILLEGAL_CMD with field 0 (R335). -/
def Obligations.IllegalWordsRaiseIllegalCmd : Prop :=
  ∀ (s : State) (c : Pending), s.pending = some c → (∀ r ∈ opcodeMap, r.covers c.word = false) →
    FailsWith s (sequencerTurn s) .illegalCmd .none

/-- Host turns and resets take effect in the agenda's order; an idle core stays as it is (R30, R80, R81, R347, R363;
derived). -/
def Obligations.AgendaTurnsInOrder : Prop :=
  ∀ (s : State) (rest : List Turn),
    (∀ a, s.agenda = .read a :: rest → step s = .next (busRead a { s with agenda := rest })) ∧
    (∀ a d, s.agenda = .write a d :: rest → step s = .next (busWrite a d { s with agenda := rest })) ∧
    (s.agenda = .hardReset :: rest → step s = .next (State.resetCore { s with agenda := rest })) ∧
    (s.pending = none → s.agenda = .sequencer :: rest → step s = .next { s with agenda := rest }) ∧
    (s.pending = none → s.agenda = [] → step s = .next s)

/-- A completion reports exactly the first error of the priority list, and commits nothing with it (R330, R332). -/
def Obligations.CommandErrorsFollowThePriority : Prop :=
  ∀ (w : Word) (s : State),
    (∀ e, wordError w s = some e → FailsWith s (runWord w s) e.code e.field) ∧
    (wordError w s = none → ∃ t, runWord w s = .next t ∧ t.err = s.err ∧ t.errCode = s.errCode ∧
      t.errField = s.errField ∧ t.pending = none ∧ t.done = true)

/-- No command changes state other than its destination, FLAG of the four tests, and STATUS (R34, R37, R44, R71, R84,
R330; derived). -/
def Obligations.CommandsWriteOnlyTheirDestinations : Prop :=
  ∀ (i : Instr) (s t : State), exec i s = .next t →
    (∀ k : Fin Config.fieldRegs, (∀ rd, i.fieldDest = some rd → fieldIndex rd ≠ k) → t.fReg[k] = s.fReg[k]) ∧
    (∀ k : Fin Config.pointRegs, (∀ rd, i.pointDest = some rd → rd.toNat ≠ k.val) → t.pReg[k] = s.pReg[k]) ∧
    (∀ a, (∀ off n, i.dataDest = some (off, n) → a < off ∨ off + n ≤ a) → t.data.read a = s.data.read a) ∧
    (i.writesFlag = false → t.flag = s.flag) ∧
    t.cmd = s.cmd ∧ t.irqEn = s.irqEn ∧ t.haz = s.haz ∧ t.agenda = s.agenda ∧ t.rdata = s.rdata ∧
    t.busy = false ∧ t.done = true ∧
    (firstError i s ≠ none → t.fReg = s.fReg ∧ t.pReg = s.pReg ∧ t.data = s.data ∧ t.flag = s.flag)

/-- NOP completes from every state and writes nothing (R135). -/
def Obligations.NopWritesNothing : Prop :=
  RowDecides 0x00 0xFFFFFFFF (fun _ _ _ _ => .nop) ∧
  (∀ s : State, exec .nop s = .next { s with pending := none, done := true }) ∧
  ∃ t, sequencerTurn (busWrite 0x004 0x5 State.reset) = .next t ∧ t.statusWord = 0x00000002 ∧ t.irq = true

/-- FE_ZERO, FE_ONE and FE_LDC load 0, 1, d, 2d or sqrtm1 (R151, R152, R154). -/
def Obligations.FieldConstantsLoad : Prop :=
  RowDecides 0x10 0xFFFFE0FF (fun rd _ _ _ => .feZero rd) ∧
  RowDecides 0x11 0xFFFFE0FF (fun rd _ _ _ => .feOne rd) ∧
  RowDecides 0x13 0xFFFC00FF (fun rd ra _ _ => .feLdc rd ra) ∧
  ∀ (s : State) (rd ra : Operand),
    (∃ v : Fe, v.val = 0 ∧ exec (.feZero rd) s = .next (s.doneWithField rd v)) ∧
    (∃ v : Fe, v.val = 1 ∧ exec (.feOne rd) s = .next (s.doneWithField rd v)) ∧
    (ra = 0 → exec (.feLdc rd ra) s = .next (s.doneWithField rd Rom.d)) ∧
    (ra = 1 → ∃ v : Fe, v.val = 2 * Rom.d.val % Config.p ∧ exec (.feLdc rd ra) s = .next (s.doneWithField rd v)) ∧
    (ra = 2 → exec (.feLdc rd ra) s = .next (s.doneWithField rd Rom.sqrtm1)) ∧
    (2 < ra.toNat → FailsWith s (exec (.feLdc rd ra) s) .badOperand .ra)

/-- FE_MOV copies F[ra], FE_NEG writes (0 − F[ra]) mod p (R153, R162). -/
def Obligations.FieldMoveAndNegate : Prop :=
  RowDecides 0x12 0xFFFC00FF (fun rd ra _ _ => .feMov rd ra) ∧
  RowDecides 0x16 0xFFFC00FF (fun rd ra _ _ => .feNeg rd ra) ∧
  FieldUnaryRule .feMov (fun a => a) ∧
  FieldUnaryRule .feNeg (fun a => 0 - (a : Int))

/-- FE_ADD and FE_SUB are exact addition and subtraction mod p (R155, R156). -/
def Obligations.FieldAddAndSubtract : Prop :=
  RowDecides 0x14 0xFF8000FF (fun rd ra rb _ => .feAdd rd ra rb) ∧
  RowDecides 0x15 0xFF8000FF (fun rd ra rb _ => .feSub rd ra rb) ∧
  FieldBinaryRule .feAdd (fun a b => (a : Int) + b) ∧
  FieldBinaryRule .feSub (fun a b => (a : Int) - b)

/-- FE_MUL, FE_SQ and FE_SQ2 are plain products mod p, with no Montgomery factor (R157, R158, R159). -/
def Obligations.FieldMultiplyAndSquare : Prop :=
  RowDecides 0x17 0xFF8000FF (fun rd ra rb _ => .feMul rd ra rb) ∧
  RowDecides 0x18 0xFFFC00FF (fun rd ra _ _ => .feSq rd ra) ∧
  RowDecides 0x19 0xFFFC00FF (fun rd ra _ _ => .feSq2 rd ra) ∧
  FieldBinaryRule .feMul (fun a b => (a : Int) * b) ∧
  FieldUnaryRule .feSq (fun a => (a : Int) * a) ∧
  FieldUnaryRule .feSq2 (fun a => 2 * (a : Int) * a)

/-- FE_INV writes F[ra]^(p−2) mod p and FE_POW22523 writes F[ra]^((p−5)/8) mod p (R160, R161, R168). -/
def Obligations.FieldPowersAreExact : Prop :=
  RowDecides 0x1A 0xFFFC00FF (fun rd ra _ _ => .feInv rd ra) ∧
  RowDecides 0x1B 0xFFFC00FF (fun rd ra _ _ => .fePow22523 rd ra) ∧
  FieldUnaryRule .feInv (fun a => (a : Int) ^ (Config.p - 2)) ∧
  FieldUnaryRule .fePow22523 (fun a => (a : Int) ^ ((Config.p - 5) / 8)) ∧
  (Config.p - 5) / 8 = 2 ^ 252 - 3 ∧
  (∀ x : Fe, x.val ≠ 0 → x.val * x.inv.val % Config.p = 1 ∧ (x.inv.mul x).toBytes = leBytes 32 1) ∧
  ∀ x : Fe, x.sq = x.mul x

/-- FE_ISNEG writes the parity and FE_ISNZ the non-zero test of F[ra] to FLAG (R164, R165). -/
def Obligations.FieldTestsWriteFlag : Prop :=
  RowDecides 0x1C 0xFFFC1FFF (fun _ ra _ _ => .feIsneg ra) ∧
  RowDecides 0x1D 0xFFFC1FFF (fun _ ra _ _ => .feIsnz ra) ∧
  FieldTestRule .feIsneg (fun a => decide (a % 2 = 1)) ∧
  FieldTestRule .feIsnz (fun a => decide (a ≠ 0))

/-- FE_FROMBYTES reads any 32 bytes, strips bit 255 and reduces mod p (R163). -/
def Obligations.FieldFromBytesReduces : Prop :=
  RowDecides 0x1F 0xFFFC00FF (fun rd ra _ _ => .feFrombytes rd ra) ∧
  ∀ (s : State) (rd ra : Operand), ∃ v : Fe,
    v.val = le (s.src.data.readBytes (32 * ra.toNat) 32) % 2 ^ 255 % Config.p ∧
    exec (.feFrombytes rd ra) s = .next (s.doneWithField rd v)

/-- FE_TOBYTES stores the canonical 32 little-endian bytes of F[ra] and nothing else (R166). -/
def Obligations.FieldToBytesIsCanonical : Prop :=
  RowDecides 0x1E 0xFFFC00FF (fun rd ra _ _ => .feTobytes rd ra) ∧
  ∀ (s : State) (rd ra : Operand),
    (∀ a, s.data.wf → s.src.fReg[fieldIndex ra] = some a →
      StoresBytes s (exec (.feTobytes rd ra) s) (32 * rd.toNat) (leBytes 32 a.val) ∧
      le (leBytes 32 a.val) = a.val ∧ a.val < 2 ^ 255) ∧
    (s.src.fReg[fieldIndex ra] = none → FailsWith s (exec (.feTobytes rd ra) s) .uninit .ra)

/-- Every field and point command, run on carried limbs, stores carried limbs of the value its rule gives, with no sum
overflowing (R192, R193, R194, R195, R199, R202, R203, R204; derived). Where PT_DSMUL and PT_SMULB carry between
point steps, the algorithm of PT_SMULB and the exponentiation chain are the model's choices (log entries 19, 11,
17). -/
def Obligations.LimbCommandsConform : Prop :=
  (∀ (i : Instr) (s : State) (es : List FieldExpr), i.program (s.tagEntry i) = some es → firstError i s = none →
    ∃ t, exec i s = .next t ∧ t.stored i = es.map (·.eval (s.sources i))) ∧
  (∀ (i : Instr) (entry : PReg) (es : List FieldExpr), i.program entry = some es → ∀ e ∈ es, e.level.isSome) ∧
  (∀ e ∈ affineExprs ++ fromAffineExprs ++ [decodeRoot, decodeMinus, decodePlus], e.level.isSome) ∧
  (∀ (e : FieldExpr) (n : Nat) (ls : List Limbs) (vs : List Fe), e.level = some n → List.Forall₂ Limbs.represents ls vs →
    (e.lazyLimbs ls).boundedBy n ∧ (e.lazyLimbs ls).mulBound ∧ (e.store ls).represents (e.eval vs) ∧ e.sumsFit ls) ∧
  (∀ b : List Byte, b.length = 32 → (Limbs.load b).represents (Fe.ofBytes b)) ∧
  (∀ (ls : List Limbs) (q : Proj), List.Forall₂ Limbs.represents ls [q.x, q.y, q.z] → limbEncode ls = q.affine.encode) ∧
  (∀ b : List Byte, b.length = 32 →
    Option.Rel (fun q a => q.1.represents a.x ∧ q.2.represents a.y) (limbDecode b) (decodePoint b)) ∧
  (∀ (ls : List Limbs) (e : Ext) (a b : List Byte), List.Forall₂ Limbs.represents ls [e.x, e.y, e.z, e.t] →
    let q := doubleScalarMult a e b
    List.Forall₂ Limbs.represents (limbDoubleScalarMult a ls b) [q.x, q.y, q.z]) ∧
  ∀ b : List Byte, let a := baseMult b
    List.Forall₂ Limbs.represents (limbBaseMult b) [a.x, a.y, Fe.one, a.x.mul a.y]

/-- PT_IDENT and PT_LDB load the identity and B; PT_MOV copies a non-EMPTY entry of any tag (R224, R225, R226). -/
def Obligations.PointLoadsAndMove : Prop :=
  RowDecides 0x20 0xFFFFE0FF (fun rd _ _ _ => .ptIdent rd) ∧
  RowDecides 0x21 0xFFFFE0FF (fun rd _ _ _ => .ptLdb rd) ∧
  RowDecides 0x22 0xFFFC00FF (fun rd ra _ _ => .ptMov rd ra) ∧
  (∀ (s : State) (rd : Operand), rd.toNat ≤ 7 →
    exec (.ptIdent rd) s = .next (s.doneWithPoint rd (.ext ⟨Fe.zero, Fe.one, Fe.one, Fe.zero⟩)) ∧
    exec (.ptLdb rd) s = .next (s.doneWithPoint rd
      (.ext ⟨Rom.base.x, Rom.base.y, Fe.one, Rom.base.x.mul Rom.base.y⟩))) ∧
  (∀ r : PReg, r ≠ .empty → PointUnaryResult .ptMov r r) ∧
  PointSourceErrors .ptMov 7 [1, 2, 3, 4]

/-- PT_TOEXT, PT_TOPROJ and PT_TOCACHED write exactly the stored coordinates of their formulas (R227, R228, R229, R334;
derived). -/
def Obligations.PointConversionsWriteTheFormulas : Prop :=
  RowDecides 0x23 0xFFFC00FF (fun rd ra _ _ => .ptToext rd ra) ∧
  RowDecides 0x24 0xFFFC00FF (fun rd ra _ _ => .ptToproj rd ra) ∧
  RowDecides 0x25 0xFFFC00FF (fun rd ra _ _ => .ptTocached rd ra) ∧
  (∀ x y z t : Fe,
    PointUnaryResult .ptToext (.compl ⟨x, y, z, t⟩) (.ext ⟨x.mul t, y.mul z, z.mul t, x.mul y⟩) ∧
    PointUnaryResult .ptToproj (.compl ⟨x, y, z, t⟩) (.proj ⟨x.mul t, y.mul z, z.mul t⟩) ∧
    PointUnaryResult .ptToproj (.ext ⟨x, y, z, t⟩) (.proj ⟨x, y, z⟩) ∧
    PointUnaryResult .ptTocached (.ext ⟨x, y, z, t⟩) (.cached ⟨y.add x, y.sub x, z, t.mul Rom.d2⟩)) ∧
  PointSourceErrors .ptToext 7 [3] ∧ PointSourceErrors .ptToproj 7 [3, 1] ∧ PointSourceErrors .ptTocached 7 [1]

/-- PT_DBL writes exactly the Completed coordinates of the doubling formula, from EXT or PROJ (R230, R334; derived). -/
def Obligations.PointDoublingWritesTheFormula : Prop :=
  RowDecides 0x26 0xFFFC00FF (fun rd ra _ _ => .ptDbl rd ra) ∧
  (∀ x y z t : Fe,
    let y3 := (y.mul y).add (x.mul x)
    let z3 := (y.mul y).sub (x.mul x)
    let value : PReg := .compl ⟨((x.add y).mul (x.add y)).sub y3, y3, z3, z.sq2.sub z3⟩
    PointUnaryResult .ptDbl (.ext ⟨x, y, z, t⟩) value ∧ PointUnaryResult .ptDbl (.proj ⟨x, y, z⟩) value) ∧
  PointSourceErrors .ptDbl 7 [1, 2]

/-- PT_ADD and PT_SUB write exactly the Completed coordinates of the mixed formulas (R231, R232, R334; derived). -/
def Obligations.PointMixedAdditionWritesTheFormula : Prop :=
  RowDecides 0x27 0xFF8000FF (fun rd ra rb _ => .ptAdd rd ra rb) ∧
  RowDecides 0x28 0xFF8000FF (fun rd ra rb _ => .ptSub rd ra rb) ∧
  PointMixedRule .ptAdd (fun e k =>
    let pp := (e.y.add e.x).mul k.yPlusX
    let mm := (e.y.sub e.x).mul k.yMinusX
    let tt := k.t2d.mul e.t
    let zz := (Fe.ofNat 2).mul (e.z.mul k.z)
    ⟨pp.sub mm, pp.add mm, zz.add tt, zz.sub tt⟩) ∧
  PointMixedRule .ptSub (fun e k =>
    let pp := (e.y.add e.x).mul k.yMinusX
    let mm := (e.y.sub e.x).mul k.yPlusX
    let tt := k.t2d.mul e.t
    let zz := (Fe.ofNat 2).mul (e.z.mul k.z)
    ⟨pp.sub mm, pp.add mm, zz.sub tt, zz.add tt⟩)

/-- PT_NEG writes (−X, Y, Z, −T) for EXT and (−X, Y, Z) for PROJ (R233, R334; derived). -/
def Obligations.PointNegationKeepsTheTag : Prop :=
  RowDecides 0x29 0xFFFC00FF (fun rd ra _ _ => .ptNeg rd ra) ∧
  (∀ x y z t : Fe,
    PointUnaryResult .ptNeg (.ext ⟨x, y, z, t⟩) (.ext ⟨Fe.zero.sub x, y, z, Fe.zero.sub t⟩) ∧
    PointUnaryResult .ptNeg (.proj ⟨x, y, z⟩) (.proj ⟨Fe.zero.sub x, y, z⟩)) ∧
  PointSourceErrors .ptNeg 7 [1, 2]

/-- PT_GET copies the stored coordinate c_rb of P[ra] to F[rd], and c3 of PROJ is TAG(rb) (R235). -/
def Obligations.PointGetReadsTheStoredCoordinate : Prop :=
  RowDecides 0x2A 0xFF8000FF (fun rd ra rb _ => .ptGet rd ra rb) ∧
  ∀ (s : State) (rd ra rb : Operand), ra.toNat ≤ 7 →
    (∀ v, (s.pointEntry ra).coords[rb.toNat]? = some v →
      exec (.ptGet rd ra rb) s = .next (s.doneWithField rd v)) ∧
    (3 < rb.toNat → FailsWith s (exec (.ptGet rd ra rb) s) .badOperand .rb) ∧
    (rb.toNat ≤ 3 → s.pointEntry ra = .empty → FailsWith s (exec (.ptGet rd ra rb) s) .uninit .ra) ∧
    (rb.toNat = 3 → (s.pointEntry ra).tagCode = 2 → FailsWith s (exec (.ptGet rd ra rb) s) .tag .rb)

/-- PT_ENC stores the compressed point: y little-endian with the parity of x in bit 255 (R234, R334; derived). -/
def Obligations.PointEncodeStoresCompressedBytes : Prop :=
  RowDecides 0x2B 0xFFFC00FF (fun rd ra _ _ => .ptEnc rd ra) ∧
  (∀ (s : State) (rd ra : Operand) (x y z t : Fe), ra.toNat ≤ 7 → s.data.wf →
    (s.pointEntry ra = .ext ⟨x, y, z, t⟩ ∨ s.pointEntry ra = .proj ⟨x, y, z⟩) →
    StoresBytes s (exec (.ptEnc rd ra) s) (32 * rd.toNat)
      (leBytes 32 ((y.mul (z.pow (Config.p - 2))).val + 2 ^ 255 * ((x.mul (z.pow (Config.p - 2))).val % 2)))) ∧
  PointSourceErrors .ptEnc 31 [1, 2]

/-- PT_DEC writes (EXT, x, y, 1, xy) with FLAG = 1, or EMPTY with FLAG = 0 and no error (R237, R337). -/
def Obligations.PointDecodeWritesPointAndFlag : Prop :=
  RowDecides 0x2C 0xFFFC00FF (fun rd ra _ _ => .ptDec rd ra) ∧
  ∀ (s : State) (rd ra : Operand), rd.toNat ≤ 7 →
    (∀ a, decodePoint (s.src.data.readBytes (32 * ra.toNat) 32) = some a →
      exec (.ptDec rd ra) s = .next { s with
        pReg := s.pReg.setIfInBounds rd.toNat (.ext ⟨a.x, a.y, Fe.one, a.x.mul a.y⟩), flag := true,
        pending := none, done := true }) ∧
    (decodePoint (s.src.data.readBytes (32 * ra.toNat) 32) = none →
      exec (.ptDec rd ra) s = .next { s with
        pReg := s.pReg.setIfInBounds rd.toNat .empty, flag := false, pending := none, done := true })

/-- PT_DSMUL writes DS(a, A, b) as PROJ for an EXT point and any two scalars (R276). -/
def Obligations.DoubleScalarCommandCompletes : Prop :=
  RowDecides 0x2D 0xF00000FF (fun rd ra rb rc => .ptDsmul rd ra rb rc) ∧
  (∀ (s : State) (rd ra rb rc : Operand) (e : Ext), rd.toNat ≤ 7 → ra.toNat ≤ 7 → s.pointEntry ra = .ext e →
    exec (.ptDsmul rd ra rb rc) s = .next (s.doneWithPoint rd (.proj (doubleScalarMult
      (s.src.data.readBytes (32 * rb.toNat) 32) e (s.src.data.readBytes (32 * rc.toNat) 32))))) ∧
  (∀ rb rc, PointSourceErrors (fun rd ra => .ptDsmul rd ra rb rc) 7 [1]) ∧
  ∀ e : Ext, doubleScalarMult (leBytes 32 0) e (leBytes 32 0) = ⟨Fe.zero, Fe.one, Fe.one⟩

/-- PT_SMULB writes the base multiple of any scalar as EXT with Z = 1 (R280; derived). -/
def Obligations.FixedBaseCommandCompletes : Prop :=
  RowDecides 0x2E 0xFFFC00FF (fun rd ra _ _ => .ptSmulb rd ra) ∧
  ∀ (s : State) (rd ra : Operand), rd.toNat ≤ 7 → ∃ a : Affine,
    a = baseMult (s.src.data.readBytes (32 * ra.toNat) 32) ∧
    exec (.ptSmulb rd ra) s = .next (s.doneWithPoint rd (.ext ⟨a.x, a.y, Fe.one, a.x.mul a.y⟩))

/-- SC_MULADD, SC_REDUCE and SC_LDL store (a·b + c) mod L, s mod L and L (R301, R302, R304). -/
def Obligations.ScalarResultsAreExactModL : Prop :=
  RowDecides 0x30 0xF00000FF (fun rd ra rb rc => .scMuladd rd ra rb rc) ∧
  RowDecides 0x31 0xFFFC00FF (fun rd ra _ _ => .scReduce rd ra) ∧
  RowDecides 0x33 0xFFFFE0FF (fun rd _ _ _ => .scLdl rd) ∧
  ∀ (s : State) (rd ra rb rc : Operand),
    (s.data.wf →
      StoresBytes s (exec (.scMuladd rd ra rb rc) s) (32 * rd.toNat)
        (leBytes 32 ((le (s.src.data.readBytes (32 * ra.toNat) 32) * le (s.src.data.readBytes (32 * rb.toNat) 32)
          + le (s.src.data.readBytes (32 * rc.toNat) 32)) % Rom.L)) ∧
      (ra.toNat ≤ 30 → StoresBytes s (exec (.scReduce rd ra) s) (32 * rd.toNat)
        (leBytes 32 (le (s.src.data.readBytes (32 * ra.toNat) 64) % Rom.L))) ∧
      StoresBytes s (exec (.scLdl rd) s) (32 * rd.toNat) (leBytes 32 Rom.L)) ∧
    (30 < ra.toNat → FailsWith s (exec (.scReduce rd ra) s) .badOperand .ra)

/-- SC_MIN writes FLAG = (le(s) < L) (R303). -/
def Obligations.ScalarMinimalityWritesFlag : Prop :=
  RowDecides 0x32 0xFFFC1FFF (fun _ ra _ _ => .scMin ra) ∧
  ∀ (s : State) (ra : Operand),
    exec (.scMin ra) s = .next (s.doneWithFlag (decide (le (s.src.data.readBytes (32 * ra.toNat) 32) < Rom.L)))

/-- SC_SLIDE stores the 256 digits of slide(s) as int8 bytes, and refuses rd > 24 (R272). -/
def Obligations.SlideCommandStoresDigits : Prop :=
  RowDecides 0x34 0xFFFC00FF (fun rd ra _ _ => .scSlide rd ra) ∧
  ∀ (s : State) (rd ra : Operand),
    (rd.toNat ≤ 24 → s.data.wf → ∃ bytes : List Byte,
      bytes.length = 256 ∧
      bytes.map BitVec.toInt = slide (s.src.data.readBytes (32 * ra.toNat) 32) ∧
      StoresBytes s (exec (.scSlide rd ra) s) (32 * rd.toNat) bytes) ∧
    (24 < rd.toNat → FailsWith s (exec (.scSlide rd ra) s) .badOperand .rd)

/-- What SC_MULADD and SC_REDUCE store always passes SC_MIN, and a reduced input is kept (R300, R305; derived). -/
def Obligations.ScalarOutputsAreMinimal : Prop :=
  ∀ (s t : State) (rd ra rb rc : Operand), s.data.wf →
    (exec (.scMuladd rd ra rb rc) s = .next t → isMinimal (le (t.data.readBytes (32 * rd.toNat) 32)) = true) ∧
    (ra.toNat ≤ 30 → exec (.scReduce rd ra) s = .next t →
      isMinimal (le (t.data.readBytes (32 * rd.toNat) 32)) = true ∧
      (le (s.src.data.readBytes (32 * ra.toNat) 64) < Rom.L →
        le (t.data.readBytes (32 * rd.toNat) 32) = le (s.src.data.readBytes (32 * ra.toNat) 64)))

/-- slide gives 256 digits, each 0 or odd and at most 15 in magnitude, that sum to the scalar below 2^255 (R271). -/
def Obligations.SlideDigitsAreBoundedAndSum : Prop :=
  (∀ s : List Byte, s.length = 32 →
    (slide s).length = 256 ∧
    (∀ r ∈ slide s, (r = 0 ∨ r % 2 = 1) ∧ -15 ≤ r ∧ r ≤ 15) ∧
    (le s < 2 ^ 255 → digitSum (slide s) = le s) ∧
    (digitSum (slide s) = le s ∨ digitSum (slide s) = le s - 2 ^ 256)) ∧
  slide (leBytes 32 (2 ^ 256 - 1)) = -1 :: List.replicate 255 0

/-- The unified addition law is complete on the curve, with neutral element (0, 1) and inverse (−x, y) (R221; derived). -/
def Obligations.AdditionLawIsClosedOnTheCurve : Prop :=
  ∀ a b : Affine, a.onCurve → b.onCurve →
    (let k := Rom.d.mul ((a.x.mul b.x).mul (a.y.mul b.y))
     Fe.one.add k ≠ Fe.zero ∧ Fe.one.sub k ≠ Fe.zero) ∧
    (a.add b).onCurve ∧ a.add b = b.add a ∧ a.add Affine.identity = a ∧ a.add a.neg = Affine.identity

/-- Doubling, mixed addition and subtraction compute the addition law on valid entries and give valid entries (R221,
R222, R230, R231, R232; derived). -/
def Obligations.PointFormulasFollowTheLaw : Prop :=
  (∀ q : Proj, q.valid → q.dbl.valid ∧ q.dbl.affine = q.affine.add q.affine) ∧
  ∀ (e : Ext) (k : Cached), e.valid → k.valid →
    (e.add k).valid ∧ (e.add k).affine = e.affine.add k.affine ∧
    (e.sub k).valid ∧ (e.sub k).affine = e.affine.add k.affine.neg

/-- Conversions keep the affine point and validity; negation negates it; the encoding depends on it alone (R222, R227,
R228, R229, R233; derived). -/
def Obligations.ConversionsKeepTheAffinePoint : Prop :=
  (∀ c : Compl, c.valid → c.toExt.valid ∧ c.toExt.affine = c.affine ∧ c.toProj.valid ∧ c.toProj.affine = c.affine) ∧
  (∀ e : Ext, e.valid → e.toProj.valid ∧ e.toProj.affine = e.affine ∧ e.toCached.valid ∧ e.toCached.affine = e.affine ∧
    e.neg.valid ∧ e.neg.affine = e.affine.neg) ∧
  (∀ q : Proj, q.valid → q.neg.valid ∧ q.neg.affine = q.affine.neg) ∧
  ∀ (s : State) (rd ra rb : Operand), ra.toNat ≤ 7 → rb.toNat ≤ 7 →
    (s.pointEntry ra).tagCode ∈ [1, 2] → (s.pointEntry rb).tagCode ∈ [1, 2] →
    (s.pointEntry ra).affine? = (s.pointEntry rb).affine? → exec (.ptEnc rd ra) s = exec (.ptEnc rd rb) s

/-- Dec(s) = (x, y) exactly when (x, y) is on the curve, y is the 255-bit field of s and x has the parity of its sign
bit (R236; derived). -/
def Obligations.DecodedPointIsTheEncodedOne : Prop :=
  ∀ (s : List Byte) (a : Affine), s.length = 32 →
    (decodePoint s = some a ↔
      a.onCurve ∧ a.y.val = le s % 2 ^ 255 ∧ a.x.val % 2 = (s.getD 31 0).toNat / 128)

/-- Every accepted encoding is written back by PT_ENC, and every encoding of a curve point decodes to it (R236, R238;
derived). -/
def Obligations.EncodingRoundTrips : Prop :=
  (∀ (s : List Byte) (a : Affine), s.length = 32 → decodePoint s = some a → a.encode = s) ∧
  (∀ a : Affine, a.onCurve → decodePoint a.encode = some a) ∧
  ∀ a b : Affine, a.onCurve → b.onCurve → a.encode = b.encode → a = b

/-- The base multiple of PT_SMULB is (le(s) mod L)·B by the addition law (R221, R279, R280; derived). -/
def Obligations.BaseMultipleFollowsTheLaw : Prop :=
  ∀ s : List Byte,
    baseMult s = Rom.base.toProj.affine.mul 256 (le s % Rom.L) ∧ (baseMult s).onCurve

/-- DS(a, A, b) is the digit-wise sum of multiples of A and B by the addition law (R273, R274, R275, R277; derived). -/
def Obligations.DoubleScalarFollowsTheLaw : Prop :=
  ∀ (e : Ext) (a b : List Byte), e.valid → a.length = 32 → b.length = 32 →
    (doubleScalarMult a e b).valid ∧
    (doubleScalarMult a e b).affine = (digitPairs a b).foldl
      (Affine.doubleScalarStep e.affine.oddMultiples Rom.base.affine.oddMultiples) Affine.identity

/-- The ROM holds d = −121665/121666, 2d, 2^((p−1)/4), B = (even x, 4/5) and the odd multiples of B (R49, R225, R274;
derived). -/
def Obligations.RomHoldsTheCurveConstants : Prop :=
  Rom.d.mul (Fe.ofNat 121666) = Fe.zero.sub (Fe.ofNat 121665) ∧
  Rom.d2 = Rom.d.add Rom.d ∧
  Rom.sqrtm1 = (Fe.ofNat 2).pow ((Config.p - 1) / 4) ∧ Rom.sqrtm1.mul Rom.sqrtm1 = Fe.zero.sub Fe.one ∧
  (Fe.ofNat 5).mul Rom.base.y = Fe.ofNat 4 ∧
  Rom.base.x.val % 2 = 0 ∧ Rom.base.z = Fe.one ∧ Rom.base.t = Rom.base.x.mul Rom.base.y ∧
  Rom.base.affine.onCurve ∧
  Rom.btab = Rom.base.affine.oddMultiples.map (fun a =>
    ⟨a.y.add a.x, a.y.sub a.x, Fe.one, ((Fe.ofNat 2).mul Rom.d).mul (a.x.mul a.y)⟩) ∧
  Rom.identity = ⟨Fe.ofNat 0, Fe.ofNat 1, Fe.ofNat 1, Fe.ofNat 0⟩

/-- Hard and soft reset leave the reset table, abandon the pending command and keep DATA (R52, R360, R361; derived).
That the agenda and the last read value stay is the model's choice (log entry 15). -/
def Obligations.ResetRestoresTheResetTable : Prop :=
  ∀ s : State,
    (let t := s.resetCore
     (∀ k : Fin Config.fieldRegs, t.fReg[k] = none) ∧ (∀ k : Fin Config.pointRegs, t.pReg[k] = .empty) ∧
     t.data = s.data ∧ t.cmd = 0 ∧ t.irqEn = false ∧ t.statusWord = 0 ∧ t.ctrlWord = 0 ∧ t.irq = false ∧
     t.pending = none ∧ t.agenda = s.agenda ∧ t.rdata = s.rdata) ∧
    (∀ (a : BusAddr) (d : Word), AtWord a 1 → d.getLsbD 1 = true → busWrite a d s = s.resetCore) ∧
    (∀ rest, s.agenda = .hardReset :: rest → step s = .next (State.resetCore { s with agenda := rest })) ∧
    ∀ m : Memory, (State.powerOn m).data = m ∧ (State.powerOn m).resetCore = State.powerOn m

/-- A CTRL write loads IRQ_EN, then START latches CMD and the snapshot, or is refused with HAZ (R41, R131). -/
def Obligations.StartLatchesTheCommandOrIsRefused : Prop :=
  (∀ (s : State) (a : BusAddr) (d : Word), AtWord a 1 → d.getLsbD 1 = false →
    (d.getLsbD 0 = true → s.busy = true ∨ s.err = true →
      busWrite a d s = { s with irqEn := d.getLsbD 2, haz := true }) ∧
    (d.getLsbD 0 = true → s.busy = false → s.err = false →
      busWrite a d s = { s with irqEn := d.getLsbD 2, done := false,
                                pending := some ⟨s.cmd, ⟨s.fReg, s.pReg, s.data⟩⟩ }) ∧
    (d.getLsbD 0 = false → busWrite a d s = { s with irqEn := d.getLsbD 2 })) ∧
  ∀ (s : State) (a : BusAddr) (d : Word), AtWord a 1 →
    (d.getLsbD 1 = true → busWrite a d s = s.resetCore ∧ s.resetCore.irqEn = false) ∧
    ∃ v : Word, busRead a s = { s with rdata := v } ∧ ∀ k, v.getLsbD k = (decide (k = 2) && s.irqEn)

/-- While BUSY = 1, CMD and DATA accesses and START are refused with HAZ, and everything else acts normally (R370). -/
def Obligations.BusyRulesRefuseAndRecord : Prop :=
  (∀ (s : State) (a : BusAddr) (d : Word), s.busy = true →
    (AtWord a 3 → busWrite a d s = { s with haz := true }) ∧
    (InDataWindow a → busWrite a d s = { s with haz := true }) ∧
    (InDataWindow a → busRead a s = { s with haz := true, rdata := 0 }) ∧
    (AtWord a 1 → d.getLsbD 0 = true → d.getLsbD 1 = false →
      busWrite a d s = { s with irqEn := d.getLsbD 2, haz := true }) ∧
    (AtWord a 0 → busRead a s = { s with rdata := 0x45443235 }) ∧
    (AtWord a 1 → busRead a s = { s with rdata := s.ctrlWord }) ∧
    (AtWord a 2 → busRead a s = { s with rdata := s.statusWord }) ∧
    (AtWord a 3 → busRead a s = { s with rdata := s.cmd }) ∧
    (a.toNat < 0x400 → ∃ v, busRead a s = { s with rdata := v }) ∧
    (AtWord a 2 → busWrite a d s = { s with
      done := s.done && !d.getLsbD 1, err := s.err && !d.getLsbD 2, haz := s.haz && !d.getLsbD 4,
      errCode := if d.getLsbD 2 then .none else s.errCode, errField := if d.getLsbD 2 then .none else s.errField }) ∧
    (AtWord a 1 → d.getLsbD 1 = true → busWrite a d s = s.resetCore)) ∧
  ∀ (s : State) (a : BusAddr) (d : Word), s.err = true → AtWord a 1 → d.getLsbD 0 = true → d.getLsbD 1 = false →
    busWrite a d s = { s with irqEn := d.getLsbD 2, haz := true }

/-- A STATUS write clears DONE, ERR with its code and field, and HAZ, each only where its bit is 1 (R42, R340;
derived). -/
def Obligations.StatusWritesClearWhatTheyName : Prop :=
  ∀ (s : State) (a : BusAddr) (d : Word), AtWord a 2 →
    busWrite a d s = { s with
      done := s.done && !d.getLsbD 1, err := s.err && !d.getLsbD 2, haz := s.haz && !d.getLsbD 4,
      errCode := if d.getLsbD 2 then .none else s.errCode, errField := if d.getLsbD 2 then .none else s.errField } ∧
    (d.getLsbD 2 = true → s.busy = false → (busWrite 0x004 0x1 (busWrite a d s)).busy = true)

/-- ID, CTRL, STATUS and CMD read as their field tables say, reserved bits and addresses as 0 (R40, R41, R42, R43, R73;
derived). -/
def Obligations.RegisterReadsShowTheFields : Prop :=
  ∀ (s : State) (a : BusAddr) (d : Word),
    (AtWord a 0 → busRead a s = { s with rdata := 0x45443235 } ∧ busWrite a d s = s) ∧
    (AtWord a 1 → busRead a s = { s with rdata := if s.irqEn then 4 else 0 }) ∧
    (AtWord a 2 → ∃ v : Word, busRead a s = { s with rdata := v } ∧
      v.getLsbD 0 = s.busy ∧ v.getLsbD 1 = s.done ∧ v.getLsbD 2 = s.err ∧ v.getLsbD 3 = s.flag ∧ v.getLsbD 4 = s.haz ∧
      v.extractLsb' 5 3 = 0 ∧ v.extractLsb' 8 4 = s.errCode.bits ∧ v.extractLsb' 12 3 = s.errField.bits ∧
      v.extractLsb' 15 17 = 0) ∧
    (AtWord a 3 → busRead a s = { s with rdata := s.cmd } ∧
      (s.busy = false → busWrite a d s = { s with cmd := d }) ∧
      (s.busy = true → busWrite a d s = { s with haz := true })) ∧
    (0x010 ≤ a.toNat → ¬ InDataWindow a → busRead a s = { s with rdata := 0 } ∧ busWrite a d s = s)

/-- The DATA window moves four DATA bytes, little-endian, at the word the address names (R72, R75). -/
def Obligations.DataWindowIsLittleEndian : Prop :=
  (∀ (s : State) (a : BusAddr), InDataWindow a → s.busy = false →
    (∃ v : Word, busRead a s = { s with rdata := v } ∧
      ∀ i < 4, v.extractLsb' (8 * i) 8 = s.data.read (windowOffset a + i)) ∧
    ∀ d : Word, s.data.wf → ∃ m : Memory, busWrite a d s = { s with data := m } ∧ m.wf ∧
      (∀ i < 4, m.read (windowOffset a + i) = d.extractLsb' (8 * i) 8) ∧
      ∀ o, o < windowOffset a ∨ windowOffset a + 4 ≤ o → m.read o = s.data.read o) ∧
  ∀ (s : State) (a b : BusAddr) (d : Word), a.toNat / 4 = b.toNat / 4 →
    busRead a s = busRead b s ∧ busWrite a d s = busWrite b d s

/-- irq rises at every completion while IRQ_EN = 1 and falls with DONE, IRQ_EN, START or reset (R48). -/
def Obligations.InterruptFollowsCompletion : Prop :=
  (∀ s : State, s.irq = (s.irqEn && s.done)) ∧
  (∀ (w : Word) (s : State), ∃ t, runWord w s = .next t ∧ t.irq = s.irqEn) ∧
  ∀ (s : State) (a : BusAddr) (d : Word),
    (AtWord a 2 → d.getLsbD 1 = true → (busWrite a d s).irq = false) ∧
    (AtWord a 1 → d.getLsbD 2 = false → (busWrite a d s).irq = false) ∧
    (AtWord a 1 → d.getLsbD 0 = true → s.busy = false → s.err = false → (busWrite a d s).irq = false) ∧
    s.resetCore.irq = false

/-- HAZ and ERR are cleared only by their STATUS bit or a reset, ERR is set only by an erroring completion, CMD is
written only by the host (R43, R46, R47, R84; derived). -/
def Obligations.StickyBitsAndCmdChangeOnlyByTheHost : Prop :=
  ∀ s t : State, step s = .next t →
    let cleared (bit : Nat) : Prop := ∃ rest, s.agenda = .hardReset :: rest ∨
      ∃ a d, s.agenda = .write a d :: rest ∧
        ((AtWord a 2 ∧ d.getLsbD bit = true) ∨ (AtWord a 1 ∧ d.getLsbD 1 = true))
    (s.haz = true → t.haz = false → cleared 4) ∧
    (s.err = true → t.err = false → cleared 2) ∧
    (s.err = false → t.err = true → ∃ c e, s.pending = some c ∧ wordError c.word s = some e ∧
      (s.agenda = [] ∨ ∃ rest, s.agenda = .sequencer :: rest)) ∧
    (t.cmd ≠ s.cmd → ∃ rest, s.agenda = .hardReset :: rest ∨
      ∃ a d, s.agenda = .write a d :: rest ∧ (AtWord a 3 ∨ (AtWord a 1 ∧ d.getLsbD 1 = true)))

/-- The state after power-on and reset meets every invariant, whatever DATA holds (R36, R52; derived). -/
def Obligations.ResetStateMeetsTheInvariants : Prop :=
  (∀ m : Memory, m.wf → (State.powerOn m).Inv ∧ (State.powerOn m).pointsValid) ∧
  State.reset.Inv ∧ State.reset.pointsValid

/-- Every step keeps DATA canonical, STATUS consistent and the snapshot equal to the live state (R45, R46, R81, R133;
derived). -/
def Obligations.StepKeepsTheInvariant : Prop :=
  ∀ s t : State, s.Inv → step s = .next t → t.Inv

/-- Every step keeps every point register a point of the curve in the meaning of its tag (R36). -/
def Obligations.StepKeepsPointsOnTheCurve : Prop :=
  ∀ s t : State, s.Inv → s.pointsValid → step s = .next t → t.pointsValid

/-- Once the host's turns are done, one more step leaves the core idle (an empty agenda is the sequencer's turn: log
entry 2) (R137, R377, R379; derived). -/
def Obligations.EveryRunReachesIdle : Prop :=
  ∀ s : State, ∃ t : State,
    Host.Core.run Sys2Proof.core (s.agenda.length + 1) s = .next t ∧ t.busy = false ∧ t.agenda = []

/-- What a command computes depends only on its word and the state at START (R133, R136; derived). -/
def Obligations.ExecuteReadsOnlyTheSnapshot : Prop :=
  ∀ (i : Instr) (s s' : State), s.src = s'.src →
    ∃ r : Result, exec i s = finish r s ∧ exec i s' = finish r s'

/-- The limb multiplier computes the field product within its accumulators and gives carried limbs (R195, R196, R197,
R198, R203; derived). -/
def Obligations.LimbMultiplierMatchesTheFieldProduct : Prop :=
  ∀ f g : Limbs, f.mulBound → g.mulBound →
    (∀ k : Fin 10, |(f.productSums g)[k]| ≤ f.productMagnitude g k ∧ |(f.productSums g)[k]| < 2 ^ 62 ∧
      (f.productMagnitude g k) ^ 100 < 2 ^ 6041) ∧
    f.mulFits g ∧ f.sq2Fits ∧
    (f.mul g).residue = f.value * g.value % Config.p ∧ (f.mul g).carried ∧
    f.sq.residue = f.value * f.value % Config.p ∧ f.sq.carried ∧
    f.sq2.residue = 2 * f.value * f.value % Config.p ∧ f.sq2.carried

/-- Lazy sums are exact and within the multiplier bound, a commit carry restores the stored bound, a load is exact
(R192, R193, R194, R195, R198, R199, R204; derived). -/
def Obligations.LazyLimbSumsAndLoadsAreExact : Prop :=
  (∀ f g : Limbs, f.carried → g.carried →
    (f.add g).value = f.value + g.value ∧ (f.sub g).value = f.value - g.value ∧ f.neg.value = -f.value ∧
    (f.add g).lazyBound ∧ (f.sub g).lazyBound ∧ f.neg.lazyBound) ∧
  (∀ f : Limbs, f.lazyBound → f.mulBound) ∧
  (∀ f g : Limbs, f.carried → g.lazyBound →
    (f.add g).value = f.value + g.value ∧ (f.sub g).value = f.value - g.value ∧
    (f.add g).mulBound ∧ (f.sub g).mulBound ∧ (f.add g).fits 32 ∧ (f.sub g).fits 32) ∧
  (∀ f : Limbs, f.mulBound → f.carryPass.residue = f.residue ∧ f.carryPass.carried ∧ f.carriesFit carryOrder) ∧
  ∀ s : List Byte, s.length = 32 →
    (Limbs.loadRaw s).value = (le s % 2 ^ 255 : Nat) ∧ (Limbs.load s).carried ∧ (Limbs.loadRaw s).carriesFit loadOrder ∧
    (Limbs.load s).residue = ((le s % 2 ^ 255 % Config.p : Nat) : Int)

/-- The canonical output of carried limbs is the 32-byte encoding of their residue, and the tests read it (R200, R201,
R203; derived). -/
def Obligations.LimbCanonicalOutputIsTheResidue : Prop :=
  ∀ h : Limbs, h.carried →
    h.toBytes = leBytes 32 h.residue.toNat ∧
    h.isNegative = decide (h.residue % 2 = 1) ∧
    h.isNonZero = decide (h.residue ≠ 0) ∧
    fitsSigned 32 (19 * h[(9 : Fin 10)] + 2 ^ 24) ∧
    ∀ n, (((List.finRange 10).take n).foldl Limbs.exactCarry h.canonicalStart).fits 32

/-- fold(k) keeps the value mod L and every carry keeps it exactly (R307). -/
def Obligations.ScalarFoldsAndCarriesAreExact : Prop :=
  foldConst 0 + foldConst 1 * 2 ^ 21 + foldConst 2 * 2 ^ 42 + foldConst 3 * 2 ^ 63 + foldConst 4 * 2 ^ 84
      + foldConst 5 * 2 ^ 105 = -((Rom.L : Int) - 2 ^ 252) ∧
  ∀ (s : ScalarLimbs) (k : Fin 24),
    (12 ≤ k.val → (s.fold k).value % Rom.L = s.value % Rom.L) ∧
    (k.val < 23 → (s.carryR k).value = s.value ∧ (s.carryF k).value = s.value)

/-- The 64-bit radix-2^21 datapath computes the value rules of SC_REDUCE and SC_MULADD on every input, and no limb
overflows (R301, R302, R306, R308; derived). The exact limbs and the registers are log entry 18; that limb 11 can
end at 2^21 is log entry 13 (DEDUCED). -/
def Obligations.ScalarDatapathMatchesTheValueRules : Prop :=
  (∀ b : List Byte, b.length = 64 →
    scalarReduceLimbs b = leBytes 32 (le b % Rom.L) ∧
    (∀ n, ((reduceSteps.take n).foldl ScalarRegs.step (ScalarRegs.load64 b)).limbs
      = (reduceSteps.take n).foldl ScalarLimbs.step (ScalarLimbs.load64 b)) ∧
    let final := reduceSteps.foldl ScalarLimbs.step (ScalarLimbs.load64 b)
    ∀ k : Fin 24, (k.val < 11 → 0 ≤ final[k] ∧ final[k] < 2 ^ 21) ∧ (k.val = 11 → 0 ≤ final[k] ∧ final[k] ≤ 2 ^ 21)) ∧
  ∀ a b c : List Byte, a.length = 32 → b.length = 32 → c.length = 32 →
    scalarMulAddLimbs a b c = leBytes 32 ((le a * le b + le c) % Rom.L) ∧
    (∀ n, ((mulAddSteps.take n).foldl ScalarRegs.step (ScalarRegs.product a b c)).limbs
      = (mulAddSteps.take n).foldl ScalarLimbs.step (ScalarLimbs.product a b c)) ∧
    let final := mulAddSteps.foldl ScalarLimbs.step (ScalarLimbs.product a b c)
    ∀ k : Fin 24, (k.val < 11 → 0 ≤ final[k] ∧ final[k] < 2 ^ 21) ∧ (k.val = 11 → 0 ≤ final[k] ∧ final[k] ≤ 2 ^ 21)
end

