-- ==== Sys2Proof/Laws/Memory.lean ====
section
/-! SUPPORT. DATA and byte strings: read after write, the frame of a write, the canonical form, and the little-endian value
of a byte string. -/

namespace Sys2Proof.Machine

/-! ### One byte -/

/-- A write leaves every other offset alone. -/
theorem Memory.read_write_other (m : Memory) (a k : Nat) (b : Byte) (h : k ≠ a) :
    (Memory.write m a b).read k = m.read k := by
  induction m with
  | nil => by_cases hb : b = Memory.unlisted a <;> simp [Memory.write, Memory.read, hb, Ne.symm h]
  | cons c rest ih =>
    obtain ⟨j, c⟩ := c
    simp only [Memory.write]
    split
    · split <;> simp [Memory.read, Ne.symm h]
    · split
      · next hj => subst hj; split <;> simp [Memory.read, Ne.symm h]
      · simp only [Memory.read, ih]

/-- An offset below every entry reads as unlisted. -/
theorem Memory.read_below (m : Memory) (a : Nat) (h : ∀ c ∈ m, a < c.1) : m.read a = Memory.unlisted a := by
  induction m with
  | nil => rfl
  | cons c rest ih =>
    have h0 : c.1 ≠ a := by have := h c (by simp); omega
    simp only [Memory.read, h0, if_false]
    exact ih fun d hd => h d (List.mem_cons_of_mem _ hd)

/-- A read after a write to the same offset gives the byte written. -/
theorem Memory.read_write_same (m : Memory) (a : Nat) (b : Byte) (h : m.Pairwise fun c d => c.1 < d.1) :
    (Memory.write m a b).read a = b := by
  induction m with
  | nil => by_cases hb : b = Memory.unlisted a <;> simp [Memory.write, Memory.read, hb]
  | cons c rest ih =>
    obtain ⟨j, c⟩ := c
    rw [List.pairwise_cons] at h
    have hrest : ∀ d ∈ rest, j < d.1 := fun d hd => h.1 d hd
    simp only [Memory.write]
    split
    · next hlt =>
      split
      · next hb =>
        rw [hb]
        refine Memory.read_below _ _ fun d hd => ?_
        rcases List.mem_cons.1 hd with rfl | hd
        · exact hlt
        · exact hlt.trans (hrest d hd)
      · simp [Memory.read]
    · split
      · next hj =>
        subst hj
        split
        · next hb => rw [hb]; exact Memory.read_below _ _ hrest
        · simp [Memory.read]
      · next hne => simp only [Memory.read, Ne.symm hne, if_false]; exact ih h.2

/-- An entry after a write is an old entry or the written one. -/
theorem Memory.mem_write (m : Memory) (a : Nat) (b : Byte) (c : Host.Cell) (h : c ∈ Memory.write m a b) :
    c ∈ m ∨ (c = (a, b) ∧ b ≠ Memory.unlisted a) := by
  induction m with
  | nil =>
    by_cases hb : b = Memory.unlisted a
    · simp [Memory.write, hb] at h
    · simp only [Memory.write, hb, if_false, List.mem_singleton] at h; exact .inr ⟨h, hb⟩
  | cons d rest ih =>
    obtain ⟨j, d⟩ := d
    simp only [Memory.write] at h
    split at h
    · split at h
      · exact .inl h
      · next hb => rcases List.mem_cons.1 h with rfl | h; exacts [.inr ⟨rfl, hb⟩, .inl h]
    · split at h
      · split at h
        · exact .inl (List.mem_cons_of_mem _ h)
        · next hb =>
          rcases List.mem_cons.1 h with rfl | h
          exacts [.inr ⟨rfl, hb⟩, .inl (List.mem_cons_of_mem _ h)]
      · rcases List.mem_cons.1 h with rfl | h
        · exact .inl (by simp)
        · exact (ih h).imp (List.mem_cons_of_mem _) id

/-- A write keeps the offsets strictly rising. -/
theorem Memory.write_sorted (m : Memory) (a : Nat) (b : Byte) (h : m.Pairwise fun c d => c.1 < d.1) :
    (Memory.write m a b).Pairwise fun c d => c.1 < d.1 := by
  induction m with
  | nil => by_cases hb : b = Memory.unlisted a <;> simp [Memory.write, hb]
  | cons d rest ih =>
    obtain ⟨j, d⟩ := d
    have h' := h
    rw [List.pairwise_cons] at h
    simp only [Memory.write]
    split
    · next hlt =>
      split
      · exact h'
      · refine List.pairwise_cons.2 ⟨fun e he => ?_, h'⟩
        rcases List.mem_cons.1 he with rfl | he
        · exact hlt
        · exact hlt.trans (h.1 e he)
    · split
      · next hj =>
        subst hj
        split
        · exact h.2
        · exact List.pairwise_cons.2 ⟨h.1, h.2⟩
      · refine List.pairwise_cons.2 ⟨fun e he => ?_, ih h.2⟩
        rcases Memory.mem_write _ _ _ _ he with he | ⟨rfl, -⟩
        · exact h.1 e he
        · show j < a; omega

/-- A write inside DATA keeps the canonical form. -/
theorem Memory.write_wf (m : Memory) (a : Nat) (b : Byte) (h : m.wf) (ha : a < Config.dataSize) :
    Memory.wf (Memory.write m a b) := by
  refine ⟨Memory.write_sorted m a b h.1, fun c hc => ?_⟩
  rcases Memory.mem_write m a b c hc with hc | ⟨rfl, hb⟩
  · exact h.2 c hc
  · exact ⟨ha, hb⟩

/-! ### Byte strings in DATA -/

/-- A byte-string write leaves the offsets outside it alone. -/
theorem Memory.read_writeBytes_other (m : Memory) (off : Nat) (bs : List Byte) (k : Nat)
    (h : k < off ∨ off + bs.length ≤ k) : (m.writeBytes off bs).read k = m.read k := by
  induction bs generalizing m off with
  | nil => rfl
  | cons b bs ih =>
    simp only [List.length_cons] at h
    rw [Memory.writeBytes, ih _ _ (by omega), Memory.read_write_other _ _ _ _ (by omega)]

theorem Memory.writeBytes_sorted (m : Memory) (off : Nat) (bs : List Byte) (h : m.Pairwise fun c d => c.1 < d.1) :
    (m.writeBytes off bs).Pairwise fun c d => c.1 < d.1 := by
  induction bs generalizing m off with
  | nil => exact h
  | cons b bs ih => exact ih _ _ (Memory.write_sorted m off b h)

/-- A byte-string write stores its bytes in order. -/
theorem Memory.read_writeBytes_inside (m : Memory) (off : Nat) (bs : List Byte) (k : Nat)
    (hm : m.Pairwise fun c d => c.1 < d.1) (h : k < bs.length) : (m.writeBytes off bs).read (off + k) = bs[k] := by
  induction bs generalizing m off k with
  | nil => simp at h
  | cons b bs ih =>
    rw [Memory.writeBytes]
    cases k with
    | zero =>
      show ((Memory.write m off b).writeBytes (off + 1) bs).read off = b
      rw [Memory.read_writeBytes_other _ _ _ _ (.inl (by omega)), Memory.read_write_same _ _ _ hm]
    | succ k =>
      have := ih (Memory.write m off b) (off + 1) k (Memory.write_sorted _ _ _ hm) (by simpa using h)
      rw [show off + (k + 1) = off + 1 + k by omega, this]
      rfl

/-- A byte-string write inside DATA keeps the canonical form. -/
theorem Memory.writeBytes_wf (m : Memory) (off : Nat) (bs : List Byte) (h : m.wf)
    (ho : off + bs.length ≤ Config.dataSize) : Memory.wf (m.writeBytes off bs) := by
  induction bs generalizing m off with
  | nil => exact h
  | cons b bs ih =>
    simp only [List.length_cons] at ho
    exact ih _ _ (Memory.write_wf m off b h (by omega)) (by omega)

@[simp] theorem Memory.readBytes_length (m : Memory) (off n : Nat) : (m.readBytes off n).length = n := by
  simp [Memory.readBytes]

theorem Memory.readBytes_getElem (m : Memory) (off n i : Nat) (h : i < (m.readBytes off n).length) :
    (m.readBytes off n)[i] = m.read (off + i) := by
  simp [Memory.readBytes]

/-- A byte string reads back as it was written. -/
theorem Memory.readBytes_writeBytes (m : Memory) (off : Nat) (bs : List Byte)
    (hm : m.Pairwise fun c d => c.1 < d.1) : (m.writeBytes off bs).readBytes off bs.length = bs := by
  refine List.ext_getElem (by simp) fun i h1 h2 => ?_
  rw [Memory.readBytes_getElem, Memory.read_writeBytes_inside _ _ _ _ hm h2]

/-! ### The little-endian value -/

@[simp] theorem leBytes_length (n v : Nat) : (leBytes n v).length = n := by
  induction n generalizing v with
  | zero => rfl
  | succ n ih => simp [leBytes, ih]

theorem le_lt (s : List Byte) : le s < 256 ^ s.length := by
  induction s with
  | nil => simp [le]
  | cons b s ih =>
    have hb := b.isLt
    simp only [le, List.length_cons, Nat.pow_succ]
    omega

theorem le_leBytes (n v : Nat) : le (leBytes n v) = v % 256 ^ n := by
  induction n generalizing v with
  | zero => simp [leBytes, le, Nat.mod_one]
  | succ n ih =>
    have : (256 : Nat) ^ (n + 1) = 256 * 256 ^ n := by rw [Nat.pow_succ, Nat.mul_comm]
    simp only [leBytes, le, ih, BitVec.toNat_ofNat, this, Nat.mod_mul]

/-- `le(le_n(v)) = v` (R9). -/
theorem le_leBytes_of_lt (n v : Nat) (h : v < 256 ^ n) : le (leBytes n v) = v := by
  rw [le_leBytes, Nat.mod_eq_of_lt h]

theorem leBytes_le (s : List Byte) : leBytes s.length (le s) = s := by
  induction s with
  | nil => rfl
  | cons b s ih =>
    have hb := b.isLt
    have h1 : (b.toNat + 256 * le s) / 256 = le s := by omega
    have h2 : BitVec.ofNat 8 (b.toNat + 256 * le s) = b := by
      apply BitVec.eq_of_toNat_eq
      simp only [BitVec.toNat_ofNat]
      omega
    simp only [List.length_cons, le, leBytes, h1, h2, ih]

end Sys2Proof.Machine
end

