-- ==== Sys2Proof/Laws/State.lean ====
section
/-! SUPPORT. One lemma per field per update of State, so that no proof unfolds a record update. -/

namespace Sys2Proof.Machine

variable (s : State)

@[simp] theorem State.applyWrite_field_fReg (i : Fin Config.fieldRegs) (v : Fe) : (s.applyWrite (.field i v)).fReg = s.fReg.set i (some v) := rfl
@[simp] theorem State.applyWrite_field_pReg (i : Fin Config.fieldRegs) (v : Fe) : (s.applyWrite (.field i v)).pReg = s.pReg := rfl
@[simp] theorem State.applyWrite_field_data (i : Fin Config.fieldRegs) (v : Fe) : (s.applyWrite (.field i v)).data = s.data := rfl
@[simp] theorem State.applyWrite_field_cmd (i : Fin Config.fieldRegs) (v : Fe) : (s.applyWrite (.field i v)).cmd = s.cmd := rfl
@[simp] theorem State.applyWrite_field_irqEn (i : Fin Config.fieldRegs) (v : Fe) : (s.applyWrite (.field i v)).irqEn = s.irqEn := rfl
@[simp] theorem State.applyWrite_field_done (i : Fin Config.fieldRegs) (v : Fe) : (s.applyWrite (.field i v)).done = s.done := rfl
@[simp] theorem State.applyWrite_field_err (i : Fin Config.fieldRegs) (v : Fe) : (s.applyWrite (.field i v)).err = s.err := rfl
@[simp] theorem State.applyWrite_field_flag (i : Fin Config.fieldRegs) (v : Fe) : (s.applyWrite (.field i v)).flag = s.flag := rfl
@[simp] theorem State.applyWrite_field_haz (i : Fin Config.fieldRegs) (v : Fe) : (s.applyWrite (.field i v)).haz = s.haz := rfl
@[simp] theorem State.applyWrite_field_errCode (i : Fin Config.fieldRegs) (v : Fe) : (s.applyWrite (.field i v)).errCode = s.errCode := rfl
@[simp] theorem State.applyWrite_field_errField (i : Fin Config.fieldRegs) (v : Fe) : (s.applyWrite (.field i v)).errField = s.errField := rfl
@[simp] theorem State.applyWrite_field_pending (i : Fin Config.fieldRegs) (v : Fe) : (s.applyWrite (.field i v)).pending = s.pending := rfl
@[simp] theorem State.applyWrite_field_agenda (i : Fin Config.fieldRegs) (v : Fe) : (s.applyWrite (.field i v)).agenda = s.agenda := rfl
@[simp] theorem State.applyWrite_field_rdata (i : Fin Config.fieldRegs) (v : Fe) : (s.applyWrite (.field i v)).rdata = s.rdata := rfl

@[simp] theorem State.applyWrite_point_fReg (i : Fin Config.pointRegs) (v : PReg) : (s.applyWrite (.point i v)).fReg = s.fReg := rfl
@[simp] theorem State.applyWrite_point_pReg (i : Fin Config.pointRegs) (v : PReg) : (s.applyWrite (.point i v)).pReg = s.pReg.set i v := rfl
@[simp] theorem State.applyWrite_point_data (i : Fin Config.pointRegs) (v : PReg) : (s.applyWrite (.point i v)).data = s.data := rfl
@[simp] theorem State.applyWrite_point_cmd (i : Fin Config.pointRegs) (v : PReg) : (s.applyWrite (.point i v)).cmd = s.cmd := rfl
@[simp] theorem State.applyWrite_point_irqEn (i : Fin Config.pointRegs) (v : PReg) : (s.applyWrite (.point i v)).irqEn = s.irqEn := rfl
@[simp] theorem State.applyWrite_point_done (i : Fin Config.pointRegs) (v : PReg) : (s.applyWrite (.point i v)).done = s.done := rfl
@[simp] theorem State.applyWrite_point_err (i : Fin Config.pointRegs) (v : PReg) : (s.applyWrite (.point i v)).err = s.err := rfl
@[simp] theorem State.applyWrite_point_flag (i : Fin Config.pointRegs) (v : PReg) : (s.applyWrite (.point i v)).flag = s.flag := rfl
@[simp] theorem State.applyWrite_point_haz (i : Fin Config.pointRegs) (v : PReg) : (s.applyWrite (.point i v)).haz = s.haz := rfl
@[simp] theorem State.applyWrite_point_errCode (i : Fin Config.pointRegs) (v : PReg) : (s.applyWrite (.point i v)).errCode = s.errCode := rfl
@[simp] theorem State.applyWrite_point_errField (i : Fin Config.pointRegs) (v : PReg) : (s.applyWrite (.point i v)).errField = s.errField := rfl
@[simp] theorem State.applyWrite_point_pending (i : Fin Config.pointRegs) (v : PReg) : (s.applyWrite (.point i v)).pending = s.pending := rfl
@[simp] theorem State.applyWrite_point_agenda (i : Fin Config.pointRegs) (v : PReg) : (s.applyWrite (.point i v)).agenda = s.agenda := rfl
@[simp] theorem State.applyWrite_point_rdata (i : Fin Config.pointRegs) (v : PReg) : (s.applyWrite (.point i v)).rdata = s.rdata := rfl

@[simp] theorem State.applyWrite_data_fReg (off : Nat) (bs : List Byte) : (s.applyWrite (.data off bs)).fReg = s.fReg := rfl
@[simp] theorem State.applyWrite_data_pReg (off : Nat) (bs : List Byte) : (s.applyWrite (.data off bs)).pReg = s.pReg := rfl
@[simp] theorem State.applyWrite_data_data (off : Nat) (bs : List Byte) : (s.applyWrite (.data off bs)).data = s.data.writeBytes off bs := rfl
@[simp] theorem State.applyWrite_data_cmd (off : Nat) (bs : List Byte) : (s.applyWrite (.data off bs)).cmd = s.cmd := rfl
@[simp] theorem State.applyWrite_data_irqEn (off : Nat) (bs : List Byte) : (s.applyWrite (.data off bs)).irqEn = s.irqEn := rfl
@[simp] theorem State.applyWrite_data_done (off : Nat) (bs : List Byte) : (s.applyWrite (.data off bs)).done = s.done := rfl
@[simp] theorem State.applyWrite_data_err (off : Nat) (bs : List Byte) : (s.applyWrite (.data off bs)).err = s.err := rfl
@[simp] theorem State.applyWrite_data_flag (off : Nat) (bs : List Byte) : (s.applyWrite (.data off bs)).flag = s.flag := rfl
@[simp] theorem State.applyWrite_data_haz (off : Nat) (bs : List Byte) : (s.applyWrite (.data off bs)).haz = s.haz := rfl
@[simp] theorem State.applyWrite_data_errCode (off : Nat) (bs : List Byte) : (s.applyWrite (.data off bs)).errCode = s.errCode := rfl
@[simp] theorem State.applyWrite_data_errField (off : Nat) (bs : List Byte) : (s.applyWrite (.data off bs)).errField = s.errField := rfl
@[simp] theorem State.applyWrite_data_pending (off : Nat) (bs : List Byte) : (s.applyWrite (.data off bs)).pending = s.pending := rfl
@[simp] theorem State.applyWrite_data_agenda (off : Nat) (bs : List Byte) : (s.applyWrite (.data off bs)).agenda = s.agenda := rfl
@[simp] theorem State.applyWrite_data_rdata (off : Nat) (bs : List Byte) : (s.applyWrite (.data off bs)).rdata = s.rdata := rfl

@[simp] theorem State.applyWrite_flag_fReg (b : Bool) : (s.applyWrite (.flag b)).fReg = s.fReg := rfl
@[simp] theorem State.applyWrite_flag_pReg (b : Bool) : (s.applyWrite (.flag b)).pReg = s.pReg := rfl
@[simp] theorem State.applyWrite_flag_data (b : Bool) : (s.applyWrite (.flag b)).data = s.data := rfl
@[simp] theorem State.applyWrite_flag_cmd (b : Bool) : (s.applyWrite (.flag b)).cmd = s.cmd := rfl
@[simp] theorem State.applyWrite_flag_irqEn (b : Bool) : (s.applyWrite (.flag b)).irqEn = s.irqEn := rfl
@[simp] theorem State.applyWrite_flag_done (b : Bool) : (s.applyWrite (.flag b)).done = s.done := rfl
@[simp] theorem State.applyWrite_flag_err (b : Bool) : (s.applyWrite (.flag b)).err = s.err := rfl
@[simp] theorem State.applyWrite_flag_flag (b : Bool) : (s.applyWrite (.flag b)).flag = b := rfl
@[simp] theorem State.applyWrite_flag_haz (b : Bool) : (s.applyWrite (.flag b)).haz = s.haz := rfl
@[simp] theorem State.applyWrite_flag_errCode (b : Bool) : (s.applyWrite (.flag b)).errCode = s.errCode := rfl
@[simp] theorem State.applyWrite_flag_errField (b : Bool) : (s.applyWrite (.flag b)).errField = s.errField := rfl
@[simp] theorem State.applyWrite_flag_pending (b : Bool) : (s.applyWrite (.flag b)).pending = s.pending := rfl
@[simp] theorem State.applyWrite_flag_agenda (b : Bool) : (s.applyWrite (.flag b)).agenda = s.agenda := rfl
@[simp] theorem State.applyWrite_flag_rdata (b : Bool) : (s.applyWrite (.flag b)).rdata = s.rdata := rfl

@[simp] theorem State.complete_fReg : (s.complete).fReg = s.fReg := rfl
@[simp] theorem State.complete_pReg : (s.complete).pReg = s.pReg := rfl
@[simp] theorem State.complete_data : (s.complete).data = s.data := rfl
@[simp] theorem State.complete_cmd : (s.complete).cmd = s.cmd := rfl
@[simp] theorem State.complete_irqEn : (s.complete).irqEn = s.irqEn := rfl
@[simp] theorem State.complete_done : (s.complete).done = true := rfl
@[simp] theorem State.complete_err : (s.complete).err = s.err := rfl
@[simp] theorem State.complete_flag : (s.complete).flag = s.flag := rfl
@[simp] theorem State.complete_haz : (s.complete).haz = s.haz := rfl
@[simp] theorem State.complete_errCode : (s.complete).errCode = s.errCode := rfl
@[simp] theorem State.complete_errField : (s.complete).errField = s.errField := rfl
@[simp] theorem State.complete_pending : (s.complete).pending = none := rfl
@[simp] theorem State.complete_agenda : (s.complete).agenda = s.agenda := rfl
@[simp] theorem State.complete_rdata : (s.complete).rdata = s.rdata := rfl

@[simp] theorem State.raiseError_fReg (e : CmdError) : (s.raiseError e).fReg = s.fReg := rfl
@[simp] theorem State.raiseError_pReg (e : CmdError) : (s.raiseError e).pReg = s.pReg := rfl
@[simp] theorem State.raiseError_data (e : CmdError) : (s.raiseError e).data = s.data := rfl
@[simp] theorem State.raiseError_cmd (e : CmdError) : (s.raiseError e).cmd = s.cmd := rfl
@[simp] theorem State.raiseError_irqEn (e : CmdError) : (s.raiseError e).irqEn = s.irqEn := rfl
@[simp] theorem State.raiseError_done (e : CmdError) : (s.raiseError e).done = true := rfl
@[simp] theorem State.raiseError_err (e : CmdError) : (s.raiseError e).err = true := rfl
@[simp] theorem State.raiseError_flag (e : CmdError) : (s.raiseError e).flag = s.flag := rfl
@[simp] theorem State.raiseError_haz (e : CmdError) : (s.raiseError e).haz = s.haz := rfl
@[simp] theorem State.raiseError_errCode (e : CmdError) : (s.raiseError e).errCode = e.code := rfl
@[simp] theorem State.raiseError_errField (e : CmdError) : (s.raiseError e).errField = e.field := rfl
@[simp] theorem State.raiseError_pending (e : CmdError) : (s.raiseError e).pending = none := rfl
@[simp] theorem State.raiseError_agenda (e : CmdError) : (s.raiseError e).agenda = s.agenda := rfl
@[simp] theorem State.raiseError_rdata (e : CmdError) : (s.raiseError e).rdata = s.rdata := rfl

@[simp] theorem State.clearError_fReg : (s.clearError).fReg = s.fReg := rfl
@[simp] theorem State.clearError_pReg : (s.clearError).pReg = s.pReg := rfl
@[simp] theorem State.clearError_data : (s.clearError).data = s.data := rfl
@[simp] theorem State.clearError_cmd : (s.clearError).cmd = s.cmd := rfl
@[simp] theorem State.clearError_irqEn : (s.clearError).irqEn = s.irqEn := rfl
@[simp] theorem State.clearError_done : (s.clearError).done = s.done := rfl
@[simp] theorem State.clearError_err : (s.clearError).err = false := rfl
@[simp] theorem State.clearError_flag : (s.clearError).flag = s.flag := rfl
@[simp] theorem State.clearError_haz : (s.clearError).haz = s.haz := rfl
@[simp] theorem State.clearError_errCode : (s.clearError).errCode = .none := rfl
@[simp] theorem State.clearError_errField : (s.clearError).errField = .none := rfl
@[simp] theorem State.clearError_pending : (s.clearError).pending = s.pending := rfl
@[simp] theorem State.clearError_agenda : (s.clearError).agenda = s.agenda := rfl
@[simp] theorem State.clearError_rdata : (s.clearError).rdata = s.rdata := rfl

@[simp] theorem State.start_fReg : (s.start).fReg = s.fReg := rfl
@[simp] theorem State.start_pReg : (s.start).pReg = s.pReg := rfl
@[simp] theorem State.start_data : (s.start).data = s.data := rfl
@[simp] theorem State.start_cmd : (s.start).cmd = s.cmd := rfl
@[simp] theorem State.start_irqEn : (s.start).irqEn = s.irqEn := rfl
@[simp] theorem State.start_done : (s.start).done = false := rfl
@[simp] theorem State.start_err : (s.start).err = s.err := rfl
@[simp] theorem State.start_flag : (s.start).flag = s.flag := rfl
@[simp] theorem State.start_haz : (s.start).haz = s.haz := rfl
@[simp] theorem State.start_errCode : (s.start).errCode = s.errCode := rfl
@[simp] theorem State.start_errField : (s.start).errField = s.errField := rfl
@[simp] theorem State.start_pending : (s.start).pending = some ⟨s.cmd, s.live⟩ := rfl
@[simp] theorem State.start_agenda : (s.start).agenda = s.agenda := rfl
@[simp] theorem State.start_rdata : (s.start).rdata = s.rdata := rfl

@[simp] theorem State.hazard_fReg : (s.hazard).fReg = s.fReg := rfl
@[simp] theorem State.hazard_pReg : (s.hazard).pReg = s.pReg := rfl
@[simp] theorem State.hazard_data : (s.hazard).data = s.data := rfl
@[simp] theorem State.hazard_cmd : (s.hazard).cmd = s.cmd := rfl
@[simp] theorem State.hazard_irqEn : (s.hazard).irqEn = s.irqEn := rfl
@[simp] theorem State.hazard_done : (s.hazard).done = s.done := rfl
@[simp] theorem State.hazard_err : (s.hazard).err = s.err := rfl
@[simp] theorem State.hazard_flag : (s.hazard).flag = s.flag := rfl
@[simp] theorem State.hazard_haz : (s.hazard).haz = true := rfl
@[simp] theorem State.hazard_errCode : (s.hazard).errCode = s.errCode := rfl
@[simp] theorem State.hazard_errField : (s.hazard).errField = s.errField := rfl
@[simp] theorem State.hazard_pending : (s.hazard).pending = s.pending := rfl
@[simp] theorem State.hazard_agenda : (s.hazard).agenda = s.agenda := rfl
@[simp] theorem State.hazard_rdata : (s.hazard).rdata = s.rdata := rfl

@[simp] theorem State.resetCore_fReg : (s.resetCore).fReg = Vector.replicate Config.fieldRegs none := rfl
@[simp] theorem State.resetCore_pReg : (s.resetCore).pReg = Vector.replicate Config.pointRegs .empty := rfl
@[simp] theorem State.resetCore_data : (s.resetCore).data = s.data := rfl
@[simp] theorem State.resetCore_cmd : (s.resetCore).cmd = 0 := rfl
@[simp] theorem State.resetCore_irqEn : (s.resetCore).irqEn = false := rfl
@[simp] theorem State.resetCore_done : (s.resetCore).done = false := rfl
@[simp] theorem State.resetCore_err : (s.resetCore).err = false := rfl
@[simp] theorem State.resetCore_flag : (s.resetCore).flag = false := rfl
@[simp] theorem State.resetCore_haz : (s.resetCore).haz = false := rfl
@[simp] theorem State.resetCore_errCode : (s.resetCore).errCode = .none := rfl
@[simp] theorem State.resetCore_errField : (s.resetCore).errField = .none := rfl
@[simp] theorem State.resetCore_pending : (s.resetCore).pending = none := rfl
@[simp] theorem State.resetCore_agenda : (s.resetCore).agenda = s.agenda := rfl
@[simp] theorem State.resetCore_rdata : (s.resetCore).rdata = s.rdata := rfl

/-! ### Views of the state -/

@[simp] theorem State.live_fReg : s.live.fReg = s.fReg := rfl
@[simp] theorem State.live_pReg : s.live.pReg = s.pReg := rfl
@[simp] theorem State.live_data : s.live.data = s.data := rfl
@[simp] theorem State.complete_busy : s.complete.busy = false := rfl
@[simp] theorem State.raiseError_busy (e : CmdError) : (s.raiseError e).busy = false := rfl
@[simp] theorem State.start_busy : s.start.busy = true := rfl
@[simp] theorem State.resetCore_busy : s.resetCore.busy = false := rfl
@[simp] theorem State.clearError_busy : s.clearError.busy = s.busy := rfl
@[simp] theorem State.hazard_busy : s.hazard.busy = s.busy := rfl
@[simp] theorem State.clearError_live : s.clearError.live = s.live := rfl
@[simp] theorem State.hazard_live : s.hazard.live = s.live := rfl
@[simp] theorem State.start_live : s.start.live = s.live := rfl

theorem State.src_of_pending (c : Pending) (h : s.pending = some c) : s.src = c.snap := by simp [State.src, h]

theorem State.src_of_idle (h : s.pending = none) : s.src = s.live := by simp [State.src, h]

@[simp] theorem State.start_src : s.start.src = s.live := rfl

/-- The state a pending command runs in reads what stood at its START. -/
theorem State.startWord_src (w : Word) : (s.startWord w).src = s.live := rfl

@[simp] theorem State.applyWrites_nil : s.applyWrites [] = s := rfl

@[simp] theorem State.applyWrites_cons (w : Write) (ws : List Write) :
    s.applyWrites (w :: ws) = (s.applyWrite w).applyWrites ws := rfl

end Sys2Proof.Machine
end

