-- ==== Sys2Proof/Laws/Bus.lean ====
section
/-! SUPPORT. What a host address names and what each kind of host transaction can do, said once. -/

namespace Sys2Proof.Machine

/-! ### Addresses (10_state.md R39, 20_memory.md R70, R75) -/

theorem busTarget_id (a : BusAddr) (h : AtWord a 0) : busTarget a = .id := by
  unfold AtWord at h
  simp [busTarget, h]

theorem busTarget_ctrl (a : BusAddr) (h : AtWord a 1) : busTarget a = .ctrl := by
  unfold AtWord at h
  simp [busTarget, h]

theorem busTarget_status (a : BusAddr) (h : AtWord a 2) : busTarget a = .status := by
  unfold AtWord at h
  simp [busTarget, h]

theorem busTarget_cmd (a : BusAddr) (h : AtWord a 3) : busTarget a = .cmd := by
  unfold AtWord at h
  simp [busTarget, h]

theorem busTarget_data (a : BusAddr) (h : InDataWindow a) : busTarget a = .data (windowOffset a) := by
  unfold InDataWindow at h
  unfold busTarget windowOffset
  simp only []
  rw [if_neg (by omega), if_neg (by omega), if_neg (by omega), if_neg (by omega), if_pos (by omega)]

theorem busTarget_reserved (a : BusAddr) (h : 0x010 ≤ a.toNat) (hw : ¬ InDataWindow a) : busTarget a = .reserved := by
  unfold InDataWindow at hw
  simp only [busTarget]
  rw [if_neg (by omega), if_neg (by omega), if_neg (by omega), if_neg (by omega), if_neg (by omega)]

/-- A DATA target comes from the window, with a word of DATA inside DATA. -/
theorem busTarget_data_inv (a : BusAddr) (off : Nat) (h : busTarget a = .data off) : InDataWindow a ∧ off + 4 ≤ Config.dataSize := by
  unfold InDataWindow
  unfold busTarget at h
  simp only [] at h
  repeat' split at h
  all_goals injection h
  simp only [Config.dataSize]
  omega

/-- Bits 1:0 of an address are ignored (R75). -/
theorem busTarget_congr (a b : BusAddr) (h : a.toNat / 4 = b.toNat / 4) : busTarget a = busTarget b := by
  simp only [busTarget, h]

/-! ### Transactions -/

/-- A read changes the read data, and HAZ where it is refused; nothing else (20_memory.md R77). -/
theorem busRead_cases (a : BusAddr) (s : State) :
    busRead a s = { s with rdata := busReadValue a s } ∨
      (s.busy = true ∧ busRead a s = { s with haz := true, rdata := busReadValue a s }) := by
  simp only [busRead, busReadEffect, State.hazard]
  split
  · cases h : s.busy <;> simp
  · simp

/-- What a write can do: nothing, a reset, a load of IRQ_EN alone, with HAZ, or with an accepted START, a STATUS write, HAZ
alone, a CMD write, or a DATA write. -/
theorem busWrite_cases (a : BusAddr) (d : Word) (s : State) :
    busWrite a d s = s ∨
      (AtWord a 1 ∧ d.getLsbD 1 = true ∧ busWrite a d s = s.resetCore) ∨
      (AtWord a 1 ∧ d.getLsbD 1 = false ∧ busWrite a d s = { s with irqEn := d.getLsbD 2 }) ∨
      (AtWord a 1 ∧ d.getLsbD 1 = false ∧ busWrite a d s = { s with irqEn := d.getLsbD 2, haz := true }) ∨
      (AtWord a 1 ∧ d.getLsbD 1 = false ∧ s.busy = false ∧ s.err = false ∧
        busWrite a d s = State.start { s with irqEn := d.getLsbD 2 }) ∨
      (AtWord a 2 ∧ busWrite a d s = writeStatus d s) ∨
      (s.busy = true ∧ busWrite a d s = s.hazard) ∨
      (AtWord a 3 ∧ s.busy = false ∧ busWrite a d s = { s with cmd := d }) ∨
      (InDataWindow a ∧ s.busy = false ∧ busWrite a d s = { s with data := s.data.writeWord (windowOffset a) d }) := by
  by_cases h0 : AtWord a 0
  · simp [busWrite, busTarget_id a h0]
  by_cases h1 : AtWord a 1
  · simp only [busWrite, busTarget_ctrl a h1, writeCtrl, State.hazard, State.busy, h1, true_and]
    cases h : d.getLsbD 1 <;> cases d.getLsbD 0 <;> cases hp : s.pending <;> cases he : s.err <;> simp
  by_cases h2 : AtWord a 2
  · simp [busWrite, busTarget_status a h2, h2]
  by_cases h3 : AtWord a 3
  · simp only [busWrite, busTarget_cmd a h3, writeCmd, h3, true_and]
    cases s.busy <;> simp
  by_cases hw : InDataWindow a
  · simp only [busWrite, busTarget_data a hw, writeData, hw, true_and]
    cases s.busy <;> simp
  · have hr : 0x010 ≤ a.toNat := by
      unfold AtWord at h0 h1 h2 h3
      omega
    simp [busWrite, busTarget_reserved a hr hw]

/-- A STATUS write, field by field (10_state.md R42). -/
theorem writeStatus_eq (d : Word) (s : State) :
    writeStatus d s = { s with
      done := s.done && !d.getLsbD 1, err := s.err && !d.getLsbD 2, haz := s.haz && !d.getLsbD 4,
      errCode := if d.getLsbD 2 then .none else s.errCode, errField := if d.getLsbD 2 then .none else s.errField } := by
  simp only [writeStatus]
  cases d.getLsbD 2 <;> simp [State.clearError]

/-- A DATA write of the bus keeps the canonical form. -/
theorem Memory.writeWord_wf (m : Memory) (off : Nat) (d : Word) (h : m.wf) (ho : off + 4 ≤ Config.dataSize) :
    (m.writeWord off d).wf :=
  Memory.writeBytes_wf m off _ h (by simpa using ho)

theorem Memory.nil_wf : Memory.wf [] := ⟨List.Pairwise.nil, fun _ h => nomatch h⟩

end Sys2Proof.Machine
end

