-- ==== Sys2Proof/Laws/Prime.lean ====
section
/-! SUPPORT. 2^255 − 19 is prime, by a chain of Lucas certificates. -/

namespace Sys2Proof.Laws

/-- `x^n mod m` by square-and-multiply, for numbers the kernel can run. -/
def powMod (m : Nat) : Nat → Nat → Nat → Nat
  | 0, _, _ => 1 % m
  | k + 1, x, n =>
    match n % 2 with
    | 0 => powMod m k (x * x % m) (n / 2)
    | _ => x * powMod m k (x * x % m) (n / 2) % m

theorem powMod_eq (m k x n : Nat) (h : n < 2 ^ k) : powMod m k x n = x ^ n % m := by
  induction k generalizing x n with
  | zero => simp [powMod, show n = 0 by simpa using h]
  | succ k ih =>
    have hn : n / 2 < 2 ^ k := by rw [Nat.pow_succ] at h; omega
    have hsq : (x * x % m) ^ (n / 2) % m = x ^ (2 * (n / 2)) % m := by
      rw [← Nat.pow_mod, pow_mul, pow_two]
    rw [powMod]
    split
    · next h0 => rw [ih _ _ hn, hsq, show 2 * (n / 2) = n by omega]
    · next h1 =>
      rw [ih _ _ hn, hsq, Nat.mul_mod_mod, ← pow_succ', show 2 * (n / 2) + 1 = n by have : n % 2 ≠ 0 := h1; omega]

/-- Lucas's test with the prime factors of p − 1 listed. -/
theorem prime_of_factors (p a : Nat) (fs : List Nat) (hp : 1 < p) (hlt : p < 2 ^ 256) (hprod : fs.prod = p - 1)
    (hfs : ∀ q ∈ fs, q.Prime) (h1 : powMod p 256 a (p - 1) = 1)
    (hne : ∀ q ∈ fs, powMod p 256 a ((p - 1) / q) ≠ 1) : p.Prime := by
  have hone : 1 % p = 1 := Nat.mod_eq_of_lt hp
  have hcast : ∀ n, n < 2 ^ 256 → (((a : ZMod p)) ^ n = 1 ↔ powMod p 256 a n = 1) := fun n hn => by
    rw [powMod_eq _ _ _ _ hn]
    have := ZMod.natCast_eq_natCast_iff' (a ^ n) 1 p
    rw [hone] at this
    simpa using this
  refine lucas_primality p a ((hcast _ (by omega)).2 h1) fun q hq hdvd hpow => ?_
  rw [← hprod] at hdvd
  obtain ⟨f, hf, hqf⟩ := (Nat.Prime.prime hq).dvd_prod_iff.1 hdvd
  have : q = f := (Nat.prime_dvd_prime_iff_eq hq (hfs f hf)).1 hqf
  subst this
  have hlt' : (p - 1) / q < 2 ^ 256 := lt_of_le_of_lt (Nat.div_le_self _ _) (by omega)
  exact hne q hf ((hcast _ hlt').1 hpow)

theorem prime_31757755568855353 : Nat.Prime 31757755568855353 :=
  prime_of_factors _ 10 [2, 2, 2, 3, 31, 107, 223, 4153, 430751] (by norm_num) (by norm_num) (by norm_num)
    (by simp only [List.forall_mem_cons]; norm_num) (by decide +kernel) (by decide +kernel)

theorem prime_2773320623 : Nat.Prime 2773320623 :=
  prime_of_factors _ 5 [2, 2437, 569003] (by norm_num) (by norm_num) (by norm_num)
    (by simp only [List.forall_mem_cons]; norm_num) (by decide +kernel) (by decide +kernel)

theorem prime_72106336199 : Nat.Prime 72106336199 :=
  prime_of_factors _ 7 [2, 13, 2773320623] (by norm_num) (by norm_num) (by norm_num)
    (by simp only [List.forall_mem_cons]; exact ⟨by norm_num, by norm_num, prime_2773320623, by simp⟩)
    (by decide +kernel) (by decide +kernel)

theorem prime_1919519569386763 : Nat.Prime 1919519569386763 :=
  prime_of_factors _ 2 [2, 3, 7, 19, 47, 47, 127, 8574133] (by norm_num) (by norm_num) (by norm_num)
    (by simp only [List.forall_mem_cons]; norm_num) (by decide +kernel) (by decide +kernel)

theorem prime_75445702479781427272750846543864801 : Nat.Prime 75445702479781427272750846543864801 :=
  prime_of_factors _ 7 [2, 2, 2, 2, 2, 3, 3, 5, 5, 75707, 72106336199, 1919519569386763] (by norm_num) (by norm_num)
    (by norm_num) (by
      simp only [List.forall_mem_cons]
      exact ⟨by norm_num, by norm_num, by norm_num, by norm_num, by norm_num, by norm_num, by norm_num, by norm_num,
        by norm_num, by norm_num, prime_72106336199, prime_1919519569386763, by simp⟩)
    (by decide +kernel) (by decide +kernel)

theorem prime_cofactor :
    Nat.Prime 74058212732561358302231226437062788676166966415465897661863160754340907 :=
  prime_of_factors _ 2
    [2, 3, 353, 57467, 132049, 1923133, 31757755568855353, 75445702479781427272750846543864801] (by norm_num)
    (by norm_num) (by norm_num) (by
      simp only [List.forall_mem_cons]
      exact ⟨by norm_num, by norm_num, by norm_num, by norm_num, by norm_num, by norm_num, prime_31757755568855353,
        prime_75445702479781427272750846543864801, by simp⟩)
    (by decide +kernel) (by decide +kernel)

/-- The field prime is prime. -/
theorem prime_p : Config.p.Prime :=
  prime_of_factors _ 2
    [2, 2, 3, 65147, 74058212732561358302231226437062788676166966415465897661863160754340907]
    (by norm_num [Config.p]) (by norm_num [Config.p]) (by norm_num [Config.p]) (by
      simp only [List.forall_mem_cons]
      exact ⟨by norm_num, by norm_num, by norm_num, by norm_num, prime_cofactor, by simp⟩)
    (by decide +kernel) (by decide +kernel)

end Sys2Proof.Laws
end

