-- ==== Sys2Proof/Laws/Field.lean ====
section
/-! SUPPORT. Residues as elements of `ZMod p`: every operation of FieldArith is the field operation of that name, so that
claims about formulas become goals for `ring` and `field_simp`. -/

namespace Sys2Proof

open Laws

/-- A residue as an element of the field. -/
def Fe.toZ (a : Fe) : ZMod Config.p := (a.val : ZMod Config.p)

theorem Fe.toZ_ofNat (n : Nat) : (Fe.ofNat n).toZ = (n : ZMod Config.p) := ZMod.natCast_mod n Config.p

theorem Fe.ext_val {a b : Fe} (h : a.val = b.val) : a = b := by
  cases a; cases b; cases h; rfl

theorem Fe.toZ_injective {a b : Fe} (h : a.toZ = b.toZ) : a = b := by
  refine Fe.ext_val ?_
  have := (ZMod.natCast_eq_natCast_iff' _ _ _).1 h
  rwa [Nat.mod_eq_of_lt a.isLt, Nat.mod_eq_of_lt b.isLt] at this

theorem Fe.toZ_inj {a b : Fe} : a.toZ = b.toZ ↔ a = b := ⟨Fe.toZ_injective, fun h => h ▸ rfl⟩

theorem Fe.toZ_val (a : Fe) : a.toZ.val = a.val := ZMod.val_cast_of_lt a.isLt

theorem Fe.ofNat_val (n : Nat) : (Fe.ofNat n).val = n % Config.p := rfl

theorem Fe.ofNat_of_lt (n : Nat) (h : n < Config.p) : (Fe.ofNat n).val = n := Nat.mod_eq_of_lt h

theorem Fe.zero_val : Fe.zero.val = 0 := by decide +kernel

theorem Fe.one_val : Fe.one.val = 1 := by decide +kernel

/-! ### Values (41_field.md) -/

theorem Fe.add_val (a b : Fe) : (a.add b).val = (a.val + b.val) % Config.p := rfl

theorem Fe.mul_val (a b : Fe) : (a.mul b).val = a.val * b.val % Config.p := rfl

theorem Fe.sq_val (a : Fe) : a.sq.val = a.val * a.val % Config.p := rfl

theorem Fe.sq2_val (a : Fe) : a.sq2.val = 2 * a.val * a.val % Config.p := rfl

theorem Fe.sub_val (a b : Fe) : ((a.sub b).val : Int) = ((a.val : Int) - b.val) % Config.p := by
  have hb := b.isLt
  have : ((a.val + (Config.p - b.val) : Nat) : Int) = (a.val : Int) - b.val + Config.p := by omega
  rw [Fe.sub, Fe.ofNat_val, Int.natCast_mod, this, Int.add_emod_right]

theorem Fe.neg_val (a : Fe) : (a.neg.val : Int) = (0 - (a.val : Int)) % Config.p := by
  have ha := a.isLt
  have : ((Config.p - a.val : Nat) : Int) = 0 - (a.val : Int) + Config.p := by omega
  rw [Fe.neg, Fe.ofNat_val, Int.natCast_mod, this, Int.add_emod_right]

/-! ### The field operations -/

@[simp] theorem Fe.toZ_zero : Fe.zero.toZ = 0 := by rw [Fe.zero, Fe.toZ_ofNat]; simp

@[simp] theorem Fe.toZ_one : Fe.one.toZ = 1 := by rw [Fe.one, Fe.toZ_ofNat]; simp

@[simp] theorem Fe.toZ_add (a b : Fe) : (a.add b).toZ = a.toZ + b.toZ := by
  rw [Fe.add, Fe.toZ_ofNat]; push_cast; rfl

@[simp] theorem Fe.toZ_mul (a b : Fe) : (a.mul b).toZ = a.toZ * b.toZ := by
  rw [Fe.mul, Fe.toZ_ofNat]; push_cast; rfl

@[simp] theorem Fe.toZ_sq (a : Fe) : a.sq.toZ = a.toZ * a.toZ := Fe.toZ_mul a a

@[simp] theorem Fe.toZ_sq2 (a : Fe) : a.sq2.toZ = 2 * a.toZ * a.toZ := by
  rw [Fe.sq2, Fe.toZ_ofNat]; push_cast; rfl

@[simp] theorem Fe.toZ_sub (a b : Fe) : (a.sub b).toZ = a.toZ - b.toZ := by
  rw [Fe.sub, Fe.toZ_ofNat, Nat.cast_add, Nat.cast_sub b.isLt.le]
  simp only [ZMod.natCast_self, Fe.toZ]
  ring

@[simp] theorem Fe.toZ_neg (a : Fe) : a.neg.toZ = -a.toZ := by
  rw [Fe.neg, Fe.toZ_ofNat, Nat.cast_sub a.isLt.le]
  simp only [ZMod.natCast_self, Fe.toZ]
  ring

theorem Fe.toZ_powBits (k : Nat) (x : Fe) (n : Nat) (h : n < 2 ^ k) : (Fe.powBits k x n).toZ = x.toZ ^ n := by
  induction k generalizing x n with
  | zero => simp [Fe.powBits, show n = 0 by simpa using h]
  | succ k ih =>
    have hn : n / 2 < 2 ^ k := by rw [Nat.pow_succ] at h; omega
    have hsq : (Fe.powBits k x.sq (n / 2)).toZ = x.toZ ^ (2 * (n / 2)) := by
      rw [ih _ _ hn, Fe.toZ_sq, ← pow_two, ← pow_mul]
    rw [Fe.powBits]
    split
    · next h0 => rw [hsq, show 2 * (n / 2) = n by omega]
    · next h1 =>
      rw [Fe.toZ_mul, hsq, ← pow_succ', show 2 * (n / 2) + 1 = n by have : n % 2 ≠ 0 := h1; omega]

theorem Fe.toZ_pow (x : Fe) (n : Nat) (h : n < 2 ^ 256) : (x.pow n).toZ = x.toZ ^ n := Fe.toZ_powBits 256 x n h

/-- `(x^n).val = x^n mod p` (R160, R161). -/
theorem Fe.pow_val (x : Fe) (n : Nat) (h : n < 2 ^ 256) : (x.pow n).val = x.val ^ n % Config.p := by
  have : (x.pow n).toZ = (Fe.ofNat (x.val ^ n)).toZ := by
    rw [Fe.toZ_pow x n h, Fe.toZ_ofNat]; push_cast; rfl
  rw [Fe.toZ_injective this]; rfl

theorem Fe.toZ_pow22523 (x : Fe) : x.pow22523.toZ = x.toZ ^ ((Config.p - 5) / 8) := Fe.toZ_pow _ _ (by decide)

theorem Fe.toZ_eq_zero (a : Fe) : a.toZ = 0 ↔ a = Fe.zero := by rw [← Fe.toZ_zero, Fe.toZ_inj]

/-- The Fermat inverse is the field's inverse, 0 for 0 (R160, R168). -/
@[simp] theorem Fe.toZ_inv (x : Fe) : x.inv.toZ = x.toZ⁻¹ := by
  have : Fact Config.p.Prime := ⟨prime_p⟩
  rw [Fe.inv, Fe.toZ_pow _ _ (by decide)]
  by_cases h : x.toZ = 0
  · rw [h, inv_zero, zero_pow (by decide)]
  · refine eq_inv_of_mul_eq_one_left ?_
    rw [← pow_succ, show Config.p - 2 + 1 = Config.p - 1 by decide]
    exact ZMod.pow_card_sub_one_eq_one h

@[simp] theorem Fe.toZ_div (a b : Fe) : (a.div b).toZ = a.toZ * b.toZ⁻¹ := by
  rw [Fe.div, Fe.toZ_mul, Fe.toZ_inv]

/-! ### Constants (10_state.md R49) -/

theorem Rom.toZ_d2 : Machine.Rom.d2.toZ = 2 * Machine.Rom.d.toZ := by
  have : Machine.Rom.d2 = Machine.Rom.d.add Machine.Rom.d := by decide +kernel
  rw [this, Fe.toZ_add]; ring

/-- sqrtm1 is a square root of −1. -/
theorem Rom.toZ_sqrtm1_sq : Machine.Rom.sqrtm1.toZ * Machine.Rom.sqrtm1.toZ = -1 := by
  have : Machine.Rom.sqrtm1.mul Machine.Rom.sqrtm1 = Fe.one.neg := by decide +kernel
  rw [← Fe.toZ_mul, this]; simp

/-- d is no square (43_point.md R221). -/
theorem Rom.d_not_square : ¬ IsSquare Machine.Rom.d.toZ := by
  have : Fact Config.p.Prime := ⟨prime_p⟩
  have hd : Machine.Rom.d.pow (Config.p / 2) = Fe.one.neg := by decide +kernel
  have h0 : Machine.Rom.d.toZ ≠ 0 := by rw [Ne, Fe.toZ_eq_zero]; decide +kernel
  have hne : (-1 : ZMod Config.p) ≠ 1 := by
    have : Fact (2 < Config.p) := ⟨by decide⟩
    exact ZMod.neg_one_ne_one
  rw [ZMod.euler_criterion Config.p h0, ← Fe.toZ_pow _ _ (by decide), hd]
  simpa using hne

end Sys2Proof
end

