-- ==== Sys2Proof/Laws/Edwards.lean ====
section
/-! SUPPORT. Completeness of the unified addition law (43_point.md R221): the denominators 1 ± d·x1x2y1y2 vanish nowhere on
the curve, because −1 is a square and d is not. -/

namespace Sys2Proof.Laws

/-- Completeness for x² + y² = 1 + d·x²y² with d no square. -/
theorem edwards_complete {K : Type} [Field K] {d x1 y1 x2 y2 e : K} (h2 : (2 : K) ≠ 0) (hd : ¬ IsSquare d)
    (hc1 : x1 ^ 2 + y1 ^ 2 = 1 + d * x1 ^ 2 * y1 ^ 2) (hc2 : x2 ^ 2 + y2 ^ 2 = 1 + d * x2 ^ 2 * y2 ^ 2)
    (he : d * x1 * x2 * y1 * y2 = e) (he2 : e ^ 2 = 1) : False := by
  have he0 : e ≠ 0 := by rintro rfl; simp at he2
  have hx1 : x1 ≠ 0 := by rintro rfl; exact he0 (by rw [← he]; ring)
  have hy1 : y1 ≠ 0 := by rintro rfl; exact he0 (by rw [← he]; ring)
  have hx2 : x2 ≠ 0 := by rintro rfl; exact he0 (by rw [← he]; ring)
  have plus : (x1 + e * y1) ^ 2 = d * (x1 * y1 * (x2 + y2)) ^ 2 := by
    linear_combination hc1 + y1 ^ 2 * he2 - d * x1 ^ 2 * y1 ^ 2 * hc2 - (d * x1 * x2 * y1 * y2 + e + 2 * x1 * y1) * he - he2
  have minus : (x1 - e * y1) ^ 2 = d * (x1 * y1 * (x2 - y2)) ^ 2 := by
    linear_combination hc1 + y1 ^ 2 * he2 - d * x1 ^ 2 * y1 ^ 2 * hc2 - (d * x1 * x2 * y1 * y2 + e - 2 * x1 * y1) * he - he2
  have square_of : ∀ a b : K, b ≠ 0 → a ^ 2 = d * b ^ 2 → False := fun a b hb h => by
    refine hd ⟨a / b, ?_⟩
    field_simp
    linear_combination -h
  by_cases hp : x2 + y2 = 0
  · by_cases hm : x2 - y2 = 0
    · exact hx2 (by
        have : 2 * x2 = 0 := by linear_combination hp + hm
        exact (mul_eq_zero.1 this).resolve_left h2)
    · exact square_of _ _ (mul_ne_zero (mul_ne_zero hx1 hy1) hm) minus
  · exact square_of _ _ (mul_ne_zero (mul_ne_zero hx1 hy1) hp) plus

/-- Completeness for the twisted curve −x² + y² = 1 + d·x²y² with i² = −1. -/
theorem twisted_complete {K : Type} [Field K] {d i x1 y1 x2 y2 e : K} (h2 : (2 : K) ≠ 0) (hi : i * i = -1)
    (hd : ¬ IsSquare d) (hc1 : y1 ^ 2 - x1 ^ 2 = 1 + d * x1 ^ 2 * y1 ^ 2)
    (hc2 : y2 ^ 2 - x2 ^ 2 = 1 + d * x2 ^ 2 * y2 ^ 2) (he : d * x1 * x2 * y1 * y2 = e) (he2 : e ^ 2 = 1) : False := by
  have hd' : ¬ IsSquare (-d) := fun ⟨r, hr⟩ => hd ⟨i * r, by linear_combination -r * r * hi - hr⟩
  refine edwards_complete (x1 := i * x1) (x2 := i * x2) (y1 := y1) (y2 := y2) (e := e) h2 hd' ?_ ?_ ?_ he2
  · linear_combination hc1 + (x1 ^ 2 + d * x1 ^ 2 * y1 ^ 2) * hi
  · linear_combination hc2 + (x2 ^ 2 + d * x2 ^ 2 * y2 ^ 2) * hi
  · linear_combination he - d * x1 * x2 * y1 * y2 * hi

open Machine

theorem two_ne_zero_p : (2 : ZMod Config.p) ≠ 0 := by
  have h : (Fe.ofNat 2).toZ = 2 := by rw [Fe.toZ_ofNat]; rfl
  rw [← h, Ne, Fe.toZ_eq_zero]; decide +kernel

/-- The curve equation in the field. -/
theorem onCurve_iff (a : Affine) :
    a.onCurve ↔ a.y.toZ ^ 2 - a.x.toZ ^ 2 = 1 + Rom.d.toZ * a.x.toZ ^ 2 * a.y.toZ ^ 2 := by
  rw [Affine.onCurve, ← Fe.toZ_inj]
  simp only [Fe.toZ_sub, Fe.toZ_add, Fe.toZ_mul, Fe.toZ_one]
  constructor <;> intro h <;> linear_combination h

/-- The denominators of the addition law are non-zero on the curve (R221). -/
theorem denominators_ne_zero (a b : Affine) (ha : a.onCurve) (hb : b.onCurve) :
    1 + Rom.d.toZ * a.x.toZ * b.x.toZ * a.y.toZ * b.y.toZ ≠ 0 ∧
      1 - Rom.d.toZ * a.x.toZ * b.x.toZ * a.y.toZ * b.y.toZ ≠ 0 := by
  have : Fact Config.p.Prime := ⟨prime_p⟩
  rw [onCurve_iff] at ha hb
  have key := fun e => twisted_complete (e := e) two_ne_zero_p Rom.toZ_sqrtm1_sq Rom.d_not_square ha hb
  refine ⟨fun h => key (-1) (by linear_combination h) (by ring), fun h => key 1 (by linear_combination -h) (by ring)⟩

end Sys2Proof.Laws
end

