-- ==== Sys2Proof/Laws/Limbs.lean ====
section
/-! SUPPORT. The small lemmas of the datapaths: what each step leaves in each limb, and the three limb bounds as one. -/

namespace Sys2Proof.Machine

/-! ### The field limbs (42_field_datapath.md) -/

@[simp] theorem Limbs.add_getElem (f g : Limbs) (i : Nat) (h : i < 10) : (f.add g)[i] = f[i] + g[i] := by
  simp [Limbs.add]

@[simp] theorem Limbs.sub_getElem (f g : Limbs) (i : Nat) (h : i < 10) : (f.sub g)[i] = f[i] - g[i] := by
  simp [Limbs.sub]

@[simp] theorem Limbs.neg_getElem (f : Limbs) (i : Nat) (h : i < 10) : f.neg[i] = -f[i] := by
  simp [Limbs.neg]

@[simp] theorem Limbs.doubledSums_getElem (f : Limbs) (i : Nat) (h : i < 10) :
    f.doubledSums[i] = 2 * (f.productSums f)[i] := by
  simp [Limbs.doubledSums]

/-- The limb a rounding carry is taken from keeps its remainder (R198). -/
theorem Limbs.roundCarry_same (h : Limbs) (i : Fin 10) :
    (h.roundCarry i)[i] = h[i] - (h[i] + 2 ^ (limbWidth i - 1)) / 2 ^ limbWidth i * 2 ^ limbWidth i := by
  simp [Limbs.roundCarry]

/-- A rounding carry leaves every limb but i and its neighbour alone (R198). -/
theorem Limbs.roundCarry_other (h : Limbs) (i j : Fin 10) (h1 : j ≠ i) (h2 : j ≠ i + 1) : (h.roundCarry i)[j] = h[j] := by
  have e : j.val < 10 := j.isLt
  simp only [Limbs.roundCarry, Fin.getElem_fin, Vector.getElem_ofFn]
  rw [if_neg h1, if_neg h2]

/-- The stored-limb bound is one unit (R192). -/
theorem Limbs.carried_iff (h : Limbs) : h.carried ↔ h.boundedBy 1 := by
  simp [Limbs.carried, Limbs.boundedBy]

/-- A limb width is 25 or 26, so at least 1. -/
theorem two_pow_limbWidth (i : Nat) : (2 : Int) ^ limbWidth i = 2 * 2 ^ (limbWidth i - 1) := by
  rw [← pow_succ']
  congr 1
  unfold limbWidth
  split <;> rfl

/-- The lazy bound is two units (R194). -/
theorem Limbs.lazyBound_iff (h : Limbs) : h.lazyBound ↔ h.boundedBy 2 := by
  unfold Limbs.lazyBound Limbs.boundedBy
  refine forall_congr' fun i => ?_
  rw [two_pow_limbWidth]
  push_cast
  constructor <;> intro hi <;> linarith

/-- The multiplier's input bound is three units (R195, R204). -/
theorem Limbs.mulBound_iff (h : Limbs) : h.mulBound ↔ h.boundedBy 3 := by
  unfold Limbs.mulBound Limbs.boundedBy
  refine forall_congr' fun i => ?_
  rw [two_pow_limbWidth]
  push_cast
  constructor <;> intro hi <;> linarith

/-! ### The scalar limbs (45_scalar.md) -/

@[simp] theorem ScalarRegs.limbs_getElem (s : ScalarRegs) (k : Nat) (h : k < 24) : s.limbs[k] = s[k].toInt := by
  simp [ScalarRegs.limbs]

/-- `fold(k)` clears limb k (R306). -/
theorem ScalarLimbs.fold_same (s : ScalarLimbs) (k : Fin 24) : (s.fold k)[k] = 0 := by
  simp [ScalarLimbs.fold]

/-- A carry leaves every limb but k and k + 1 alone (R306). -/
theorem ScalarLimbs.moveCarry_other (s : ScalarLimbs) (k j : Fin 24) (c : Int) (h1 : j ≠ k) (h2 : j.val ≠ k.val + 1) :
    (s.moveCarry k c)[j] = s[j] := by
  simp only [ScalarLimbs.moveCarry, Fin.getElem_fin, Vector.getElem_ofFn]
  rw [if_neg h1, if_neg h2]

/-- The same on the registers. -/
theorem ScalarRegs.moveCarry_other (s : ScalarRegs) (k j : Fin 24) (c : BitVec 64) (h1 : j ≠ k) (h2 : j.val ≠ k.val + 1) :
    (s.moveCarry k c)[j] = s[j] := by
  simp only [ScalarRegs.moveCarry, Fin.getElem_fin, Vector.getElem_ofFn]
  rw [if_neg h1, if_neg h2]

end Sys2Proof.Machine
end

