-- ==== Sys2Proof/Laws/Ops.lean ====
section
/-! SUPPORT. What each shared operation of the machine can do, said once. -/

namespace Sys2Proof.Machine

/-! ### Operand checks -/

theorem inRange_ok (n : Nat) (o : Operand) (fld : ErrField) (h : o.toNat < n) : inRange n o fld = .ok ⟨o.toNat, h⟩ :=
  dif_pos h

theorem inRange_error (n : Nat) (o : Operand) (fld : ErrField) (h : ¬ o.toNat < n) :
    inRange n o fld = .error ⟨.badOperand, fld⟩ := dif_neg h

theorem readField_some (s : State) (o : Operand) (fld : ErrField) (v : Fe) (h : s.src.fReg[fieldIndex o] = some v) :
    s.readField o fld = .ok v := by simp only [State.readField, h]

theorem readField_none (s : State) (o : Operand) (fld : ErrField) (h : s.src.fReg[fieldIndex o] = none) :
    s.readField o fld = .error ⟨.uninit, fld⟩ := by simp only [State.readField, h]

theorem readPoint_empty (s : State) (i : Fin Config.pointRegs) (fld : ErrField) (h : s.src.pReg[i] = .empty) :
    s.readPoint i fld = .error ⟨.uninit, fld⟩ := by simp only [State.readPoint, h]

theorem readPoint_ok (s : State) (i : Fin Config.pointRegs) (fld : ErrField) (h : s.src.pReg[i] ≠ .empty) :
    s.readPoint i fld = .ok s.src.pReg[i] := by
  unfold State.readPoint
  split
  · contradiction
  · rfl

/-! ### Completion -/

@[simp] theorem finish_ok (ws : List Write) (s : State) : finish (.ok ws) s = .next (s.applyWrites ws).complete := rfl

@[simp] theorem finish_error (e : CmdError) (s : State) : finish (.error e) s = .next (s.raiseError e) := rfl

/-- Every completion is a next state: a result applied whole, or an error and nothing else (R132, R330). -/
theorem finish_cases (r : Result) (s t : State) (h : finish r s = .next t) :
    (∃ ws, r = .ok ws ∧ t = (s.applyWrites ws).complete) ∨ (∃ e, r = .error e ∧ t = s.raiseError e) := by
  cases r with
  | ok ws => exact .inl ⟨ws, rfl, by simpa using h.symm⟩
  | error e => exact .inr ⟨e, rfl, by simpa using h.symm⟩

/-! ### The shapes of the commands -/

/-- `F[rd] <- f(F[ra])`, or UNINIT(ra) (41_field.md R150). -/
theorem fieldUnary_eq (f : Fe → Fe) (rd ra : Operand) (s : State) :
    fieldUnary f rd ra s = match s.src.fReg[fieldIndex ra] with
      | some a => .next (s.applyWrite (.field (fieldIndex rd) (f a))).complete
      | none => .next (s.raiseError ⟨.uninit, .ra⟩) := by
  unfold fieldUnary State.readField
  cases s.src.fReg[fieldIndex ra] <;> rfl

/-- `F[rd] <- f(F[ra], F[rb])`, or UNINIT(ra), or UNINIT(rb) (R150, 60_exceptions.md R332). -/
theorem fieldBinary_eq (f : Fe → Fe → Fe) (rd ra rb : Operand) (s : State) :
    fieldBinary f rd ra rb s = match s.src.fReg[fieldIndex ra], s.src.fReg[fieldIndex rb] with
      | some a, some b => .next (s.applyWrite (.field (fieldIndex rd) (f a b))).complete
      | none, _ => .next (s.raiseError ⟨.uninit, .ra⟩)
      | some _, none => .next (s.raiseError ⟨.uninit, .rb⟩) := by
  unfold fieldBinary State.readField
  cases s.src.fReg[fieldIndex ra] <;> cases s.src.fReg[fieldIndex rb] <;> rfl

/-- `FLAG <- f(F[ra])`, or UNINIT(ra). -/
theorem fieldTest_eq (f : Fe → Bool) (ra : Operand) (s : State) :
    fieldTest f ra s = match s.src.fReg[fieldIndex ra] with
      | some a => .next (s.applyWrite (.flag (f a))).complete
      | none => .next (s.raiseError ⟨.uninit, .ra⟩) := by
  unfold fieldTest State.readField
  cases s.src.fReg[fieldIndex ra] <;> rfl

/-- `P[rd] <- f(P[ra])` with both numbers in range and P[ra] not EMPTY: `f` decides between a value and TAG. -/
theorem pointUnary_inRange (f : PReg → Except CmdError PReg) (rd ra : Operand) (s : State) (hd : rd.toNat < 8)
    (ha : ra.toNat < 8) (hne : s.src.pReg[ra.toNat] ≠ .empty) :
    pointUnary f rd ra s = finish (do
      let v ← f s.src.pReg[ra.toNat]
      pure [.point ⟨rd.toNat, hd⟩ v]) s := by
  have hr := readPoint_ok s ⟨ra.toNat, ha⟩ .ra hne
  simp only [pointUnary, pointIndex, inRange_ok 8 rd .rd hd, inRange_ok 8 ra .ra ha]
  simp only [Bind.bind, Except.bind, hr]
  rfl

/-- The mixed addition and subtraction with operands in range, not EMPTY and of the right tags. -/
theorem pointMixed_ok (f : Ext → Cached → Compl) (rd ra rb : Operand) (s : State) (e : Ext) (k : Cached)
    (hd : rd.toNat < 8) (ha : ra.toNat < 8) (hb : rb.toNat < 8) (hra : s.src.pReg[ra.toNat] = .ext e)
    (hrb : s.src.pReg[rb.toNat] = .cached k) :
    pointMixed f rd ra rb s = .next (s.applyWrite (.point ⟨rd.toNat, hd⟩ (.compl (f e k)))).complete := by
  have h1 := readPoint_ok s ⟨ra.toNat, ha⟩ .ra (by simp [hra])
  have h2 := readPoint_ok s ⟨rb.toNat, hb⟩ .rb (by simp [hrb])
  simp only [pointMixed, pointIndex, inRange_ok 8 rd .rd hd, inRange_ok 8 ra .ra ha, inRange_ok 8 rb .rb hb]
  simp only [Bind.bind, Except.bind, h1, h2]
  simp only [Fin.getElem_fin, hra, hrb]
  rfl

/-! ### exec and step -/

/-- Every command completes from every state (40_control.md R137). -/
theorem exec_is_finish (i : Instr) (s : State) : ∃ r : Result, exec i s = finish r s := by
  cases i <;> first
    | exact ⟨_, rfl⟩
    | (simp only [exec, execNop, execFeZero, execFeOne, execFeFrombytes, execScMuladd, execScMin, execScLdl]
       exact ⟨_, rfl⟩)

/-- What the sequencer's turn can do (R132). -/
theorem sequencerTurn_cases (s t : State) (h : sequencerTurn s = .next t) :
    (s.pending = none ∧ t = s) ∨
      ∃ c, s.pending = some c ∧
        ((∃ i, decode c.word = some i ∧ exec i s = .next t) ∨
          (decode c.word = none ∧ t = s.raiseError ⟨.illegalCmd, .none⟩)) := by
  unfold sequencerTurn at h
  split at h
  · next c hc =>
    unfold runWord at h
    split at h
    · next i hi => exact .inr ⟨c, hc, .inl ⟨i, hi, h⟩⟩
    · next hi => exact .inr ⟨c, hc, .inr ⟨hi, by simpa using h.symm⟩⟩
  · next hc => exact .inl ⟨hc, by simpa using h.symm⟩

/-- What a step can do: one turn of the agenda, or the sequencer's turn when it is empty. -/
theorem step_cases (s t : State) (h : step s = .next t) :
    (s.agenda = [] ∧ sequencerTurn s = .next t) ∨
      (∃ rest, s.agenda = .sequencer :: rest ∧ sequencerTurn { s with agenda := rest } = .next t) ∨
      (∃ a rest, s.agenda = .read a :: rest ∧ t = busRead a { s with agenda := rest }) ∨
      (∃ a d rest, s.agenda = .write a d :: rest ∧ t = busWrite a d { s with agenda := rest }) ∨
      (∃ rest, s.agenda = .hardReset :: rest ∧ t = State.resetCore { s with agenda := rest }) := by
  unfold step at h
  split at h
  · next ha => exact .inl ⟨ha, h⟩
  · next rest ha => exact .inr (.inl ⟨rest, ha, h⟩)
  · next a rest ha => exact .inr (.inr (.inl ⟨a, rest, ha, by simpa using h.symm⟩))
  · next a d rest ha => exact .inr (.inr (.inr (.inl ⟨a, d, rest, ha, by simpa using h.symm⟩)))
  · next rest ha => exact .inr (.inr (.inr (.inr ⟨rest, ha, by simpa using h.symm⟩)))

end Sys2Proof.Machine
end

