-- ==== Sys2Proof/Laws/PerInstr.lean ====
section
/-! SUPPORT. Per command: its fields leave RES at 0 and the opcode map reads the command back from them (30_encoding.md R103,
R104). -/

/-- What the encoding of every command satisfies, field by field. -/
def Sys2Proof.Laws.EncodeFields.Statement (i : Sys2Proof.Instr) : Prop :=
  (Sys2Proof.encodeFields i).res = 0 ∧ Sys2Proof.decodeOp (Sys2Proof.encodeFields i) = some i

theorem Sys2Proof.Laws.EncodeFields.nop :
    Sys2Proof.Laws.EncodeFields.Statement .nop := ⟨rfl, rfl⟩

theorem Sys2Proof.Laws.EncodeFields.feZero (rd : Sys2Proof.Operand) :
    Sys2Proof.Laws.EncodeFields.Statement (.feZero rd) := ⟨rfl, rfl⟩

theorem Sys2Proof.Laws.EncodeFields.feOne (rd : Sys2Proof.Operand) :
    Sys2Proof.Laws.EncodeFields.Statement (.feOne rd) := ⟨rfl, rfl⟩

theorem Sys2Proof.Laws.EncodeFields.feMov (rd ra : Sys2Proof.Operand) :
    Sys2Proof.Laws.EncodeFields.Statement (.feMov rd ra) := ⟨rfl, rfl⟩

theorem Sys2Proof.Laws.EncodeFields.feLdc (rd ra : Sys2Proof.Operand) :
    Sys2Proof.Laws.EncodeFields.Statement (.feLdc rd ra) := ⟨rfl, rfl⟩

theorem Sys2Proof.Laws.EncodeFields.feAdd (rd ra rb : Sys2Proof.Operand) :
    Sys2Proof.Laws.EncodeFields.Statement (.feAdd rd ra rb) := ⟨rfl, rfl⟩

theorem Sys2Proof.Laws.EncodeFields.feSub (rd ra rb : Sys2Proof.Operand) :
    Sys2Proof.Laws.EncodeFields.Statement (.feSub rd ra rb) := ⟨rfl, rfl⟩

theorem Sys2Proof.Laws.EncodeFields.feNeg (rd ra : Sys2Proof.Operand) :
    Sys2Proof.Laws.EncodeFields.Statement (.feNeg rd ra) := ⟨rfl, rfl⟩

theorem Sys2Proof.Laws.EncodeFields.feMul (rd ra rb : Sys2Proof.Operand) :
    Sys2Proof.Laws.EncodeFields.Statement (.feMul rd ra rb) := ⟨rfl, rfl⟩

theorem Sys2Proof.Laws.EncodeFields.feSq (rd ra : Sys2Proof.Operand) :
    Sys2Proof.Laws.EncodeFields.Statement (.feSq rd ra) := ⟨rfl, rfl⟩

theorem Sys2Proof.Laws.EncodeFields.feSq2 (rd ra : Sys2Proof.Operand) :
    Sys2Proof.Laws.EncodeFields.Statement (.feSq2 rd ra) := ⟨rfl, rfl⟩

theorem Sys2Proof.Laws.EncodeFields.feInv (rd ra : Sys2Proof.Operand) :
    Sys2Proof.Laws.EncodeFields.Statement (.feInv rd ra) := ⟨rfl, rfl⟩

theorem Sys2Proof.Laws.EncodeFields.fePow22523 (rd ra : Sys2Proof.Operand) :
    Sys2Proof.Laws.EncodeFields.Statement (.fePow22523 rd ra) := ⟨rfl, rfl⟩

theorem Sys2Proof.Laws.EncodeFields.feIsneg (ra : Sys2Proof.Operand) :
    Sys2Proof.Laws.EncodeFields.Statement (.feIsneg ra) := ⟨rfl, rfl⟩

theorem Sys2Proof.Laws.EncodeFields.feIsnz (ra : Sys2Proof.Operand) :
    Sys2Proof.Laws.EncodeFields.Statement (.feIsnz ra) := ⟨rfl, rfl⟩

theorem Sys2Proof.Laws.EncodeFields.feTobytes (rd ra : Sys2Proof.Operand) :
    Sys2Proof.Laws.EncodeFields.Statement (.feTobytes rd ra) := ⟨rfl, rfl⟩

theorem Sys2Proof.Laws.EncodeFields.feFrombytes (rd ra : Sys2Proof.Operand) :
    Sys2Proof.Laws.EncodeFields.Statement (.feFrombytes rd ra) := ⟨rfl, rfl⟩

theorem Sys2Proof.Laws.EncodeFields.ptIdent (rd : Sys2Proof.Operand) :
    Sys2Proof.Laws.EncodeFields.Statement (.ptIdent rd) := ⟨rfl, rfl⟩

theorem Sys2Proof.Laws.EncodeFields.ptLdb (rd : Sys2Proof.Operand) :
    Sys2Proof.Laws.EncodeFields.Statement (.ptLdb rd) := ⟨rfl, rfl⟩

theorem Sys2Proof.Laws.EncodeFields.ptMov (rd ra : Sys2Proof.Operand) :
    Sys2Proof.Laws.EncodeFields.Statement (.ptMov rd ra) := ⟨rfl, rfl⟩

theorem Sys2Proof.Laws.EncodeFields.ptToext (rd ra : Sys2Proof.Operand) :
    Sys2Proof.Laws.EncodeFields.Statement (.ptToext rd ra) := ⟨rfl, rfl⟩

theorem Sys2Proof.Laws.EncodeFields.ptToproj (rd ra : Sys2Proof.Operand) :
    Sys2Proof.Laws.EncodeFields.Statement (.ptToproj rd ra) := ⟨rfl, rfl⟩

theorem Sys2Proof.Laws.EncodeFields.ptTocached (rd ra : Sys2Proof.Operand) :
    Sys2Proof.Laws.EncodeFields.Statement (.ptTocached rd ra) := ⟨rfl, rfl⟩

theorem Sys2Proof.Laws.EncodeFields.ptDbl (rd ra : Sys2Proof.Operand) :
    Sys2Proof.Laws.EncodeFields.Statement (.ptDbl rd ra) := ⟨rfl, rfl⟩

theorem Sys2Proof.Laws.EncodeFields.ptAdd (rd ra rb : Sys2Proof.Operand) :
    Sys2Proof.Laws.EncodeFields.Statement (.ptAdd rd ra rb) := ⟨rfl, rfl⟩

theorem Sys2Proof.Laws.EncodeFields.ptSub (rd ra rb : Sys2Proof.Operand) :
    Sys2Proof.Laws.EncodeFields.Statement (.ptSub rd ra rb) := ⟨rfl, rfl⟩

theorem Sys2Proof.Laws.EncodeFields.ptNeg (rd ra : Sys2Proof.Operand) :
    Sys2Proof.Laws.EncodeFields.Statement (.ptNeg rd ra) := ⟨rfl, rfl⟩

theorem Sys2Proof.Laws.EncodeFields.ptGet (rd ra rb : Sys2Proof.Operand) :
    Sys2Proof.Laws.EncodeFields.Statement (.ptGet rd ra rb) := ⟨rfl, rfl⟩

theorem Sys2Proof.Laws.EncodeFields.ptEnc (rd ra : Sys2Proof.Operand) :
    Sys2Proof.Laws.EncodeFields.Statement (.ptEnc rd ra) := ⟨rfl, rfl⟩

theorem Sys2Proof.Laws.EncodeFields.ptDec (rd ra : Sys2Proof.Operand) :
    Sys2Proof.Laws.EncodeFields.Statement (.ptDec rd ra) := ⟨rfl, rfl⟩

theorem Sys2Proof.Laws.EncodeFields.ptDsmul (rd ra rb rc : Sys2Proof.Operand) :
    Sys2Proof.Laws.EncodeFields.Statement (.ptDsmul rd ra rb rc) := ⟨rfl, rfl⟩

theorem Sys2Proof.Laws.EncodeFields.ptSmulb (rd ra : Sys2Proof.Operand) :
    Sys2Proof.Laws.EncodeFields.Statement (.ptSmulb rd ra) := ⟨rfl, rfl⟩

theorem Sys2Proof.Laws.EncodeFields.scMuladd (rd ra rb rc : Sys2Proof.Operand) :
    Sys2Proof.Laws.EncodeFields.Statement (.scMuladd rd ra rb rc) := ⟨rfl, rfl⟩

theorem Sys2Proof.Laws.EncodeFields.scReduce (rd ra : Sys2Proof.Operand) :
    Sys2Proof.Laws.EncodeFields.Statement (.scReduce rd ra) := ⟨rfl, rfl⟩

theorem Sys2Proof.Laws.EncodeFields.scMin (ra : Sys2Proof.Operand) :
    Sys2Proof.Laws.EncodeFields.Statement (.scMin ra) := ⟨rfl, rfl⟩

theorem Sys2Proof.Laws.EncodeFields.scLdl (rd : Sys2Proof.Operand) :
    Sys2Proof.Laws.EncodeFields.Statement (.scLdl rd) := ⟨rfl, rfl⟩

theorem Sys2Proof.Laws.EncodeFields.scSlide (rd ra : Sys2Proof.Operand) :
    Sys2Proof.Laws.EncodeFields.Statement (.scSlide rd ra) := ⟨rfl, rfl⟩
end

