-- ==== Sys2Proof/Tests/Slice0.lean ====
section
/-! SUPPORT. Tests of the model, and a witness for the hypotheses of every statement. The expected values are the spec's own:
the examples of the command rules and the vectors of 95_test_vectors.md. -/

set_option Elab.async false

namespace Sys2Proof.Tests

open Sys2Proof Sys2Proof.Machine

/-! ### Decoding: one word of each command, bit by bit as RES RC RB RA RD OP (30_encoding.md R100, R104) -/

theorem test_decode_nop : decode 0b0000_00000_00000_00000_00000_00000000 = some .nop := by decide

theorem test_decode_feZero : decode 0b0000_00000_00000_00000_00111_00010000 = some (.feZero 7) := by decide

theorem test_decode_feOne : decode 0b0000_00000_00000_00000_00010_00010001 = some (.feOne 2) := by decide

theorem test_decode_feMov : decode 0b0000_00000_00000_00001_00000_00010010 = some (.feMov 0 1) := by decide

theorem test_decode_feLdc : decode 0b0000_00000_00000_00000_00100_00010011 = some (.feLdc 4 0) := by decide

theorem test_decode_feAdd : decode 0b0000_00000_00010_00001_00011_00010100 = some (.feAdd 3 1 2) := by decide

theorem test_decode_feSub : decode 0b0000_00000_00010_00001_00011_00010101 = some (.feSub 3 1 2) := by decide

theorem test_decode_feNeg : decode 0b0000_00000_00000_00001_00010_00010110 = some (.feNeg 2 1) := by decide

theorem test_decode_feMul : decode 0b0000_00000_00010_00001_00011_00010111 = some (.feMul 3 1 2) := by decide

theorem test_decode_feSq : decode 0b0000_00000_00000_00001_00010_00011000 = some (.feSq 2 1) := by decide

theorem test_decode_feSq2 : decode 0b0000_00000_00000_00001_00010_00011001 = some (.feSq2 2 1) := by decide

theorem test_decode_feInv : decode 0b0000_00000_00000_00001_00010_00011010 = some (.feInv 2 1) := by decide

theorem test_decode_fePow22523 : decode 0b0000_00000_00000_00001_00010_00011011 = some (.fePow22523 2 1) := by decide

theorem test_decode_feIsneg : decode 0b0000_00000_00000_00001_00000_00011100 = some (.feIsneg 1) := by decide

theorem test_decode_feIsnz : decode 0b0000_00000_00000_00001_00000_00011101 = some (.feIsnz 1) := by decide

theorem test_decode_feTobytes : decode 0b0000_00000_00000_00001_00010_00011110 = some (.feTobytes 2 1) := by decide

theorem test_decode_feFrombytes : decode 0b0000_00000_00000_00000_00001_00011111 = some (.feFrombytes 1 0) := by decide

theorem test_decode_ptIdent : decode 0b0000_00000_00000_00000_00010_00100000 = some (.ptIdent 2) := by decide

theorem test_decode_ptLdb : decode 0b0000_00000_00000_00000_00000_00100001 = some (.ptLdb 0) := by decide

theorem test_decode_ptMov : decode 0b0000_00000_00000_00001_00011_00100010 = some (.ptMov 3 1) := by decide

theorem test_decode_ptToext : decode 0b0000_00000_00000_00001_00001_00100011 = some (.ptToext 1 1) := by decide

theorem test_decode_ptToproj : decode 0b0000_00000_00000_00001_00100_00100100 = some (.ptToproj 4 1) := by decide

theorem test_decode_ptTocached : decode 0b0000_00000_00000_00000_00010_00100101 = some (.ptTocached 2 0) := by decide

theorem test_decode_ptDbl : decode 0b0000_00000_00000_00000_00001_00100110 = some (.ptDbl 1 0) := by decide

theorem test_decode_ptAdd : decode 0b0000_00000_00010_00001_00011_00100111 = some (.ptAdd 3 1 2) := by decide

theorem test_decode_ptSub : decode 0b0000_00000_00010_00000_00011_00101000 = some (.ptSub 3 0 2) := by decide

theorem test_decode_ptNeg : decode 0b0000_00000_00000_00000_00101_00101001 = some (.ptNeg 5 0) := by decide

theorem test_decode_ptGet : decode 0b0000_00000_00001_00000_00000_00101010 = some (.ptGet 0 0 1) := by decide

theorem test_decode_ptEnc : decode 0b0000_00000_00000_00000_00011_00101011 = some (.ptEnc 3 0) := by decide

theorem test_decode_ptDec : decode 0b0000_00000_00000_00100_00110_00101100 = some (.ptDec 6 4) := by decide

theorem test_decode_ptDsmul : decode 0b0000_00011_00010_00001_00000_00101101 = some (.ptDsmul 0 1 2 3) := by decide

theorem test_decode_ptSmulb : decode 0b0000_00000_00000_00101_00001_00101110 = some (.ptSmulb 1 5) := by decide

theorem test_decode_scMuladd : decode 0b0000_00011_00010_00001_00100_00110000 = some (.scMuladd 4 1 2 3) := by decide

theorem test_decode_scReduce : decode 0b0000_00000_00000_00110_00101_00110001 = some (.scReduce 5 6) := by decide

theorem test_decode_scMin : decode 0b0000_00000_00000_00110_00000_00110010 = some (.scMin 6) := by decide

theorem test_decode_scLdl : decode 0b0000_00000_00000_00000_00111_00110011 = some (.scLdl 7) := by decide

theorem test_decode_scSlide : decode 0b0000_00000_00000_00001_01000_00110100 = some (.scSlide 8 1) := by decide

/-- A reserved opcode, a set RES bit and a set unused field are no command (R103, R105). -/
theorem test_decode_refuses : decode 0b0000_00000_00000_00000_00000_00101111 = none ∧
    decode 0b0001_00000_00000_00000_00000_00010000 = none ∧
    decode 0b0000_00000_00000_00001_00000_00010000 = none := by decide

theorem test_decodeTableWord_feAdd : decodeTableWord 32 0x00082314 = some (.feAdd 3 1 2) := by decide

/-! ### Well-formedness: each class refuses the value after its limit (R102) -/

theorem test_wf_accepts_limits : (Instr.ptDsmul 7 7 31 31).wf = true ∧ (Instr.scReduce 31 30).wf = true ∧
    (Instr.scSlide 24 31).wf = true ∧ (Instr.feLdc 31 2).wf = true ∧ (Instr.ptGet 31 7 3).wf = true := by decide

theorem test_wf_refuses_pd : (Instr.ptIdent 8).wf = false := by decide

theorem test_wf_refuses_ps : (Instr.ptEnc 0 8).wf = false := by decide

theorem test_wf_refuses_ss2 : (Instr.scReduce 0 31).wf = false := by decide

theorem test_wf_refuses_sd8 : (Instr.scSlide 25 0).wf = false := by decide

theorem test_wf_refuses_k : (Instr.feLdc 0 3).wf = false := by decide

theorem test_wf_refuses_c : (Instr.ptGet 0 0 4).wf = false := by decide

/-! ### Helpers: small states, and one command run as the next step -/

/-- F[i] ← v on a state. -/
def withF (s : State) (i : Fin 32) (v : Nat) : State := { s with fReg := s.fReg.set i (some (Fe.ofNat v)) }

/-- P[i] ← r on a state. -/
def withP (s : State) (i : Fin 8) (r : PReg) : State := { s with pReg := s.pReg.set i r }

/-- Slot k ← le_32(v) on a state. -/
def withSlot (s : State) (k v : Nat) : State := { s with data := s.data.writeBytes (32 * k) (leBytes 32 v) }

/-- The value of slot k. -/
def slotValue (s : State) (k : Nat) : Nat := le (s.data.readBytes (32 * k) 32)

/-- The state after the next step runs the word. -/
def run (s : State) (w : Word) : Option State :=
  match step (s.startWord w) with
  | .next t => some t
  | .fault _ => none
  | .refused _ => none

/-- B in P[0], its Completed double in P[1], CACHED B in P[2], PROJ B in P[3], the identity in P[7]; the others EMPTY. -/
def points : State :=
  withP (withP (withP (withP (withP State.reset 0 (.ext Rom.base)) 1 (.compl Rom.base.toProj.dbl)) 2 (.cached Rom.btab0)) 3
    (.proj Rom.base.toProj)) 7 (.ext Rom.identity)

/-- F[1] = 5, F[31] = 7, DATA slot 4 the encoding of B. -/
def fields : State := withSlot (withF (withF State.reset 1 5) 31 7) 4 0x6666666666666666666666666666666666666666666666666666666666666658

/-- `points` with the command word `w` in flight. -/
def pendingPoints (w : Word) : State := { points with pending := some ⟨w, points.live⟩ }

/-- STATUS after the next step runs the word. -/
def statusAfter (s : State) (w : Word) : Option Word := (run s w).map State.statusWord

/-! ### Control and field commands (40_control.md, 41_field.md, 95_test_vectors.md §3) -/

theorem test_nop : statusAfter State.reset 0x00000000 = some 0x00000002 := by decide +kernel

theorem test_feZero : (run State.reset 0x00000710).map (·.fReg[7]) = some (some (Fe.ofNat 0)) := by decide +kernel

theorem test_feOne : (run State.reset 0x00000211).map (·.fReg[2]) = some (some (Fe.ofNat 1)) := by decide +kernel

theorem test_feMov : (run fields 0x00002012).map (·.fReg[0]) = some (some (Fe.ofNat 5)) := by decide +kernel

theorem test_feLdc_d : (run State.reset 0x00000413).map (·.fReg[4])
    = some (some (Fe.ofNat 0x52036cee2b6ffe738cc740797779e89800700a4d4141d8ab75eb4dca135978a3)) := by decide +kernel

theorem test_feAdd_wraps : (run (withF (withF State.reset 1 (Config.p - 1)) 2 2) 0x00082314).map (·.fReg[3])
    = some (some (Fe.ofNat 1)) := by decide +kernel

theorem test_feSub_wraps : (run (withF (withF State.reset 1 0) 2 1) 0x00082315).map (·.fReg[3])
    = some (some (Fe.ofNat (2 ^ 255 - 20))) := by decide +kernel

theorem test_feNeg : (run (withF State.reset 1 1) 0x00002216).map (·.fReg[2])
    = some (some (Fe.ofNat (2 ^ 255 - 20))) := by decide +kernel

theorem test_feNeg_zero : (run (withF State.reset 1 0) 0x00002216).map (·.fReg[2])
    = some (some (Fe.ofNat 0)) := by decide +kernel

theorem test_feMul_plain : (run (withF (withF State.reset 1 2) 2 (2 ^ 254 - 9)) 0x00082317).map (·.fReg[3])
    = some (some (Fe.ofNat 1)) := by decide +kernel

theorem test_feSq : (run (withF State.reset 1 3) 0x00002218).map (·.fReg[2]) = some (some (Fe.ofNat 9)) := by decide +kernel

theorem test_feSq2 : (run (withF State.reset 1 3) 0x00002219).map (·.fReg[2]) = some (some (Fe.ofNat 18)) := by decide +kernel

theorem test_feInv : (run (withF State.reset 1 2) 0x0000221A).map (·.fReg[2])
    = some (some (Fe.ofNat 0x3ffffffffffffffffffffffffffffffffffffffffffffffffffffffffffffff7)) := by decide +kernel

theorem test_feInv_zero : (run (withF State.reset 1 0) 0x0000221A).map (·.fReg[2])
    = some (some (Fe.ofNat 0)) := by decide +kernel

theorem test_fePow22523 : (run (withF State.reset 1 2) 0x0000221B).map (·.fReg[2])
    = some (some (Fe.ofNat 0x55c1924027e0ef8595a6804c9efdebd397a18c035697f23c62770d93a507504f)) := by decide +kernel

theorem test_feIsneg : statusAfter (withF State.reset 1 1) 0x0000201C = some 0x0000000A := by decide +kernel

theorem test_feIsneg_minus_one : statusAfter (withF State.reset 1 (Config.p - 1)) 0x0000201C = some 0x00000002 := by
  decide +kernel

theorem test_feIsnz_zero : statusAfter (withF State.reset 1 0) 0x0000201D = some 0x00000002 := by decide +kernel

theorem test_feIsnz_one : statusAfter (withF State.reset 1 1) 0x0000201D = some 0x0000000A := by decide +kernel

theorem test_feTobytes : (run (withF State.reset 1 18) 0x0000221E).map (·.data) = some [(64, 0x12)] := by decide +kernel

theorem test_feFrombytes_all_ones : (run (withSlot State.reset 0 (2 ^ 256 - 1)) 0x0000011F).map (·.fReg[1])
    = some (some (Fe.ofNat 18)) := by decide +kernel

theorem test_feFrombytes_strips_bit_255 : (run (withSlot State.reset 0 (2 ^ 255)) 0x0000011F).map (·.fReg[1])
    = some (some (Fe.ofNat 0)) := by decide +kernel

theorem test_feMov_uninit : statusAfter State.reset 0x00002012 = some 0x00002306 := by decide +kernel

/-! ### Point commands (43_point.md, 44_scalar_mult.md, 95_test_vectors.md §4, §8) -/

theorem test_ptIdent : (run State.reset 0x00000220).map (·.pReg[2])
    = some (.ext ⟨Fe.ofNat 0, Fe.ofNat 1, Fe.ofNat 1, Fe.ofNat 0⟩) := by decide +kernel

theorem test_ptLdb : (run State.reset 0x00000021).map (·.pReg[0]) = some (.ext
    ⟨Fe.ofNat 0x216936d3cd6e53fec0a4e231fdd6dc5c692cc7609525a7b2c9562d608f25d51a,
     Fe.ofNat 0x6666666666666666666666666666666666666666666666666666666666666658, Fe.ofNat 1,
     Fe.ofNat 0x67875f0fd78b766566ea4e8e64abe37d20f09f80775152f56dde8ab3a5b7dda3⟩) := by decide +kernel

theorem test_ptMov_cached : (run points 0x00004322).map (·.pReg[3]) = some (.cached Rom.btab0) := by decide +kernel

theorem test_ptToext_rejects_ext : statusAfter points 0x00000023 = some 0x00002406 := by decide +kernel

theorem test_ptToext : (run points 0x00002123).map (fun t => match t.pReg[1] with | .ext e => e.x | _ => Fe.zero)
    = some (Fe.ofNat 0x4edbe2246583dab515ddb478484f06f677913e22058e9da4854579b3e7cff596) := by decide +kernel

theorem test_ptToproj_ext : (run points 0x00000424).map (·.pReg[4]) = some (.proj ⟨Rom.base.x, Rom.base.y, Fe.ofNat 1⟩) := by
  decide +kernel

theorem test_ptTocached : (run points 0x00000225).map (·.pReg[2]) = some (.cached
    ⟨Fe.ofNat 0x07cf9d3a33d4ba65270b4898643d42c2cf932dc6fb8c0e192fbc93c6f58c3b85,
     Fe.ofNat 0x44fd2f9298f81267a5c18434688f8a09fd399f05d140beb39d103905d740913e, Fe.ofNat 1,
     Fe.ofNat 0x6f117b689f0c65a85a1b7dcbdd43598c26d9e823ccaac49eabc91205877aaa68⟩) := by decide +kernel

theorem test_ptDbl : (run points 0x00000126).map (fun t => match t.pReg[1] with | .compl c => (c.x, c.y) | _ => (Fe.zero, Fe.zero))
    = some (Fe.ofNat 0x4f0ebe1faf16eccacdd49d1cc957c6fa41e13f00eea2a5eadbbd15674b6fbb59,
            Fe.ofNat 0x0bd12c8a2785e660e7e2751b603aeb44d768bb0daeb6ef9c215d7594a1a06e5a) := by decide +kernel

theorem test_ptDbl_identity : (run points 0x0000E326).map (·.pReg[3])
    = some (.compl ⟨Fe.ofNat 0, Fe.ofNat 1, Fe.ofNat 1, Fe.ofNat 1⟩) := by decide +kernel

/-- Identity + B has the affine point B: (X/Z, Y/T) of the Completed result. -/
theorem test_ptAdd_identity : (run points 0x0008E327).map (fun t => match t.pReg[3] with
      | .compl c => c.affine == ⟨Rom.base.x, Rom.base.y⟩ | _ => false) = some true := by decide +kernel

/-- B − B is the identity (0, 1). -/
theorem test_ptSub_self : (run points 0x00080328).map (fun t => match t.pReg[3] with
      | .compl c => c.affine == ⟨Fe.ofNat 0, Fe.ofNat 1⟩ | _ => false) = some true := by decide +kernel

theorem test_ptAdd_tag_rb : statusAfter points 0x00000327 = some 0x00003406 := by decide +kernel

theorem test_ptNeg : (run points 0x00000529).map (fun t => match t.pReg[5] with | .ext e => (e.x, e.y) | _ => (Fe.zero, Fe.zero))
    = some (Fe.ofNat 0x5e96c92c3291ac013f5b1dce022923a396d3389f6ada584d36a9d29f70da2ad3, Rom.base.y) := by decide +kernel

theorem test_ptGet_y : (run points 0x0004002A).map (·.fReg[0])
    = some (some (Fe.ofNat 0x6666666666666666666666666666666666666666666666666666666666666658)) := by decide +kernel

theorem test_ptGet_missing_t : statusAfter points 0x000C602A = some 0x00003406 := by decide +kernel

theorem test_ptEnc : (run points 0x0000032B).map (slotValue · 3)
    = some 0x6666666666666666666666666666666666666666666666666666666666666658 := by decide +kernel

theorem test_ptDec : (run fields 0x0000862C).map (fun t => (t.pReg[6], t.flag))
    = some (.ext Rom.base, true) := by decide +kernel

/-- ff…ff is no encoding (95_test_vectors.md §4): FLAG = 0, P[rd] EMPTY, no error. -/
theorem test_ptDec_invalid : (run (withSlot points 4 (2 ^ 256 - 1)) 0x0000802C).map (fun t => (t.pReg[0], t.statusWord))
    = some (.empty, 0x00000002) := by decide +kernel

/-- 2·B + 3·B has the affine y of 5B (95_test_vectors.md §4, encoding edc876d6…48df). -/
theorem test_ptDsmul : (run (withSlot (withSlot points 2 2) 3 3) 0x0188002D).map (fun t => match t.pReg[0] with
      | .proj q => le q.affine.encode | _ => 0)
    = some 0xdf4825b298feae6fe02c6e148992466631282eca89430b5d10d21f83d676c8ed := by decide +kernel

/-- 5B with Z = 1. -/
theorem test_ptSmulb : (run (withSlot State.reset 5 5) 0x0000A12E).map (fun t => match t.pReg[1] with
      | .ext e => (le (Affine.encode ⟨e.x, e.y⟩), e.z.val) | _ => (0, 0))
    = some (0xdf4825b298feae6fe02c6e148992466631282eca89430b5d10d21f83d676c8ed, 1) := by decide +kernel

/-! ### Scalar commands (45_scalar.md, 44_scalar_mult.md R272, 95_test_vectors.md §6, §7) -/

theorem test_scMuladd : (run (withSlot (withSlot (withSlot State.reset 1 2) 2 3) 3 4) 0x01882430).map (slotValue · 4)
    = some 10 := by decide +kernel

theorem test_scMuladd_all_ones : (run (withSlot State.reset 1 (2 ^ 256 - 1)) 0x00842430).map (slotValue · 4)
    = some 0x399411b7c309a3dceec73d217f5be671dfdb99197ff60ad252c438913f94dd1 := by
  decide +kernel

theorem test_scReduce : (run (withSlot State.reset 7 1) 0x0000C531).map (slotValue · 5) = some
    0xffffffffffffffffffffffffffffffec6ef5bf4737dcf70d6ec31748d98951d := by decide +kernel

theorem test_scMin_L : statusAfter (withSlot State.reset 6 Rom.L) 0x0000C032 = some 0x00000002 := by decide +kernel

theorem test_scMin_below_L : statusAfter (withSlot State.reset 6 (Rom.L - 1)) 0x0000C032 = some 0x0000000A := by
  decide +kernel

theorem test_scLdl : (run State.reset 0x00000733).map (slotValue · 7)
    = some 0x1000000000000000000000000000000014def9dea2f79cd65812631a5cf5d3ed := by decide +kernel

theorem test_scSlide : (run (withSlot State.reset 1 17) 0x00002834).map (·.data)
    = some [(32, 17), (256, 0xF1), (261, 1)] := by decide +kernel

/-! ### Errors and their priority (60_exceptions.md R332, 95_test_vectors.md §8) -/

theorem test_error_illegal : statusAfter points 0x10000000 = some 0x00000106 := by decide +kernel

theorem test_error_range_rd_first : statusAfter points 0x00090927 = some 0x00001206 := by decide +kernel

theorem test_error_uninit_before_tag : statusAfter points 0x0000A327 = some 0x00002306 := by decide +kernel

/-! ### The bus (95_test_vectors.md §5, program 5) -/

/-- Program 5, rows 3 and 4: PT_SMULB p1, s0 started with IRQ_EN. -/
def started : State := busWrite 0x004 5 (busWrite 0x00C 0x12E State.reset)

theorem test_bus_id : (busRead 0x000 State.reset).rdata = 0x45443235 := by decide +kernel

theorem test_bus_busy_data_read : (busRead 0x400 started).rdata = 0 ∧ (busRead 0x400 started).statusWord = 0x11 := by
  decide +kernel

theorem test_bus_busy_cmd_write : (busWrite 0x00C 0 started).cmd = 0x12E ∧ (busWrite 0x00C 0 started).statusWord = 0x11 := by
  decide +kernel

theorem test_bus_data_little_endian : (busWrite 0x402 0xD676C8ED State.reset).data
    = [(0, 0xED), (1, 0xC8), (2, 0x76), (3, 0xD6)] ∧
    (busRead 0x400 (busWrite 0x402 0xD676C8ED State.reset)).rdata = 0xD676C8ED := by decide +kernel

theorem test_bus_status_w1c : (busWrite 0x008 0x12 { State.reset with done := true, haz := true, err := true }).statusWord = 4 := by
  decide +kernel

theorem test_bus_soft_reset_wins : (busWrite 0x004 7 started).statusWord = 0 ∧ (busWrite 0x004 7 started).irqEn = false := by
  decide +kernel

/-! ### The datapaths (42_field_datapath.md, 45_scalar.md; 95_test_vectors.md §3, §7) -/

theorem test_limbs_load_all_ones : Limbs.load (leBytes 32 (2 ^ 256 - 1)) = #v[18, 0, 0, 0, 0, 0, 0, 0, 0, 0] := by decide +kernel

theorem test_limbs_load_minus_one : Limbs.load (leBytes 32 (2 ^ 255 - 20)) = #v[-1, 0, 0, 0, 0, 0, 0, 0, 0, 0] ∧
    (Limbs.load (leBytes 32 (2 ^ 255 - 20))).toBytes = leBytes 32 (2 ^ 255 - 20) := by decide +kernel

theorem test_limbs_mul : Limbs.mul #v[18, 0, 0, 0, 0, 0, 0, 0, 0, 0] #v[18, 0, 0, 0, 0, 0, 0, 0, 0, 0]
    = #v[324, 0, 0, 0, 0, 0, 0, 0, 0, 0] := by decide +kernel

theorem test_scalarReduceLimbs : scalarReduceLimbs (leBytes 64 (2 ^ 512 - 1)) = leBytes 32
    0x399411b7c309a3dceec73d217f5be65d00e1ba768859347a40611e3449c0f00 := by decide +kernel

theorem test_scalarMulAddLimbs : scalarMulAddLimbs (leBytes 32 (2 ^ 256 - 1)) (leBytes 32 (2 ^ 256 - 1)) (leBytes 32 (2 ^ 256 - 1))
    = leBytes 32 0x399411b7c309a3dceec73d217f5be671dfdb99197ff60ad252c438913f94dd1 := by
  decide +kernel

/-- FE_ADD and FE_SUB on limbs: (p − 1) + 2 = 1 and 0 − 1 = p − 1, carried at commit (R199). -/
theorem test_limbCommand_add_sub :
    ((FieldExpr.add (.input 0) (.input 1)).store [Limbs.ofFe (Fe.ofNat (2 ^ 255 - 20)), Limbs.ofFe (Fe.ofNat 2)]).residue = 1 ∧
    ((FieldExpr.sub (.input 0) (.input 1)).store [Limbs.ofFe Fe.zero, Limbs.ofFe Fe.one]).residue = 2 ^ 255 - 20 := by
  decide +kernel

/-- A residue in [2^252, L) ends with limb 11 at 2^21 (log entry 13). -/
theorem test_scalarReduceLimbs_top : scalarReduceLimbs (leBytes 64 (Rom.L - 1)) = leBytes 32 (Rom.L - 1) ∧
    (reduceSteps.foldl ScalarLimbs.step (ScalarLimbs.load64 (leBytes 64 (Rom.L - 1))))[11] = 2 ^ 21 := by decide +kernel

theorem test_slide_borrow_runs_off : slide (leBytes 32 (2 ^ 256 - 1)) = -1 :: List.replicate 255 0 := by decide +kernel

theorem test_slide_L : (slide (leBytes 32 Rom.L)).take 18 = [13, 0, 0, 0, 0, -1, 0, 0, 0, 0, -11, 0, 0, 0, 0, 0, 0, -5] := by
  decide +kernel

/-! ### Witnesses: what meets the hypotheses of each statement, clause by clause -/

/-- For EncodeOfDecodeIsTheWord, DecodeAgreesWithOpcodeMap. -/
theorem witness_EncodeOfDecode : decode 0x00082314 = some (.feAdd 3 1 2) ∧ decode 0x0FFFFF2D = some (.ptDsmul 31 31 31 31) ∧
    decode 0x0000002F = none ∧ decode 0x1FFFFF2D = none := by decide

/-- RowDecides (every result statement), for each row: a word with the OP that the row covers, and one that it does not. -/
theorem witness_RowDecides : ∀ r ∈ opcodeMap, r.pattern &&& 0xFF = r.pattern ∧ r.pattern &&& r.mask = r.pattern ∧
    (r.pattern ||| 0x80000000) &&& 0xFF = r.pattern ∧ (r.pattern ||| 0x80000000) &&& r.mask ≠ r.pattern := by decide +kernel

theorem witness_StepRunsTheLatchedCommand : (pendingPoints 0x00082314).pending = some ⟨0x00082314, points.live⟩ ∧
    decode 0x00082314 = some (.feAdd 3 1 2) ∧ (pendingPoints 0x00082314).agenda = [] ∧
    (points.startWord 0x00082314).agenda = [.sequencer] ∧
    (points.startWord 0x00082314).pending = some ⟨0x00082314, points.live⟩ := by decide +kernel

theorem witness_IllegalWords : (pendingPoints 0xFFFFFFFF).pending = some ⟨0xFFFFFFFF, points.live⟩ ∧
    (∀ r ∈ opcodeMap, r.covers 0xFFFFFFFF = false) ∧ (∀ r ∈ opcodeMap, r.covers 0x00000001 = false) ∧
    ∀ r ∈ opcodeMap, r.covers 0x10000000 = false := by decide +kernel

theorem witness_AgendaTurns : ∃ s : State, s.pending = none ∧ s.agenda = [] ∧
    ({ s with agenda := [.read 0xFFF] } : State).agenda = .read 0xFFF :: [] ∧
    ({ s with agenda := [.write 0x004 5] } : State).agenda = .write 0x004 5 :: [] ∧
    ({ s with agenda := [.hardReset] } : State).agenda = .hardReset :: [] ∧
    ({ s with agenda := [.sequencer] } : State).agenda = .sequencer :: [] := ⟨State.reset, rfl, rfl, rfl, rfl, rfl, rfl⟩

/-- Each step of the priority list, with each field it can name, and a word without an error (R332). -/
theorem witness_CommandErrors :
    wordError 0x10000000 points = some ⟨.illegalCmd, .none⟩ ∧
    wordError 0x00000820 points = some ⟨.badOperand, .rd⟩ ∧
    wordError 0x00006013 points = some ⟨.badOperand, .ra⟩ ∧
    wordError 0x0010002A points = some ⟨.badOperand, .rb⟩ ∧
    wordError 0x0000A327 points = some ⟨.uninit, .ra⟩ ∧
    wordError 0x00140327 points = some ⟨.uninit, .rb⟩ ∧
    wordError 0x00000023 points = some ⟨.tag, .ra⟩ ∧
    wordError 0x00000327 points = some ⟨.tag, .rb⟩ ∧
    wordError 0x000C602A points = some ⟨.tag, .rb⟩ ∧
    wordError 0x00080327 points = none := by decide +kernel

/-- A command of each kind of destination that answers a next state, the boundary registers, and one that errs. -/
theorem witness_CommandsWriteOnly :
    (∃ t, exec (.feZero 31) points = .next t) ∧ (∃ t, exec (.ptIdent 7) points = .next t) ∧
    (∃ t, exec (.scLdl 31) points = .next t) ∧ (∃ t, exec (.scMin 0) points = .next t) ∧
    Instr.fieldDest (.feZero 31) = some 31 ∧ fieldIndex 31 ≠ 30 ∧ Instr.pointDest (.ptIdent 7) = some 7 ∧
    Instr.dataDest (.scLdl 31) = some (992, 32) ∧ Instr.writesFlag (.scLdl 31) = false ∧
    firstError (.ptIdent 8) points ≠ none := by
  refine ⟨⟨_, rfl⟩, ⟨_, rfl⟩, ⟨_, rfl⟩, ⟨_, rfl⟩, ?_⟩
  decide +kernel

/-- F[1] and F[31] valid, F[30] invalid, DATA in canonical form: for FieldConstantsLoad,
FieldMoveAndNegate, FieldAddAndSubtract, FieldMultiplyAndSquare, FieldPowersAreExact, FieldTestsWriteFlag,
FieldToBytesIsCanonical. -/
theorem witness_fields : fields.src.fReg[fieldIndex 1] = some (Fe.ofNat 5) ∧ fields.src.fReg[fieldIndex 31] = some (Fe.ofNat 7) ∧
    fields.src.fReg[fieldIndex 30] = none ∧ fields.data.wf ∧ (Fe.ofNat 5).val ≠ 0 ∧ 2 < (31 : Operand).toNat ∧
    2 < (3 : Operand).toNat := by decide +kernel

/-- FieldConstantsLoad, clause by clause: ra = 0, 1, 2 complete with d, 2d, sqrtm1, and ra = 3 is refused. -/
theorem witness_FieldConstantsLoad : (0 : Operand) = 0 ∧ (1 : Operand).toNat = 1 ∧ (2 : Operand).toNat = 2 ∧
    (run State.reset 0x00001F13).map (·.fReg[31]) = some (some Rom.d) ∧
    (run State.reset 0x00003F13).map (·.fReg[31]) = some (some Rom.d2) ∧
    (run State.reset 0x00005F13).map (·.fReg[31]) = some (some Rom.sqrtm1) ∧
    statusAfter State.reset 0x00007F13 = some 0x00002206 := by decide +kernel

/-- An entry of each tag and an EMPTY one, operands at their largest legal value, tags accepted and refused: for
PointLoadsAndMove, PointConversionsWriteTheFormulas, PointDoublingWritesTheFormula, PointMixedAdditionWritesTheFormula,
PointNegationKeepsTheTag, PointEncodeStoresCompressedBytes, DoubleScalarCommandCompletes, FixedBaseCommandCompletes. -/
theorem witness_points : points.pointEntry 7 = .ext Rom.identity ∧ points.pointEntry 0 = .ext Rom.base ∧
    points.pointEntry 1 = .compl Rom.base.toProj.dbl ∧ points.pointEntry 2 = .cached Rom.btab0 ∧
    points.pointEntry 3 = .proj Rom.base.toProj ∧ points.pointEntry 6 = .empty ∧ PReg.cached Rom.btab0 ≠ .empty ∧
    (7 : Operand).toNat ≤ 7 ∧ (31 : Operand).toNat ≤ 31 ∧ points.data.wf ∧
    (∀ tags ∈ [[3], [3, 1], [1], [1, 2]], tags.contains (points.pointEntry 2).tagCode = false) ∧
    (points.pointEntry 3).tagCode ≠ 1 ∧ (points.pointEntry 7).tagCode = 1 ∧ (points.pointEntry 0).tagCode ≠ 4 := by
  decide +kernel

/-- PointGetReadsTheStoredCoordinate: a coordinate at each end of the range, rb out of range, c3 of PROJ. -/
theorem witness_PointGet : (points.pointEntry 7).coords[(3 : Operand).toNat]? = some Fe.zero ∧
    (points.pointEntry 3).coords[(2 : Operand).toNat]? = some Fe.one ∧ 3 < (4 : Operand).toNat ∧ (3 : Operand).toNat ≤ 3 ∧
    (3 : Operand).toNat = 3 ∧ (points.pointEntry 3).tagCode = 2 := by decide +kernel

/-- For PointDecodeWritesPointAndFlag: a slot that decodes and one that does not. -/
theorem witness_PointDecode : decodePoint (fields.src.data.readBytes (32 * (4 : Operand).toNat) 32)
      = some ⟨Rom.base.x, Rom.base.y⟩ ∧
    decodePoint ((withSlot points 31 (2 ^ 256 - 1)).src.data.readBytes (32 * (31 : Operand).toNat) 32) = none := by
  decide +kernel

/-- For ScalarResultsAreExactModL, SlideCommandStoresDigits and the reduced input of ScalarOutputsAreMinimal, at the last legal
slot groups and the first refused ones. -/
theorem witness_Scalars : (withSlot State.reset 31 (2 ^ 256 - 1)).data.wf ∧ (30 : Operand).toNat ≤ 30 ∧ 30 < (31 : Operand).toNat ∧
    (24 : Operand).toNat ≤ 24 ∧ 24 < (25 : Operand).toNat ∧
    le (State.reset.src.data.readBytes (32 * (30 : Operand).toNat) 64) < Rom.L := by decide +kernel

theorem witness_ScalarOutputs : (∃ t, exec (.scMuladd 31 31 31 31) State.reset = .next t) ∧
    ∃ t, exec (.scReduce 31 30) State.reset = .next t := ⟨⟨_, rfl⟩, ⟨_, rfl⟩⟩

/-- For SlideDigitsAreBoundedAndSum: both sides of 2^255. -/
theorem witness_Slide : (leBytes 32 (2 ^ 255 - 1)).length = 32 ∧ le (leBytes 32 (2 ^ 255 - 1)) < 2 ^ 255 ∧
    (leBytes 32 (2 ^ 255)).length = 32 ∧ 2 ^ 255 ≤ le (leBytes 32 (2 ^ 255)) := by decide +kernel

theorem base_onCurve : Affine.onCurve ⟨Rom.base.x, Rom.base.y⟩ := by unfold Affine.onCurve; decide +kernel

theorem base_valid : Rom.base.valid := by unfold Ext.valid Affine.onCurve; decide +kernel

theorem identity_valid : Rom.identity.valid := by unfold Ext.valid Affine.onCurve; decide +kernel

theorem base_proj_valid : Rom.base.toProj.valid := by unfold Proj.valid Affine.onCurve; decide +kernel

theorem base_dbl_valid : Rom.base.toProj.dbl.valid := by unfold Compl.valid Affine.onCurve; decide +kernel

theorem btab0_valid : Rom.btab0.valid := ⟨Rom.base, base_valid, by decide +kernel⟩

theorem witness_AdditionLaw : Affine.onCurve ⟨Rom.base.x, Rom.base.y⟩ ∧ Affine.identity.onCurve := by
  refine ⟨base_onCurve, ?_⟩
  unfold Affine.onCurve
  decide +kernel

/-- For PointFormulasFollowTheLaw, ConversionsKeepTheAffinePoint. -/
theorem witness_PointFormulas : Rom.base.toProj.valid ∧ Rom.base.valid ∧ Rom.identity.valid ∧ Rom.btab0.valid ∧
    Rom.base.toProj.dbl.valid := ⟨base_proj_valid, base_valid, identity_valid, btab0_valid, base_dbl_valid⟩

/-- For ConversionsKeepTheAffinePoint, the encoding clause: an EXT and a PROJ entry with equal affine points. -/
theorem witness_EncodingOfEqualPoints : (points.pointEntry 0).tagCode ∈ [1, 2] ∧ (points.pointEntry 3).tagCode ∈ [1, 2] ∧
    (points.pointEntry 0).affine? = (points.pointEntry 3).affine? ∧ points.pointEntry 0 ≠ points.pointEntry 3 := by
  decide +kernel

/-- Both sides of Dec(s) = a, and the hypotheses of the round trips, at the encoding of B: for
DecodedPointIsTheEncodedOne, EncodingRoundTrips. -/
theorem witness_DecodedPoint : ∃ (s : List Byte) (a : Affine), s.length = 32 ∧ decodePoint s = some a ∧ a.onCurve ∧
    a.encode = a.encode := by
  refine ⟨leBytes 32 0x6666666666666666666666666666666666666666666666666666666666666658, ⟨Rom.base.x, Rom.base.y⟩, ?_, ?_,
    base_onCurve, rfl⟩
  · decide +kernel
  · decide +kernel

/-- For DoubleScalarFollowsTheLaw. -/
theorem witness_DoubleScalar : Rom.base.valid ∧ (leBytes 32 5).length = 32 ∧ (leBytes 32 (2 ^ 256 - 1)).length = 32 :=
  ⟨base_valid, by decide, by decide +kernel⟩

/-- Both ends of each register's word, of the DATA window and of the reserved ranges: for every bus statement. -/
theorem witness_addresses : AtWord 0x000 0 ∧ AtWord 0x003 0 ∧ AtWord 0x004 1 ∧ AtWord 0x007 1 ∧ AtWord 0x008 2 ∧ AtWord 0x00B 2 ∧
    AtWord 0x00C 3 ∧ AtWord 0x00F 3 ∧ InDataWindow 0x400 ∧ InDataWindow 0x7FF ∧ windowOffset 0x400 = 0 ∧
    windowOffset 0x7FF = 1020 ∧ (0x010 ≤ (0x010 : BusAddr).toNat ∧ ¬ InDataWindow 0x010) ∧
    (0x010 ≤ (0x3FF : BusAddr).toNat ∧ ¬ InDataWindow 0x3FF) ∧ (0x010 ≤ (0x800 : BusAddr).toNat ∧ ¬ InDataWindow 0x800) ∧
    (0x010 ≤ (0xFFF : BusAddr).toNat ∧ ¬ InDataWindow 0xFFF) ∧
    (0x400 : BusAddr).toNat / 4 = (0x403 : BusAddr).toNat / 4 ∧ (0x3FF : BusAddr).toNat < 0x400 := by
  unfold AtWord InDataWindow
  decide

/-- A busy state, an idle one, one with ERR = 1, and written words with each bit the CTRL and STATUS clauses test:
for ResetRestoresTheResetTable, StartLatchesTheCommandOrIsRefused, BusyRulesRefuseAndRecord, StatusWritesClearWhatTheyName,
RegisterReadsShowTheFields, DataWindowIsLittleEndian, InterruptFollowsCompletion. -/
theorem witness_busStates : started.busy = true ∧ State.reset.busy = false ∧ State.reset.err = false ∧
    ({ State.reset with err := true, errCode := .tag } : State).err = true ∧ State.reset.data.wf ∧
    (1 : Word).getLsbD 0 = true ∧ (1 : Word).getLsbD 1 = false ∧ (1 : Word).getLsbD 2 = false ∧ (2 : Word).getLsbD 1 = true ∧
    (3 : Word).getLsbD 1 = true ∧ (4 : Word).getLsbD 0 = false ∧ (4 : Word).getLsbD 2 = true ∧
    ({ started with agenda := [.hardReset] } : State).agenda = .hardReset :: [] := by decide +kernel

/-- HAZ and ERR cleared by a STATUS write, ERR set by a completion, CMD changed by a write. -/
theorem witness_StickyBits :
    (∃ t, step { State.reset with haz := true, err := true, errCode := .tag, agenda := [.write 0x008 0x14] } = .next t ∧
      t.haz = false ∧ t.err = false) ∧
    (∃ t, step (points.startWord 0x00000001) = .next t ∧ (points.startWord 0x00000001).err = false ∧ t.err = true) ∧
    ∃ t, step { State.reset with agenda := [.write 0x00C 1] } = .next t ∧ t.cmd ≠ State.reset.cmd := by
  refine ⟨⟨_, rfl, ?_⟩, ⟨_, rfl, ?_⟩, ⟨_, rfl, ?_⟩⟩ <;> decide +kernel

/-- For ResetStateMeetsTheInvariants. -/
theorem witness_ResetState : Memory.wf [] ∧ Memory.wf [(0, 1), (1023, 255)] := by decide

theorem points_pointsValid : points.pointsValid := by
  unfold State.pointsValid
  intro i
  match i with
  | 0 => exact base_valid
  | 1 => exact base_dbl_valid
  | 2 => exact btab0_valid
  | 3 => exact base_proj_valid
  | 4 => exact trivial
  | 5 => exact trivial
  | 6 => exact trivial
  | 7 => exact identity_valid

/-- A state with an entry of every tag and PT_ADD p4, p0, p2 in flight meets both invariants and steps: for StepKeepsTheInvariant,
StepKeepsPointsOnTheCurve. -/
theorem witness_StepKeeps : (pendingPoints 0x00080427).Inv ∧ (pendingPoints 0x00080427).pointsValid ∧
    ∃ t, step (pendingPoints 0x00080427) = .next t := by
  refine ⟨⟨?_, ?_, ?_⟩, points_pointsValid, ⟨_, rfl⟩⟩
  · decide +kernel
  · unfold State.statusOk
    decide +kernel
  · intro c hc
    cases hc
    exact ⟨rfl, rfl, rfl⟩

/-- Two different states with the same snapshot. -/
theorem witness_ExecuteReads : (pendingPoints 0).src = ({ pendingPoints 0 with flag := true, cmd := 7 } : State).src ∧
    pendingPoints 0 ≠ { pendingPoints 0 with flag := true, cmd := 7 } := by decide +kernel

/-- For the three limb statements: limbs at the stored bound, at the lazy bound and at the multiplier bound, each with its largest limbs. -/
theorem witness_Limbs :
    Limbs.carried (Vector.ofFn fun i => 11 * 2 ^ (limbWidth i - 1) / 10) ∧
    Limbs.lazyBound (Vector.ofFn fun i => -(11 * 2 ^ limbWidth i / 10)) ∧
    Limbs.mulBound (Vector.ofFn fun i => 165 * 2 ^ limbWidth i / 100) ∧ (leBytes 32 (2 ^ 256 - 1)).length = 32 := by
  unfold Limbs.carried Limbs.lazyBound Limbs.mulBound
  decide +kernel

/-- For LimbCommandsConform: a command with a program and no error, an expression at the multiplier's bound and one past
it. -/
theorem witness_LimbCommands :
    Instr.program (.ptAdd 7 0 2) (points.tagEntry (.ptAdd 7 0 2)) = some addExprs ∧ firstError (.ptAdd 7 0 2) points = none ∧
    Instr.program (.ptMov 7 3) (points.tagEntry (.ptMov 7 3)) = some [.input 0, .input 1, .input 2] ∧
    (FieldExpr.sub (.sq2 (.input 2)) (.sub (.input 1) (.input 0))).level = some 3 ∧
    FieldExpr.level (.add (.add (.input 0) (.input 0)) (.add (.input 0) (.input 0))) = none ∧
    (leBytes 32 (2 ^ 256 - 1)).length = 32 := by
  decide +kernel

/-- For LimbCommandsConform: limbs that stand for the coordinates of B. -/
theorem base_represents : List.Forall₂ Limbs.represents ([Rom.base.x, Rom.base.y, Rom.base.z, Rom.base.t].map Limbs.ofFe)
    [Rom.base.x, Rom.base.y, Rom.base.z, Rom.base.t] := by
  simp only [List.map, List.forall₂_cons, List.Forall₂.nil, and_true]
  unfold Limbs.represents Limbs.carried
  decide +kernel

/-- For ScalarDatapathMatchesTheValueRules, ScalarFoldsAndCarriesAreExact. -/
theorem witness_ScalarDatapath : (leBytes 64 (2 ^ 512 - 1)).length = 64 ∧ (leBytes 32 (2 ^ 256 - 1)).length = 32 ∧
    (12 : Nat) ≤ (12 : Fin 24).val ∧ (22 : Fin 24).val < 23 := by decide +kernel

end Sys2Proof.Tests
end

/-! ## The group law on the curve -/

namespace Sys2Proof.Laws

/-- The curve −x² + y² = 1 + d·x²y² is closed under the unified addition law, on numerators and denominators: `1 ± k` are
the denominators of the sum (43_point.md R221). -/
theorem twisted_closed {K : Type} [Field K] {d x1 y1 x2 y2 k : K}
    (hc1 : y1 ^ 2 - x1 ^ 2 = 1 + d * x1 ^ 2 * y1 ^ 2) (hc2 : y2 ^ 2 - x2 ^ 2 = 1 + d * x2 ^ 2 * y2 ^ 2)
    (hk : d * x1 * x2 * y1 * y2 = k) (hp : 1 + k ≠ 0) (hm : 1 - k ≠ 0) :
    ((y1 * y2 + x1 * x2) * (1 - k)⁻¹) ^ 2 - ((x1 * y2 + y1 * x2) * (1 + k)⁻¹) ^ 2
      = 1 + d * ((x1 * y2 + y1 * x2) * (1 + k)⁻¹) ^ 2 * ((y1 * y2 + x1 * x2) * (1 - k)⁻¹) ^ 2 := by
  have hnum : ((y1 * y2 + x1 * x2) * (1 + k)) ^ 2 - ((x1 * y2 + y1 * x2) * (1 - k)) ^ 2
      = ((1 + k) * (1 - k)) ^ 2 + d * ((x1 * y2 + y1 * x2) * (y1 * y2 + x1 * x2)) ^ 2 := by
    subst hk
    grind
  field_simp
  linear_combination hnum

theorem fact_prime_p : Fact Config.p.Prime := ⟨prime_p⟩

end Sys2Proof.Laws

namespace Sys2Proof

open Laws

theorem Fe.toZ_div_mul_cancel {a b : Fe} (h : b.toZ ≠ 0) : (a.div b).toZ * b.toZ = a.toZ := by
  have := fact_prime_p
  rw [Fe.toZ_div, mul_assoc, inv_mul_cancel₀ h, mul_one]

/-- `a / b = c` from `a = c·b` in the field. -/
theorem Fe.div_eq_of_toZ {a b c : Fe} (hb : b.toZ ≠ 0) (h : a.toZ = c.toZ * b.toZ) : a.div b = c := by
  have := fact_prime_p
  refine Fe.toZ_injective ?_
  rw [Fe.toZ_div, h, mul_assoc, mul_inv_cancel₀ hb, mul_one]

theorem Fe.toZ_ne_zero {a : Fe} : a.toZ ≠ 0 ↔ a ≠ Fe.zero := not_congr (Fe.toZ_eq_zero a)

end Sys2Proof

namespace Sys2Proof.Machine

open Laws

/-- The product d·x₁x₂y₁y₂ of the addition law's denominators. -/
def Affine.cross (a b : Affine) : ZMod Config.p := Rom.d.toZ * a.x.toZ * b.x.toZ * a.y.toZ * b.y.toZ

theorem Affine.toZ_add_x (a b : Affine) :
    (a.add b).x.toZ = (a.x.toZ * b.y.toZ + a.y.toZ * b.x.toZ) * (1 + a.cross b)⁻¹ := by
  have e : 1 + Rom.d.toZ * (a.x.toZ * b.x.toZ * (a.y.toZ * b.y.toZ)) = 1 + a.cross b := by unfold Affine.cross; ring
  simp [Affine.add, e]

theorem Affine.toZ_add_y (a b : Affine) :
    (a.add b).y.toZ = (a.y.toZ * b.y.toZ + a.x.toZ * b.x.toZ) * (1 - a.cross b)⁻¹ := by
  have e : 1 - Rom.d.toZ * (a.x.toZ * b.x.toZ * (a.y.toZ * b.y.toZ)) = 1 - a.cross b := by unfold Affine.cross; ring
  simp [Affine.add, e]

theorem Affine.add_onCurve {a b : Affine} (ha : a.onCurve) (hb : b.onCurve) : (a.add b).onCurve := by
  have := fact_prime_p
  obtain ⟨hp, hm⟩ := denominators_ne_zero a b ha hb
  rw [onCurve_iff] at ha hb ⊢
  rw [Affine.toZ_add_x, Affine.toZ_add_y]
  exact twisted_closed ha hb rfl hp hm

theorem Affine.neg_onCurve {a : Affine} (ha : a.onCurve) : a.neg.onCurve := by
  rw [onCurve_iff] at ha ⊢
  simpa [Affine.neg] using ha

theorem Affine.identity_onCurve : Affine.identity.onCurve := by
  rw [onCurve_iff]
  simp [Affine.identity]

/-! ### What a representation stands for

`r.Represents a`: the coordinates `r` are those of the curve point `a` at some scale (43_point.md R220). The formulas are
proved on it: no inversion is left in the goals. `valid` and `affine` are what the statements speak of. -/

/-- (X : Y : Z : T) with X = xZ, Y = yZ, T = xyZ (R220). -/
structure Ext.Represents (e : Ext) (a : Affine) : Prop where
  onCurve : a.onCurve
  z_ne : e.z.toZ ≠ 0
  x_eq : e.x.toZ = a.x.toZ * e.z.toZ
  y_eq : e.y.toZ = a.y.toZ * e.z.toZ
  t_eq : e.t.toZ = a.x.toZ * a.y.toZ * e.z.toZ

/-- (X : Y : Z) with X = xZ, Y = yZ (R220). -/
structure Proj.Represents (q : Proj) (a : Affine) : Prop where
  onCurve : a.onCurve
  z_ne : q.z.toZ ≠ 0
  x_eq : q.x.toZ = a.x.toZ * q.z.toZ
  y_eq : q.y.toZ = a.y.toZ * q.z.toZ

/-- (X : Y : Z : T) with X = xZ, Y = yT (R220). -/
structure Compl.Represents (c : Compl) (a : Affine) : Prop where
  onCurve : a.onCurve
  z_ne : c.z.toZ ≠ 0
  t_ne : c.t.toZ ≠ 0
  x_eq : c.x.toZ = a.x.toZ * c.z.toZ
  y_eq : c.y.toZ = a.y.toZ * c.t.toZ

/-- (Y+X, Y−X, Z, 2d·T) of an Extended point (R220). -/
structure Cached.Represents (k : Cached) (a : Affine) : Prop where
  onCurve : a.onCurve
  z_ne : k.z.toZ ≠ 0
  yPlusX_eq : k.yPlusX.toZ = (a.y.toZ + a.x.toZ) * k.z.toZ
  yMinusX_eq : k.yMinusX.toZ = (a.y.toZ - a.x.toZ) * k.z.toZ
  t2d_eq : k.t2d.toZ = 2 * Rom.d.toZ * a.x.toZ * a.y.toZ * k.z.toZ

/-! ### Representing a point is being valid with that affine point -/

theorem Ext.valid.represents {e : Ext} (h : e.valid) : e.Represents e.affine := by
  have := fact_prime_p
  obtain ⟨hz, hxy, hc⟩ := h
  have hz := Fe.toZ_ne_zero.2 hz
  have hx : e.affine.x.toZ * e.z.toZ = e.x.toZ := Fe.toZ_div_mul_cancel hz
  have hy : e.affine.y.toZ * e.z.toZ = e.y.toZ := Fe.toZ_div_mul_cancel hz
  have ht : e.x.toZ * e.y.toZ = e.z.toZ * e.t.toZ := by simpa using congrArg Fe.toZ hxy
  refine ⟨hc, hz, hx.symm, hy.symm, mul_left_cancel₀ hz ?_⟩
  rw [← ht, ← hx, ← hy]
  ring

theorem Ext.Represents.affine_eq {e : Ext} {a : Affine} (h : e.Represents a) : e.affine = a :=
  congrArg₂ Affine.mk (Fe.div_eq_of_toZ h.z_ne h.x_eq) (Fe.div_eq_of_toZ h.z_ne h.y_eq)

theorem Ext.Represents.valid {e : Ext} {a : Affine} (h : e.Represents a) : e.valid := by
  refine ⟨Fe.toZ_ne_zero.1 h.z_ne, Fe.toZ_injective ?_, h.affine_eq ▸ h.onCurve⟩
  rw [Fe.toZ_mul, Fe.toZ_mul, h.x_eq, h.y_eq, h.t_eq]
  ring

theorem Proj.valid.represents {q : Proj} (h : q.valid) : q.Represents q.affine := by
  obtain ⟨hz, hc⟩ := h
  have hz := Fe.toZ_ne_zero.2 hz
  exact ⟨hc, hz, (Fe.toZ_div_mul_cancel hz).symm, (Fe.toZ_div_mul_cancel hz).symm⟩

theorem Proj.Represents.affine_eq {q : Proj} {a : Affine} (h : q.Represents a) : q.affine = a :=
  congrArg₂ Affine.mk (Fe.div_eq_of_toZ h.z_ne h.x_eq) (Fe.div_eq_of_toZ h.z_ne h.y_eq)

theorem Proj.Represents.valid {q : Proj} {a : Affine} (h : q.Represents a) : q.valid :=
  ⟨Fe.toZ_ne_zero.1 h.z_ne, h.affine_eq ▸ h.onCurve⟩

theorem Compl.valid.represents {c : Compl} (h : c.valid) : c.Represents c.affine := by
  obtain ⟨hz, ht, hc⟩ := h
  have hz := Fe.toZ_ne_zero.2 hz
  have ht := Fe.toZ_ne_zero.2 ht
  exact ⟨hc, hz, ht, (Fe.toZ_div_mul_cancel hz).symm, (Fe.toZ_div_mul_cancel ht).symm⟩

theorem Compl.Represents.affine_eq {c : Compl} {a : Affine} (h : c.Represents a) : c.affine = a :=
  congrArg₂ Affine.mk (Fe.div_eq_of_toZ h.z_ne h.x_eq) (Fe.div_eq_of_toZ h.t_ne h.y_eq)

theorem Compl.Represents.valid {c : Compl} {a : Affine} (h : c.Represents a) : c.valid :=
  ⟨Fe.toZ_ne_zero.1 h.z_ne, Fe.toZ_ne_zero.1 h.t_ne, h.affine_eq ▸ h.onCurve⟩

theorem Ext.Represents.toCached {e : Ext} {a : Affine} (h : e.Represents a) : e.toCached.Represents a where
  onCurve := h.onCurve
  z_ne := h.z_ne
  yPlusX_eq := by simp only [Ext.toCached, Fe.toZ_add, h.x_eq, h.y_eq]; ring
  yMinusX_eq := by simp only [Ext.toCached, Fe.toZ_sub, h.x_eq, h.y_eq]; ring
  t2d_eq := by simp only [Ext.toCached, Fe.toZ_mul, Rom.toZ_d2, h.t_eq]; ring

theorem Cached.Represents.affine_eq {k : Cached} {a : Affine} (h : k.Represents a) : k.affine = a := by
  have := fact_prime_p
  have h2z : (k.z.add k.z).toZ ≠ 0 := by
    rw [Fe.toZ_add, ← two_mul]
    exact mul_ne_zero two_ne_zero_p h.z_ne
  refine congrArg₂ Affine.mk (Fe.div_eq_of_toZ h2z ?_) (Fe.div_eq_of_toZ h2z ?_)
  · simp only [Fe.toZ_add, Fe.toZ_sub, h.yPlusX_eq, h.yMinusX_eq]; ring
  · simp only [Fe.toZ_add, h.yPlusX_eq, h.yMinusX_eq]; ring

theorem Cached.valid.represents {k : Cached} (h : k.valid) : k.Represents k.affine := by
  obtain ⟨e, he, rfl⟩ := h
  have := he.represents.toCached
  rwa [this.affine_eq]

/-- The Cached form of an Extended point is determined by what it represents and its Z. -/
theorem Cached.Represents.valid {k : Cached} {a : Affine} (h : k.Represents a) : k.valid := by
  refine ⟨⟨a.x.mul k.z, a.y.mul k.z, k.z, (a.x.mul a.y).mul k.z⟩,
    Ext.Represents.valid (a := a) ⟨h.onCurve, h.z_ne, ?_, ?_, ?_⟩, ?_⟩
  · simp
  · simp
  · simp
  · obtain ⟨p, m, z, t⟩ := k
    simp only [Ext.toCached, Cached.mk.injEq, true_and]
    refine ⟨Fe.toZ_injective ?_, Fe.toZ_injective ?_, Fe.toZ_injective ?_⟩
    · rw [h.yPlusX_eq]; simp; ring
    · rw [h.yMinusX_eq]; simp; ring
    · rw [h.t2d_eq]; simp [Rom.toZ_d2]; ring

/-! ### Conversions keep the point, negations negate it (R227, R228, R229, R233) -/

theorem Ext.Represents.toProj {e : Ext} {a : Affine} (h : e.Represents a) : e.toProj.Represents a :=
  ⟨h.onCurve, h.z_ne, h.x_eq, h.y_eq⟩

theorem Ext.Represents.neg {e : Ext} {a : Affine} (h : e.Represents a) : e.neg.Represents a.neg where
  onCurve := Affine.neg_onCurve h.onCurve
  z_ne := h.z_ne
  x_eq := by simp [Ext.neg, Affine.neg, h.x_eq]
  y_eq := h.y_eq
  t_eq := by simp [Ext.neg, Affine.neg, h.t_eq]

theorem Proj.Represents.neg {q : Proj} {a : Affine} (h : q.Represents a) : q.neg.Represents a.neg where
  onCurve := Affine.neg_onCurve h.onCurve
  z_ne := h.z_ne
  x_eq := by simp [Proj.neg, Affine.neg, h.x_eq]
  y_eq := h.y_eq

theorem Compl.Represents.toExt {c : Compl} {a : Affine} (h : c.Represents a) : c.toExt.Represents a where
  onCurve := h.onCurve
  z_ne := by
    have := fact_prime_p
    rw [Compl.toExt, Fe.toZ_mul]
    exact mul_ne_zero h.z_ne h.t_ne
  x_eq := by simp only [Compl.toExt, Fe.toZ_mul, h.x_eq]; ring
  y_eq := by simp only [Compl.toExt, Fe.toZ_mul, h.y_eq]; ring
  t_eq := by simp only [Compl.toExt, Fe.toZ_mul, h.x_eq, h.y_eq]; ring

theorem Compl.Represents.toProj {c : Compl} {a : Affine} (h : c.Represents a) : c.toProj.Represents a :=
  h.toExt.toProj

theorem Affine.toExt_represents {a : Affine} (h : a.onCurve) : a.toExt.Represents a where
  onCurve := h
  z_ne := by
    have := fact_prime_p
    simp [Affine.toExt]
  x_eq := by simp [Affine.toExt]
  y_eq := by simp [Affine.toExt]
  t_eq := by simp [Affine.toExt]

/-! ### The formulas follow the addition law (R230, R231, R232) -/

/-- The shape of every point formula: numerators and denominators of the addition law, scaled by one `w`. -/
theorem Compl.represents_add (c : Compl) {a b : Affine} (ha : a.onCurve) (hb : b.onCurve) (w : ZMod Config.p)
    (hw : w ≠ 0)
    (hx : c.x.toZ = w * (a.x.toZ * b.y.toZ + a.y.toZ * b.x.toZ))
    (hy : c.y.toZ = w * (a.y.toZ * b.y.toZ + a.x.toZ * b.x.toZ))
    (hz : c.z.toZ = w * (1 + a.cross b)) (ht : c.t.toZ = w * (1 - a.cross b)) : c.Represents (a.add b) := by
  have := fact_prime_p
  obtain ⟨hp, hm⟩ : 1 + a.cross b ≠ 0 ∧ 1 - a.cross b ≠ 0 := denominators_ne_zero a b ha hb
  refine ⟨Affine.add_onCurve ha hb, hz ▸ mul_ne_zero hw hp, ht ▸ mul_ne_zero hw hm, ?_, ?_⟩
  · rw [hx, hz, Affine.toZ_add_x]; field_simp
  · rw [hy, ht, Affine.toZ_add_y]; field_simp

theorem Proj.Represents.dbl {q : Proj} {a : Affine} (h : q.Represents a) : q.dbl.Represents (a.add a) := by
  have := fact_prime_p
  have hc := (onCurve_iff a).1 h.onCurve
  refine Compl.represents_add _ h.onCurve h.onCurve (q.z.toZ ^ 2) (pow_ne_zero 2 h.z_ne) ?_ ?_ ?_ ?_ <;>
    simp only [Proj.dbl, Affine.cross, Fe.toZ_sub, Fe.toZ_add, Fe.toZ_mul, Fe.toZ_sq2, h.x_eq, h.y_eq]
  · ring
  · ring
  · linear_combination q.z.toZ ^ 2 * hc
  · linear_combination -(q.z.toZ ^ 2 * hc)

theorem Ext.Represents.add {e : Ext} {k : Cached} {a b : Affine} (he : e.Represents a) (hk : k.Represents b) :
    (e.add k).Represents (a.add b) := by
  have := fact_prime_p
  refine Compl.represents_add _ he.onCurve hk.onCurve (2 * e.z.toZ * k.z.toZ)
    (mul_ne_zero (mul_ne_zero two_ne_zero_p he.z_ne) hk.z_ne) ?_ ?_ ?_ ?_ <;>
    simp only [Ext.add, Affine.cross, Fe.toZ_sub, Fe.toZ_add, Fe.toZ_mul, he.x_eq, he.y_eq, he.t_eq, hk.yPlusX_eq,
      hk.yMinusX_eq, hk.t2d_eq] <;>
    ring

/-- Exchanging Y+X with Y−X and negating 2d·T negates a Cached point. -/
def Cached.neg (k : Cached) : Cached := ⟨k.yMinusX, k.yPlusX, k.z, k.t2d.neg⟩

theorem Cached.Represents.neg {k : Cached} {b : Affine} (h : k.Represents b) : k.neg.Represents b.neg where
  onCurve := Affine.neg_onCurve h.onCurve
  z_ne := h.z_ne
  yPlusX_eq := by simp [Cached.neg, Affine.neg, h.yMinusX_eq, sub_eq_add_neg]
  yMinusX_eq := by simp [Cached.neg, Affine.neg, h.yPlusX_eq]
  t2d_eq := by simp [Cached.neg, Affine.neg, h.t2d_eq]

/-- Mixed subtraction is mixed addition of the negated Cached point (R232). -/
theorem Ext.sub_eq_add_neg (e : Ext) (k : Cached) : e.sub k = e.add k.neg := by
  simp only [Ext.sub, Ext.add, Cached.neg, Compl.mk.injEq, true_and]
  constructor <;> refine Fe.toZ_injective ?_ <;> simp only [Fe.toZ_add, Fe.toZ_sub, Fe.toZ_mul, Fe.toZ_neg] <;> ring

theorem Ext.Represents.sub {e : Ext} {k : Cached} {a b : Affine} (he : e.Represents a) (hk : k.Represents b) :
    (e.sub k).Represents (a.add b.neg) := e.sub_eq_add_neg k ▸ he.add hk.neg

/-! ### Decoding (R236) -/

/-- The candidate the decoder accepts is a root of `v·x² = u` (R236). -/
theorem squareRootRatio_root {u v x : Fe} (h : squareRootRatio u v = some x) : v.toZ * x.toZ ^ 2 = u.toZ := by
  unfold squareRootRatio at h
  simp only at h
  split at h
  · next hu =>
    obtain rfl := Option.some.inj h
    simpa [pow_two] using congrArg Fe.toZ hu
  · split at h
    · next hu =>
      obtain rfl := Option.some.inj h
      have hu : v.toZ * ((candidateRoot u v).toZ * (candidateRoot u v).toZ) = -u.toZ := by
        simpa using congrArg Fe.toZ hu
      rw [Fe.toZ_mul]
      linear_combination v.toZ * (candidateRoot u v).toZ ^ 2 * Rom.toZ_sqrtm1_sq - hu
    · cases h

theorem decodePoint_onCurve {s : List Byte} {a : Affine} (h : decodePoint s = some a) : a.onCurve := by
  unfold decodePoint at h
  simp only at h
  split at h
  · cases h
  · split at h
    · cases h
    · next x hx =>
      have hroot := squareRootRatio_root hx
      simp only [Fe.toZ_add, Fe.toZ_sub, Fe.toZ_mul, Fe.toZ_one] at hroot
      split at h
      · cases h
      · split at h <;> cases h <;> rw [onCurve_iff]
        · linear_combination -hroot
        · rw [Fe.toZ_neg]
          linear_combination -hroot

/-! ### Scalar multiplication (44_scalar_mult.md R273–R280) -/

theorem Rom.identity_represents : Rom.identity.Represents Affine.identity :=
  Affine.toExt_represents Affine.identity_onCurve

/-- Double-and-add on representations follows double-and-add on the curve (R280). -/
theorem extMul_represents {e : Ext} {a : Affine} (h : e.Represents a) (k n : Nat) :
    (extMul e k n).Represents (a.mul k n) := by
  induction k generalizing n with
  | zero => exact Rom.identity_represents
  | succ k ih =>
    simp only [extMul, Affine.mul]
    split
    · exact Rom.identity_represents
    · have hd := (ih (n / 2)).toProj.dbl.toExt
      split
      · exact (hd.add h.toCached).toExt
      · exact hd

theorem Rom.base_affine_onCurve : Rom.base.affine.onCurve := by unfold Affine.onCurve; decide +kernel

theorem Rom.base_represents : Rom.base.Represents Rom.base.affine :=
  Ext.valid.represents ⟨by decide +kernel, by decide +kernel, Rom.base_affine_onCurve⟩

theorem baseMult_onCurve (s : List Byte) : (baseMult s).onCurve := by
  have h := (extMul_represents Rom.base_represents 256 (le s % Rom.L)).toProj
  rw [baseMult, h.affine_eq]
  exact h.onCurve

/-- The Cached form with Z = 1 of an affine point, as the ROM lists it (R274). -/
def Affine.toCached (a : Affine) : Cached :=
  ⟨a.y.add a.x, a.y.sub a.x, Fe.one, ((Fe.ofNat 2).mul Rom.d).mul (a.x.mul a.y)⟩

theorem Affine.toCached_represents {a : Affine} (h : a.onCurve) : a.toCached.Represents a where
  onCurve := h
  z_ne := by
    have := fact_prime_p
    simp [Affine.toCached]
  yPlusX_eq := by simp [Affine.toCached]
  yMinusX_eq := by simp [Affine.toCached]
  t2d_eq := by
    have h2 : (Fe.ofNat 2).toZ = 2 := Fe.toZ_ofNat 2
    simp [Affine.toCached, h2]; ring

theorem Rom.btab_eq : Rom.btab = Rom.base.affine.oddMultiples.map Affine.toCached := by decide +kernel

theorem oddMultiplesFrom_represents {e2 : Ext} {a2 a : Affine} {k : Cached} (h2 : e2.Represents a2)
    (hk : k.Represents a) (n : Nat) :
    List.Forall₂ Cached.Represents (oddMultiplesFrom e2 n k) (Affine.oddMultiplesFrom a2 n a) := by
  induction n generalizing k a with
  | zero => exact .cons hk .nil
  | succ n ih => exact .cons hk (ih (h2.add hk).toExt.toCached)

theorem oddMultiples_represents {e : Ext} {a : Affine} (h : e.Represents a) :
    List.Forall₂ Cached.Represents (oddMultiples e) a.oddMultiples :=
  oddMultiplesFrom_represents h.toProj.dbl.toExt h.toCached 7

theorem Affine.oddMultiplesFrom_onCurve {a2 a : Affine} (h2 : a2.onCurve) (h : a.onCurve) (n : Nat) :
    ∀ b ∈ Affine.oddMultiplesFrom a2 n a, b.onCurve := by
  induction n generalizing a with
  | zero => simpa [Affine.oddMultiplesFrom] using h
  | succ n ih => exact List.forall_mem_cons.2 ⟨h, ih (Affine.add_onCurve h2 h)⟩

theorem Rom.btab_represents : List.Forall₂ Cached.Represents Rom.btab Rom.base.affine.oddMultiples := by
  rw [Rom.btab_eq, List.forall₂_map_left_iff, List.forall₂_same]
  exact fun a ha => Affine.toCached_represents
    (Affine.oddMultiplesFrom_onCurve (Affine.add_onCurve Rom.base_affine_onCurve Rom.base_affine_onCurve)
      Rom.base_affine_onCurve 7 a ha)

theorem tableEntry_represents {ks : List Cached} {as : List Affine} (h : List.Forall₂ Cached.Represents ks as) (m : Nat) :
    (tableEntry ks m).Represents (as.getD (m / 2) Affine.identity) := by
  unfold tableEntry
  generalize m / 2 = j
  induction h generalizing j with
  | nil => exact Rom.identity_represents.toCached
  | cons hk _ ih =>
    cases j with
    | zero => exact hk
    | succ j => exact ih j

theorem addDigit_represents {ks : List Cached} {as : List Affine} (h : List.Forall₂ Cached.Represents ks as) (digit : Int)
    {c : Compl} {r : Affine} (hc : c.Represents r) : (addDigit ks digit c).Represents (Affine.addDigit as digit r) := by
  simp only [addDigit, Affine.addDigit]
  have hk := tableEntry_represents h digit.natAbs
  split
  · exact hc.toExt.add hk
  · split
    · exact hc.toExt.sub hk
    · exact hc

theorem doubleScalarStep_represents {ks : List Cached} {as : List Affine} (h : List.Forall₂ Cached.Represents ks as)
    (digits : Int × Int) {q : Proj} {r : Affine} (hq : q.Represents r) :
    (doubleScalarStep ks q digits).Represents (Affine.doubleScalarStep as Rom.base.affine.oddMultiples r digits) :=
  (addDigit_represents Rom.btab_represents digits.2 (addDigit_represents h digits.1 hq.dbl)).toProj

theorem foldl_doubleScalarStep_represents {ks : List Cached} {as : List Affine}
    (h : List.Forall₂ Cached.Represents ks as) (ds : List (Int × Int)) {q : Proj} {r : Affine} (hq : q.Represents r) :
    (ds.foldl (doubleScalarStep ks) q).Represents
      (ds.foldl (Affine.doubleScalarStep as Rom.base.affine.oddMultiples) r) := by
  induction ds generalizing q r with
  | nil => exact hq
  | cons d ds ih => exact ih (doubleScalarStep_represents h d hq)

/-- `DS(a, A, b)` follows the digit loop of the affine law (R275). -/
theorem doubleScalarMult_represents {e : Ext} {pt : Affine} (h : e.Represents pt) (a b : List Byte) :
    (doubleScalarMult a e b).Represents ((digitPairs a b).foldl
      (Affine.doubleScalarStep pt.oddMultiples Rom.base.affine.oddMultiples) Affine.identity) :=
  foldl_doubleScalarStep_represents (oddMultiples_represents h) _ Rom.identity_represents.toProj

/-! ## The checks of a command (60_exceptions.md R330–R336) -/

/-- The error `e` where the test `c` fails a command, none where it does not. -/
def errorIf (c : Bool) (e : CmdError) : Option CmdError := if c then some e else none

/-- A check answers a value that satisfies `P` where `err` is none, and the error of `err` otherwise. -/
def Checks {α : Type} (P : α → Prop) (err : Option CmdError) : Except CmdError α → Prop
  | .ok a => err = none ∧ P a
  | .error e => err = some e

/-- Checks run in order: the first that fails gives the error (R332). -/
theorem Checks.bind {α β : Type} {Q : α → Prop} {P : β → Prop} {e₁ e₂ : Option CmdError} {x : Except CmdError α}
    {f : α → Except CmdError β} (hx : Checks Q e₁ x) (hf : ∀ a, Q a → Checks P e₂ (f a)) :
    Checks P (e₁.or e₂) (x >>= f) := by
  cases x with
  | ok a =>
    obtain ⟨rfl, ha⟩ := hx
    exact hf a ha
  | error e =>
    cases hx
    rfl

theorem Checks.map {α β : Type} {Q : α → Prop} {P : β → Prop} {err : Option CmdError} {x : Except CmdError α}
    {g : α → β} (hx : Checks Q err x) (hg : ∀ a, Q a → P (g a)) : Checks P err (do let a ← x; pure (g a)) := by
  rw [← Option.or_none (o := err)]
  exact hx.bind fun a ha => ⟨rfl, hg a ha⟩

theorem checks_inRange {n : Nat} {cls : OperandClass} (o : Operand) (fld : ErrField) (hn : n = cls.limit + 1) :
    Checks (fun k : Fin n => k.val = o.toNat) (errorIf (!(UsedOperand.legal ⟨fld, cls, o⟩)) ⟨.badOperand, fld⟩)
      (inRange n o fld) := by
  by_cases h : o.toNat < n
  · have hl : o.toNat ≤ cls.limit := by omega
    simp [inRange_ok n o fld h, Checks, errorIf, UsedOperand.legal, hl]
  · have hl : ¬ o.toNat ≤ cls.limit := by omega
    simp [inRange_error n o fld h, Checks, errorIf, UsedOperand.legal, hl]

theorem checks_readField (s : State) (o : Operand) (fld : ErrField) :
    Checks (fun _ => True) (errorIf (s.uninitAt ⟨fld, .fs, o⟩) ⟨.uninit, fld⟩) (s.readField o fld) := by
  cases h : s.src.fReg[fieldIndex o] with
  | none => simp [readField_none s o fld h, Checks, errorIf, State.uninitAt, h]
  | some v => simp [readField_some s o fld v h, Checks, errorIf, State.uninitAt, h]

theorem pointEntry_of_index (s : State) {o : Operand} {i : Fin Config.pointRegs} (hi : i.val = o.toNat) :
    s.pointEntry o = s.src.pReg[i] := by
  have h : o.toNat < 8 := hi ▸ i.isLt
  simp only [State.pointEntry, h, dif_pos, Fin.getElem_fin, hi]

theorem checks_readPoint (s : State) {o : Operand} {i : Fin Config.pointRegs} (hi : i.val = o.toNat) (fld : ErrField) :
    Checks (fun r => r = s.pointEntry o ∧ r ≠ .empty) (errorIf (s.uninitAt ⟨fld, .ps, o⟩) ⟨.uninit, fld⟩)
      (s.readPoint i fld) := by
  have he := pointEntry_of_index s hi
  by_cases h : s.src.pReg[i] = .empty
  · simp [readPoint_empty s i fld h, Checks, errorIf, State.uninitAt, he, h]
  · rw [readPoint_ok s i fld h, ← he]
    rw [← he] at h
    simp [Checks, errorIf, State.uninitAt, h]

/-! ### What a completion promises -/

/-- A write stays within the command's destination (10_state.md R34, R37, R44; 20_memory.md R71), and a point it writes is
valid where every point the command can read is (R36). -/
def Write.Sound (i : Instr) (s : State) : Write → Prop
  | .field k _ => ∃ rd, i.fieldDest = some rd ∧ fieldIndex rd = k
  | .point k v =>
    (∃ rd, i.pointDest = some rd ∧ rd.toNat = k.val) ∧ ((∀ j : Fin Config.pointRegs, s.src.pReg[j].valid) → v.valid)
  | .data off bytes => i.dataDest = some (off, bytes.length) ∧ off + bytes.length ≤ Config.dataSize
  | .flag _ => i.writesFlag = true

/-- The completion of a command on a result: the first error of the priority list, or else sound writes (R330, R332). -/
def Completes (i : Instr) (s : State) (o : Host.Outcome State Fault Refusal) : Prop :=
  ∃ r : Result, o = finish r s ∧ Checks (fun ws => ∀ w ∈ ws, w.Sound i s) (firstError i s) r

end Sys2Proof.Machine

namespace Sys2Proof

open Machine

/-- The classes on which no check can fail: field destinations and single slots, at any of their 32 values. -/
def OperandClass.free : OperandClass → Bool
  | .fd => true
  | .sd => true
  | .ss => true
  | _ => false

/-- The operands of a command that a check looks at. -/
def Instr.checked (i : Instr) : List UsedOperand := i.operands.filter fun o => !o.cls.free

theorem UsedOperand.legal_of_limit {o : UsedOperand} (h : o.cls.limit = 31) : o.legal = true := by
  have hv := o.value.isLt
  simp only [UsedOperand.legal, h, decide_eq_true_eq]
  omega

theorem UsedOperand.legal_of_free {o : UsedOperand} (h : o.cls.free = true) : o.legal = true :=
  UsedOperand.legal_of_limit (by revert h; cases o.cls <;> decide)

theorem uninitAt_of_not_source (s : State) {o : UsedOperand} (h : o.cls ≠ .fs ∧ o.cls ≠ .ps) : s.uninitAt o = false := by
  unfold State.uninitAt
  split
  · next hf => exact absurd hf h.1
  · next hp => exact absurd hp h.2
  · rfl

theorem uninitAt_of_free (s : State) {o : UsedOperand} (h : o.cls.free = true) : s.uninitAt o = false :=
  uninitAt_of_not_source s (by revert h; cases o.cls <;> decide)

/-- Only point sources have accepted tags (R334). -/
theorem acceptedTags_of_not_point (i : Instr) : ∀ o ∈ i.operands, o.cls ≠ .ps → i.acceptedTags o.field = none := by
  cases i <;> simp [Instr.operands, Instr.acceptedTags]

theorem tagRefusedAt_of_none (s : State) {i : Instr} {fld : ErrField} (h : i.acceptedTags fld = none) (cls : OperandClass)
    (o : Operand) : s.tagRefusedAt i ⟨fld, cls, o⟩ = false := by simp only [State.tagRefusedAt, h]

theorem tagRefusedAt_of_some (s : State) {i : Instr} {fld : ErrField} {tags : List (BitVec 3)}
    (h : i.acceptedTags fld = some tags) (cls : OperandClass) (o : Operand) :
    s.tagRefusedAt i ⟨fld, cls, o⟩ = !(tags.contains (s.pointEntry o).tagCode) := by simp only [State.tagRefusedAt, h]

/-! ### The error tables on a list of operands -/

/-- `firstAt` on a list of operands. -/
def firstIn (code : ErrCode) (test : UsedOperand → Bool) (os : List UsedOperand) : Option CmdError :=
  (os.find? test).map fun o => ⟨code, o.field⟩

@[simp] theorem errorIf_false (e : CmdError) : errorIf false e = none := rfl

@[simp] theorem firstIn_nil (code : ErrCode) (test : UsedOperand → Bool) : firstIn code test [] = none := rfl

@[simp] theorem firstIn_cons (code : ErrCode) (test : UsedOperand → Bool) (o : UsedOperand) (os : List UsedOperand) :
    firstIn code test (o :: os) = (errorIf (test o) ⟨code, o.field⟩).or (firstIn code test os) := by
  cases h : test o <;> simp [firstIn, errorIf, h]

/-- A test that no free operand satisfies looks at the checked operands only. -/
theorem firstAt_eq_firstIn_checked {code : ErrCode} {test : UsedOperand → Bool} {i : Instr}
    (h : ∀ o ∈ i.operands, o.cls.free = true → test o = false) : firstAt code test i = firstIn code test i.checked := by
  rw [firstIn, Instr.checked, List.find?_filter, firstAt]
  refine congrArg _ (List.find?_congr fun o ho => ?_)
  cases hf : o.cls.free
  · simp
  · simp [h o ho hf]

/-- The first error of a command, from its checked operands (R332). -/
theorem firstError_eq (s : State) {i : Instr} {os : List UsedOperand} (hos : i.checked = os) :
    firstError i s = (firstIn .badOperand (fun o => !o.legal) os).or
      ((firstIn .uninit s.uninitAt os).or ((firstIn .tag (s.tagRefusedAt i) os).or
        (errorIf (s.missingCoord i) ⟨.tag, .rb⟩))) := by
  have hfree : ∀ o ∈ i.operands, o.cls.free = true → s.tagRefusedAt i o = false := fun o ho hf =>
    tagRefusedAt_of_none s (acceptedTags_of_not_point i o ho (by rintro h; simp [h, OperandClass.free] at hf)) o.cls o.value
  rw [firstError, firstAt_eq_firstIn_checked (fun o _ hf => by rw [UsedOperand.legal_of_free hf]; rfl),
    firstAt_eq_firstIn_checked (fun o _ hf => uninitAt_of_free s hf), firstAt_eq_firstIn_checked hfree, hos]
  rfl

end Sys2Proof

namespace Sys2Proof.Machine

/-! ### What each check of an operand tests and answers -/

@[simp] theorem legal_fs (fld : ErrField) (o : Operand) : UsedOperand.legal ⟨fld, .fs, o⟩ = true :=
  UsedOperand.legal_of_limit rfl

@[simp] theorem uninitAt_pd (s : State) (fld : ErrField) (o : Operand) : s.uninitAt ⟨fld, .pd, o⟩ = false := rfl

@[simp] theorem uninitAt_c (s : State) (fld : ErrField) (o : Operand) : s.uninitAt ⟨fld, .c, o⟩ = false := rfl

theorem pointEntry_valid (s : State) (h : ∀ j : Fin Config.pointRegs, s.src.pReg[j].valid) (o : Operand) :
    (s.pointEntry o).valid := by
  unfold State.pointEntry
  split
  · next ho => exact h ⟨o.toNat, ho⟩
  · trivial

theorem checks_asExt {r : PReg} (hr : r ≠ .empty) (fld : ErrField) :
    Checks (fun x => r = .ext x) (errorIf (!([1].contains r.tagCode)) ⟨.tag, fld⟩) (r.asExt fld) := by
  cases r with
  | empty => contradiction
  | ext x => exact ⟨rfl, rfl⟩
  | _ => rfl

theorem checks_asCompl {r : PReg} (hr : r ≠ .empty) (fld : ErrField) :
    Checks (fun x => r = .compl x) (errorIf (!([3].contains r.tagCode)) ⟨.tag, fld⟩) (r.asCompl fld) := by
  cases r with
  | empty => contradiction
  | compl x => exact ⟨rfl, rfl⟩
  | _ => rfl

theorem checks_asCached {r : PReg} (hr : r ≠ .empty) (fld : ErrField) :
    Checks (fun x => r = .cached x) (errorIf (!([4].contains r.tagCode)) ⟨.tag, fld⟩) (r.asCached fld) := by
  cases r with
  | empty => contradiction
  | cached x => exact ⟨rfl, rfl⟩
  | _ => rfl

theorem checks_asXyz {r : PReg} (hr : r ≠ .empty) (fld : ErrField) :
    Checks (fun q => r.valid → q.valid) (errorIf (!([1, 2].contains r.tagCode)) ⟨.tag, fld⟩) (r.asXyz fld) := by
  cases r with
  | empty => contradiction
  | ext e => exact ⟨rfl, fun h => h.represents.toProj.valid⟩
  | proj q => exact ⟨rfl, id⟩
  | _ => rfl

theorem checks_coord {r : PReg} (hr : r ≠ .empty) {j : Fin 4} {o : Operand} (hj : j.val = o.toNat) (fld : ErrField) :
    Checks (fun _ => True) (errorIf (o == 3 && r.tagCode == 2) ⟨.tag, fld⟩) (r.coord j fld) := by
  have ho : o = BitVec.ofNat 5 j.val := by rw [hj]; simp
  subst ho
  cases r with
  | empty => contradiction
  | _ => fin_cases j <;> simp [PReg.coord, PReg.tagCode, Checks, errorIf]

/-! ### The shapes of the commands -/

section
variable {i : Instr} (s : State) {rd ra rb : Operand}

/-- The commands that check nothing. -/
theorem completes_unchecked {ws : List Write} (hops : i.checked = []) (hcoord : s.missingCoord i = false)
    (hw : ∀ w ∈ ws, w.Sound i s) : Completes i s (finish (.ok ws) s) := by
  refine ⟨_, rfl, ?_, hw⟩
  simp [firstError_eq s hops, hcoord]

/-- The commands whose one check is the range of an operand. -/
theorem completes_range {α : Type} {Q : α → Prop} {check : Except CmdError α} {g : α → List Write} {x : UsedOperand}
    (hops : i.checked = [x]) (hx : x.cls ≠ .fs ∧ x.cls ≠ .ps) (hcoord : s.missingCoord i = false)
    (htag : i.acceptedTags x.field = none) (hcheck : Checks Q (errorIf (!x.legal) ⟨.badOperand, x.field⟩) check)
    (hw : ∀ a, Q a → ∀ w ∈ g a, w.Sound i s) : Completes i s (finish (do let a ← check; pure (g a)) s) := by
  have herr : firstError i s = errorIf (!x.legal) ⟨.badOperand, x.field⟩ := by
    simp [firstError_eq s hops, hcoord, uninitAt_of_not_source s hx, tagRefusedAt_of_none s htag x.cls x.value]
  exact ⟨_, rfl, herr ▸ hcheck.map hw⟩

/-- The commands whose one check is the validity of F[ra]. -/
theorem completes_field {g : Fe → Write} (hops : i.checked = [⟨.ra, .fs, ra⟩]) (hcoord : s.missingCoord i = false)
    (htag : i.acceptedTags .ra = none) (hw : ∀ a, (g a).Sound i s) :
    Completes i s (finish (do let a ← s.readField ra .ra; pure [g a]) s) := by
  have herr : firstError i s = errorIf (s.uninitAt ⟨.ra, .fs, ra⟩) ⟨.uninit, .ra⟩ := by
    simp [firstError_eq s hops, hcoord, tagRefusedAt_of_none, htag]
  exact ⟨_, rfl, herr ▸ (checks_readField s ra .ra).map fun a _ => List.forall_mem_singleton.2 (hw a)⟩

/-- The commands that check the validity of F[ra], then of F[rb]. -/
theorem completes_fieldBinary {f : Fe → Fe → Fe} (hops : i.checked = [⟨.ra, .fs, ra⟩, ⟨.rb, .fs, rb⟩])
    (hcoord : s.missingCoord i = false) (hta : i.acceptedTags .ra = none) (htb : i.acceptedTags .rb = none)
    (hdest : i.fieldDest = some rd) : Completes i s (fieldBinary f rd ra rb s) := by
  refine ⟨_, rfl, ?_⟩
  simp only [firstError_eq s hops, hcoord, firstIn_cons, firstIn_nil, legal_fs, Bool.not_true,
    tagRefusedAt_of_none s hta, tagRefusedAt_of_none s htb, errorIf_false, Option.or_none, Option.none_or]
  exact (checks_readField s ra .ra).bind fun a _ => (checks_readField s rb .rb).map fun b _ =>
    List.forall_mem_singleton.2 ⟨rd, hdest, rfl⟩

/-- The commands from P[ra] to P[rd]: both ranges, EMPTY, then the tags `f` accepts. -/
theorem completes_pointUnary {f : PReg → Except CmdError PReg} {tags : List (BitVec 3)}
    (hops : i.checked = [⟨.rd, .pd, rd⟩, ⟨.ra, .ps, ra⟩]) (hcoord : s.missingCoord i = false)
    (htd : i.acceptedTags .rd = none) (hta : i.acceptedTags .ra = some tags) (hdest : i.pointDest = some rd)
    (hf : ∀ r, r ≠ .empty → Checks (fun v => r.valid → v.valid) (errorIf (!(tags.contains r.tagCode)) ⟨.tag, .ra⟩) (f r)) :
    Completes i s (pointUnary f rd ra s) := by
  refine ⟨_, rfl, ?_⟩
  simp only [firstError_eq s hops, hcoord, firstIn_cons, firstIn_nil, uninitAt_pd, tagRefusedAt_of_none s htd,
    tagRefusedAt_of_some s hta, errorIf_false, Option.or_none, Option.none_or, Option.or_assoc]
  refine (checks_inRange rd .rd rfl).bind fun d hd => (checks_inRange ra .ra rfl).bind fun a ha =>
    (checks_readPoint s ha .ra).bind fun r hr => ?_
  obtain ⟨rfl, hne⟩ := hr
  exact (hf _ hne).map fun v hv =>
    List.forall_mem_singleton.2 ⟨⟨rd, hdest, hd.symm⟩, fun hs => hv (pointEntry_valid s hs ra)⟩

/-- PT_ADD and PT_SUB: three ranges, EMPTY in either source, then the two tags (R231). -/
theorem completes_pointMixed {f : Ext → Cached → Compl}
    (hops : i.checked = [⟨.rd, .pd, rd⟩, ⟨.ra, .ps, ra⟩, ⟨.rb, .ps, rb⟩]) (hcoord : s.missingCoord i = false)
    (htd : i.acceptedTags .rd = none) (hta : i.acceptedTags .ra = some [1]) (htb : i.acceptedTags .rb = some [4])
    (hdest : i.pointDest = some rd) (hf : ∀ e k, e.valid → k.valid → (f e k).valid) :
    Completes i s (pointMixed f rd ra rb s) := by
  refine ⟨_, rfl, ?_⟩
  simp only [firstError_eq s hops, hcoord, firstIn_cons, firstIn_nil, uninitAt_pd, tagRefusedAt_of_none s htd,
    tagRefusedAt_of_some s hta, tagRefusedAt_of_some s htb, errorIf_false, Option.or_none, Option.none_or, Option.or_assoc]
  refine (checks_inRange rd .rd rfl).bind fun d hd => (checks_inRange ra .ra rfl).bind fun a ha =>
    (checks_inRange rb .rb rfl).bind fun b hb => (checks_readPoint s ha .ra).bind fun r hr =>
      (checks_readPoint s hb .rb).bind fun r' hr' => ?_
  obtain ⟨rfl, hne⟩ := hr
  obtain ⟨rfl, hne'⟩ := hr'
  refine (checks_asExt hne .ra).bind fun e he => (checks_asCached hne' .rb).map fun k hk =>
    List.forall_mem_singleton.2 ⟨⟨rd, hdest, hd.symm⟩, fun hs => ?_⟩
  have hve : (PReg.ext e).valid := he ▸ pointEntry_valid s hs ra
  have hvk : (PReg.cached k).valid := hk ▸ pointEntry_valid s hs rb
  exact hf e k hve hvk

theorem completes_ptGet (rd ra rb : Operand) : Completes (.ptGet rd ra rb) s (execPtGet rd ra rb s) := by
  have hops : (Instr.ptGet rd ra rb).checked = [⟨.ra, .ps, ra⟩, ⟨.rb, .c, rb⟩] := rfl
  have hta : (Instr.ptGet rd ra rb).acceptedTags .ra = some [1, 2, 3, 4] := rfl
  have htb : (Instr.ptGet rd ra rb).acceptedTags .rb = none := rfl
  refine ⟨_, rfl, ?_⟩
  simp only [firstError_eq s hops, firstIn_cons, firstIn_nil, uninitAt_c, tagRefusedAt_of_none s htb,
    tagRefusedAt_of_some s hta, errorIf_false, Option.or_none, Option.or_assoc]
  refine (checks_inRange ra .ra rfl).bind fun a ha => (checks_inRange rb .rb rfl).bind fun j hj =>
    (checks_readPoint s ha .ra).bind fun r hr => ?_
  obtain ⟨rfl, hne⟩ := hr
  have htag : (!([1, 2, 3, 4].contains (s.pointEntry ra).tagCode)) = false := by
    revert hne
    cases s.pointEntry ra <;> simp [PReg.tagCode]
  rw [htag]
  exact (checks_coord hne hj .rb).map fun v _ => List.forall_mem_singleton.2 ⟨rd, rfl, rfl⟩

theorem slotOffset_in_data (o : Operand) : slotOffset o + 32 ≤ Config.dataSize := by
  have := o.isLt
  unfold slotOffset Config.dataSize
  omega

theorem Write.sound_slot {bytes : List Byte} (hdest : i.dataDest = some (slotOffset rd, 32)) (hlen : bytes.length = 32) :
    (Write.data (slotOffset rd) bytes).Sound i s :=
  ⟨hlen ▸ hdest, hlen ▸ slotOffset_in_data rd⟩

theorem Affine.encode_length (a : Affine) : a.encode.length = 32 := by
  simp [Affine.encode, Fe.toBytes]

theorem completes_ptEnc (rd ra : Operand) : Completes (.ptEnc rd ra) s (execPtEnc rd ra s) := by
  have hops : (Instr.ptEnc rd ra).checked = [⟨.ra, .ps, ra⟩] := rfl
  have hta : (Instr.ptEnc rd ra).acceptedTags .ra = some [1, 2] := rfl
  have hcoord : s.missingCoord (.ptEnc rd ra) = false := rfl
  refine ⟨_, rfl, ?_⟩
  simp only [firstError_eq s hops, hcoord, firstIn_cons, firstIn_nil, tagRefusedAt_of_some s hta, errorIf_false,
    Option.or_none]
  refine (checks_inRange ra .ra rfl).bind fun a ha => (checks_readPoint s ha .ra).bind fun r hr => ?_
  obtain ⟨rfl, hne⟩ := hr
  exact (checks_asXyz hne .ra).map fun q _ =>
    List.forall_mem_singleton.2 (Write.sound_slot s rfl q.affine.encode_length)

end

/-! ### The digits of a scalar (44_scalar_mult.md R270) -/

theorem borrowWalk_length (r : List Int) : (borrowWalk r).length = r.length := by
  induction r with
  | nil => rfl
  | cons d rest ih =>
    simp only [borrowWalk]
    split <;> simp [ih]

theorem absorb_length (n : Nat) (w digit : Int) (rest : List Int) : (absorb n w digit rest).2.length = rest.length := by
  induction n generalizing w digit rest with
  | zero => rfl
  | succ n ih =>
    cases rest with
    | nil => rfl
    | cons r rest =>
      simp only [absorb]
      split
      · simp [ih]
      · split
        · simp [ih]
        · split
          · simp [ih, borrowWalk_length]
          · rfl

theorem recode_length (n : Nat) (r : List Int) : (recode n r).length = r.length := by
  induction n generalizing r with
  | zero => rfl
  | succ n ih =>
    cases r with
    | nil => rfl
    | cons digit rest =>
      simp only [recode]
      split
      · simp [ih]
      · simp [ih, absorb_length]

theorem slide_length (s : List Byte) : (slide s).length = 256 := by
  simp [slide, recode_length, scalarBits]

theorem checks_slotPairOffset (o : Operand) (fld : ErrField) :
    Checks (fun off => off = slotOffset o) (errorIf (!(UsedOperand.legal ⟨fld, .ss2, o⟩)) ⟨.badOperand, fld⟩)
      (slotPairOffset o fld) :=
  (checks_inRange o fld rfl).map fun _ hk => congrArg (32 * ·) hk

theorem checks_slotOctetOffset (o : Operand) (fld : ErrField) :
    Checks (fun off => off = slotOffset o ∧ off + 256 ≤ Config.dataSize)
      (errorIf (!(UsedOperand.legal ⟨fld, .sd8, o⟩)) ⟨.badOperand, fld⟩) (slotOctetOffset o fld) :=
  (checks_inRange (n := 25) o fld rfl).map fun k hk => by
    have hlt := k.isLt
    exact ⟨congrArg (32 * ·) hk, by simp only [Config.dataSize]; omega⟩

/-- PT_DSMUL has the shape of a point command with one source (44_scalar_mult.md R276). -/
theorem execPtDsmul_eq_pointUnary (rd ra rb rc : Operand) (s : State) :
    execPtDsmul rd ra rb rc s = pointUnary (fun r => do
      let e ← r.asExt .ra
      pure (.proj (doubleScalarMult (s.slot rb) e (s.slot rc)))) rd ra s := by
  simp [execPtDsmul, pointUnary]

/-- Every command, by its shape: its error is the first of the priority list, and its writes are sound. -/
theorem exec_completes (i : Instr) (s : State) : Completes i s (exec i s) := by
  cases i with
  | nop => exact completes_unchecked s rfl rfl (by simp)
  | feZero rd => exact completes_unchecked s rfl rfl (List.forall_mem_singleton.2 ⟨rd, rfl, rfl⟩)
  | feOne rd => exact completes_unchecked s rfl rfl (List.forall_mem_singleton.2 ⟨rd, rfl, rfl⟩)
  | feFrombytes rd ra => exact completes_unchecked s rfl rfl (List.forall_mem_singleton.2 ⟨rd, rfl, rfl⟩)
  | feLdc rd ra =>
    exact completes_range s (x := ⟨.ra, .k, ra⟩) rfl ⟨nofun, nofun⟩ rfl rfl (checks_inRange ra .ra rfl)
      fun k _ => List.forall_mem_singleton.2 ⟨rd, rfl, rfl⟩
  | feMov rd ra => exact completes_field s rfl rfl rfl fun _ => ⟨rd, rfl, rfl⟩
  | feNeg rd ra => exact completes_field s rfl rfl rfl fun _ => ⟨rd, rfl, rfl⟩
  | feSq rd ra => exact completes_field s rfl rfl rfl fun _ => ⟨rd, rfl, rfl⟩
  | feSq2 rd ra => exact completes_field s rfl rfl rfl fun _ => ⟨rd, rfl, rfl⟩
  | feInv rd ra => exact completes_field s rfl rfl rfl fun _ => ⟨rd, rfl, rfl⟩
  | fePow22523 rd ra => exact completes_field s rfl rfl rfl fun _ => ⟨rd, rfl, rfl⟩
  | feIsneg ra => exact completes_field s rfl rfl rfl fun _ => rfl
  | feIsnz ra => exact completes_field s rfl rfl rfl fun _ => rfl
  | feTobytes rd ra => exact completes_field s rfl rfl rfl fun a => Write.sound_slot s rfl (leBytes_length 32 a.val)
  | feAdd rd ra rb => exact completes_fieldBinary s rfl rfl rfl rfl rfl
  | feSub rd ra rb => exact completes_fieldBinary s rfl rfl rfl rfl rfl
  | feMul rd ra rb => exact completes_fieldBinary s rfl rfl rfl rfl rfl
  | ptIdent rd =>
    exact completes_range s (x := ⟨.rd, .pd, rd⟩) rfl ⟨nofun, nofun⟩ rfl rfl (checks_inRange rd .rd rfl)
      fun d hd => List.forall_mem_singleton.2 ⟨⟨rd, rfl, hd.symm⟩, fun _ => Rom.identity_represents.valid⟩
  | ptLdb rd =>
    exact completes_range s (x := ⟨.rd, .pd, rd⟩) rfl ⟨nofun, nofun⟩ rfl rfl (checks_inRange rd .rd rfl)
      fun d hd => List.forall_mem_singleton.2 ⟨⟨rd, rfl, hd.symm⟩, fun _ => Rom.base_represents.valid⟩
  | ptSmulb rd ra =>
    exact completes_range s (x := ⟨.rd, .pd, rd⟩) rfl ⟨nofun, nofun⟩ rfl rfl (checks_inRange rd .rd rfl)
      fun d hd => List.forall_mem_singleton.2
        ⟨⟨rd, rfl, hd.symm⟩, fun _ => (Affine.toExt_represents (baseMult_onCurve _)).valid⟩
  | ptDec rd ra =>
    refine completes_range s (x := ⟨.rd, .pd, rd⟩) rfl ⟨nofun, nofun⟩ rfl rfl (checks_inRange rd .rd rfl) fun d hd => ?_
    cases h : decodePoint (s.slot ra) with
    | none => exact List.forall_mem_cons.2 ⟨⟨⟨rd, rfl, hd.symm⟩, fun _ => trivial⟩, List.forall_mem_singleton.2 rfl⟩
    | some a =>
      exact List.forall_mem_cons.2 ⟨⟨⟨rd, rfl, hd.symm⟩, fun _ => (Affine.toExt_represents (decodePoint_onCurve h)).valid⟩,
        List.forall_mem_singleton.2 rfl⟩
  | ptMov rd ra =>
    refine completes_pointUnary s (tags := [1, 2, 3, 4]) rfl rfl rfl rfl rfl fun r hr => ?_
    cases r with
    | empty => contradiction
    | _ => exact ⟨rfl, id⟩
  | ptToext rd ra =>
    refine completes_pointUnary s rfl rfl rfl rfl rfl fun r hr => (checks_asCompl hr .ra).map fun c hc hv => ?_
    subst hc
    exact hv.represents.toExt.valid
  | ptToproj rd ra =>
    refine completes_pointUnary s (tags := [3, 1]) rfl rfl rfl rfl rfl fun r hr => ?_
    cases r with
    | empty => contradiction
    | ext e => exact ⟨rfl, fun hv => hv.represents.toProj.valid⟩
    | compl c => exact ⟨rfl, fun hv => hv.represents.toProj.valid⟩
    | _ => rfl
  | ptTocached rd ra =>
    refine completes_pointUnary s rfl rfl rfl rfl rfl fun r hr => (checks_asExt hr .ra).map fun e he hv => ?_
    subst he
    exact hv.represents.toCached.valid
  | ptDbl rd ra =>
    exact completes_pointUnary s rfl rfl rfl rfl rfl fun r hr => (checks_asXyz hr .ra).map fun q hq hv =>
      (hq hv).represents.dbl.valid
  | ptNeg rd ra =>
    refine completes_pointUnary s (tags := [1, 2]) rfl rfl rfl rfl rfl fun r hr => ?_
    cases r with
    | empty => contradiction
    | ext e => exact ⟨rfl, fun hv => hv.represents.neg.valid⟩
    | proj q => exact ⟨rfl, fun hv => hv.represents.neg.valid⟩
    | _ => rfl
  | ptAdd rd ra rb =>
    exact completes_pointMixed s rfl rfl rfl rfl rfl rfl fun e k he hk => (he.represents.add hk.represents).valid
  | ptSub rd ra rb =>
    exact completes_pointMixed s rfl rfl rfl rfl rfl rfl fun e k he hk => (he.represents.sub hk.represents).valid
  | ptDsmul rd ra rb rc =>
    rw [exec, execPtDsmul_eq_pointUnary]
    refine completes_pointUnary s rfl rfl rfl rfl rfl fun r hr => (checks_asExt hr .ra).map fun e he hv => ?_
    subst he
    exact (doubleScalarMult_represents hv.represents _ _).valid
  | ptGet rd ra rb => exact completes_ptGet s rd ra rb
  | ptEnc rd ra => exact completes_ptEnc s rd ra
  | scMuladd rd ra rb rc =>
    exact completes_unchecked s rfl rfl (List.forall_mem_singleton.2 (Write.sound_slot s rfl (leBytes_length 32 _)))
  | scReduce rd ra =>
    exact completes_range s (x := ⟨.ra, .ss2, ra⟩) rfl ⟨nofun, nofun⟩ rfl rfl (checks_slotPairOffset ra .ra)
      fun off _ => List.forall_mem_singleton.2 (Write.sound_slot s rfl (leBytes_length 32 _))
  | scMin ra => exact completes_unchecked s rfl rfl (List.forall_mem_singleton.2 rfl)
  | scLdl rd =>
    exact completes_unchecked s rfl rfl (List.forall_mem_singleton.2 (Write.sound_slot s rfl (leBytes_length 32 _)))
  | scSlide rd ra =>
    refine completes_range s (x := ⟨.rd, .sd8, rd⟩) rfl ⟨nofun, nofun⟩ rfl rfl (checks_slotOctetOffset rd .rd)
      fun off hoff => List.forall_mem_singleton.2 ?_
    obtain ⟨rfl, hin⟩ := hoff
    have hlen : (digitBytes (slide (s.slot ra))).length = 256 := by simp [digitBytes, slide_length]
    exact ⟨by rw [hlen]; rfl, by rw [hlen]; exact hin⟩

/-! ### What a completion can do -/

/-- A command either reports its first error or makes sound writes (R132, R330, R332). -/
theorem exec_cases (i : Instr) (s : State) :
    (∃ e, firstError i s = some e ∧ exec i s = .next (s.raiseError e)) ∨
      (firstError i s = none ∧ ∃ ws, exec i s = .next (s.applyWrites ws).complete ∧ ∀ w ∈ ws, w.Sound i s) := by
  obtain ⟨r, hr, hc⟩ := exec_completes i s
  cases r with
  | error e => exact .inl ⟨e, hc, hr⟩
  | ok ws => exact .inr ⟨hc.1, ws, hr, hc.2⟩

/-- The same of a latched word, ILLEGAL_CMD included (R335). -/
theorem runWord_cases (w : Word) (s : State) :
    (∃ e, wordError w s = some e ∧ runWord w s = .next (s.raiseError e)) ∨
      (wordError w s = none ∧ ∃ i ws, decode w = some i ∧ runWord w s = .next (s.applyWrites ws).complete ∧
        ∀ w ∈ ws, w.Sound i s) := by
  unfold wordError runWord
  cases hd : decode w with
  | none => exact .inl ⟨_, rfl, rfl⟩
  | some i =>
    rcases exec_cases i s with h | ⟨he, ws, h, hw⟩
    · exact .inl h
    · exact .inr ⟨he, i, ws, rfl, h, hw⟩

/-- What the sequencer's turn can do: nothing while idle, else the completion of the latched word (R132, R347). -/
theorem sequencerTurn_runWord_cases {s t : State} (h : sequencerTurn s = .next t) :
    (s.pending = none ∧ t = s) ∨ ∃ c, s.pending = some c ∧ runWord c.word s = .next t := by
  unfold sequencerTurn at h
  split at h
  · next c hc => exact .inr ⟨c, hc, h⟩
  · next hc => exact .inl ⟨hc, by simpa using h.symm⟩

theorem firstAt_code {code : ErrCode} {test : UsedOperand → Bool} {i : Instr} {e : CmdError}
    (h : firstAt code test i = some e) : e.code = code := by
  obtain ⟨o, -, rfl⟩ := Option.map_eq_some_iff.1 h
  rfl

/-- An error has a code (R331). -/
theorem wordError_code_ne_none {w : Word} {s : State} {e : CmdError} (h : wordError w s = some e) : e.code ≠ .none := by
  unfold wordError at h
  split at h
  · cases h
    nofun
  · rw [firstError, Option.or_eq_some_iff, Option.or_eq_some_iff, Option.or_eq_some_iff] at h
    rcases h with h | ⟨-, h | ⟨-, h | ⟨-, h⟩⟩⟩
    · simp [firstAt_code h]
    · simp [firstAt_code h]
    · simp [firstAt_code h]
    · split at h
      · cases h
        nofun
      · cases h

/-- What every write of a command keeps, the command keeps. -/
theorem applyWrites_induction {Q : State → Prop} {ws : List Write} (hw : ∀ w ∈ ws, ∀ t, Q t → Q (t.applyWrite w))
    {s : State} (hs : Q s) : Q (s.applyWrites ws) := by
  induction ws generalizing s with
  | nil => exact hs
  | cons w ws ih =>
    rw [List.forall_mem_cons] at hw
    exact ih hw.2 (hw.1 s hs)

theorem applyWrites_preserves {α : Type} (view : State → α) {ws : List Write}
    (hw : ∀ w ∈ ws, ∀ t : State, view (t.applyWrite w) = view t) (s : State) : view (s.applyWrites ws) = view s :=
  applyWrites_induction (Q := fun t => view t = view s) (fun w h t ht => (hw w h t).trans ht) rfl

/-- No write reaches these fields. -/
theorem applyWrites_preserves_control (s : State) (ws : List Write) :
    (s.applyWrites ws).cmd = s.cmd ∧ (s.applyWrites ws).irqEn = s.irqEn ∧ (s.applyWrites ws).haz = s.haz ∧
      (s.applyWrites ws).err = s.err ∧ (s.applyWrites ws).errCode = s.errCode ∧ (s.applyWrites ws).errField = s.errField ∧
      (s.applyWrites ws).agenda = s.agenda ∧ (s.applyWrites ws).rdata = s.rdata := by
  simpa only [Prod.mk.injEq] using applyWrites_preserves
    (fun t => (t.cmd, t.irqEn, t.haz, t.err, t.errCode, t.errField, t.agenda, t.rdata)) (ws := ws)
    (fun w _ t => by cases w <;> rfl) s

/-! ### The machine invariant (R45, R46, R81, R133) -/

theorem State.Inv.with_agenda {s : State} (h : s.Inv) (rest : List Turn) : State.Inv { s with agenda := rest } :=
  ⟨h.dataWf, h.statusOk, h.pendingOk⟩

theorem State.pendingOk_of_idle {s : State} (h : s.pending = none) : s.pendingOk := fun c hc => by simp [h] at hc

theorem Memory.wf_applyWrites {i : Instr} {s : State} {ws : List Write} (hw : ∀ w ∈ ws, w.Sound i s) (h : s.data.wf) :
    (s.applyWrites ws).data.wf := by
  refine applyWrites_induction (Q := fun t => t.data.wf) (fun w hmem t ht => ?_) h
  have hsound := hw w hmem
  cases w with
  | data off bytes => exact Memory.writeBytes_wf _ _ _ ht hsound.2
  | _ => exact ht

theorem runWord_inv {w : Word} {s t : State} (h : s.Inv) (hrun : runWord w s = .next t) : t.Inv := by
  rcases runWord_cases w s with ⟨e, he, heq⟩ | ⟨-, i, ws, -, heq, hw⟩ <;> rw [heq] at hrun <;> cases hrun
  · exact ⟨h.dataWf, ⟨nofun, fun _ => wordError_code_ne_none he⟩, State.pendingOk_of_idle rfl⟩
  · obtain ⟨-, -, -, herr, hcode, hfield, -⟩ := applyWrites_preserves_control s ws
    refine ⟨Memory.wf_applyWrites hw h.dataWf, ?_, State.pendingOk_of_idle rfl⟩
    simpa [State.statusOk, herr, hcode, hfield] using h.statusOk

theorem sequencerTurn_inv {s t : State} (h : s.Inv) (hturn : sequencerTurn s = .next t) : t.Inv := by
  rcases sequencerTurn_runWord_cases hturn with ⟨-, rfl⟩ | ⟨c, -, hrun⟩
  · exact h
  · exact runWord_inv h hrun

theorem busRead_inv {s : State} (h : s.Inv) (a : BusAddr) : (busRead a s).Inv := by
  obtain ⟨hdata, hstatus, hpending⟩ := h
  rcases busRead_cases a s with heq | ⟨-, heq⟩ <;> rw [heq] <;> exact ⟨hdata, hstatus, hpending⟩

theorem resetCore_inv {s : State} (h : s.Inv) : s.resetCore.Inv :=
  ⟨h.dataWf, ⟨fun _ => ⟨rfl, rfl⟩, nofun⟩, State.pendingOk_of_idle rfl⟩

theorem writeStatus_inv {s : State} (h : s.Inv) (d : Word) : (writeStatus d s).Inv := by
  obtain ⟨hdata, hstatus, hpending⟩ := h
  rw [writeStatus_eq]
  refine ⟨hdata, ?_, fun c hc => ?_⟩
  · cases h2 : d.getLsbD 2
    · simpa [State.statusOk, h2] using hstatus
    · simp [State.statusOk]
  · obtain ⟨hsnap, hdone, herr⟩ := hpending c hc
    exact ⟨hsnap, by simp [hdone], by simp [herr]⟩

theorem busWrite_inv {s : State} (h : s.Inv) (a : BusAddr) (d : Word) : (busWrite a d s).Inv := by
  obtain ⟨hdata, hstatus, hpending⟩ := h
  rcases busWrite_cases a d s with heq | ⟨-, -, heq⟩ | ⟨-, -, heq⟩ | ⟨-, -, heq⟩ | ⟨-, -, -, herr, heq⟩ | ⟨-, heq⟩ | ⟨-, heq⟩ |
    ⟨-, -, heq⟩ | ⟨hwin, hidle, heq⟩ <;> rw [heq]
  · exact ⟨hdata, hstatus, hpending⟩
  · exact resetCore_inv ⟨hdata, hstatus, hpending⟩
  · exact ⟨hdata, hstatus, hpending⟩
  · exact ⟨hdata, hstatus, hpending⟩
  · refine ⟨hdata, hstatus, fun c hc => ?_⟩
    cases hc
    exact ⟨rfl, rfl, herr⟩
  · exact writeStatus_inv ⟨hdata, hstatus, hpending⟩ d
  · exact ⟨hdata, hstatus, hpending⟩
  · exact ⟨hdata, hstatus, hpending⟩
  · have hoff := (busTarget_data_inv a _ (busTarget_data a hwin)).2
    refine ⟨Memory.writeWord_wf _ _ d hdata hoff, hstatus, State.pendingOk_of_idle ?_⟩
    simpa [State.busy] using hidle

/-- Settles O52, by the turn that the step takes. -/
theorem stepKeepsTheInvariant : Obligations.StepKeepsTheInvariant := by
  intro s t h hstep
  rcases step_cases s t hstep with ⟨-, hturn⟩ | ⟨rest, -, hturn⟩ | ⟨a, rest, -, rfl⟩ | ⟨a, d, rest, -, rfl⟩ | ⟨rest, -, rfl⟩
  · exact sequencerTurn_inv h hturn
  · exact sequencerTurn_inv (h.with_agenda rest) hturn
  · exact busRead_inv (h.with_agenda rest) a
  · exact busWrite_inv (h.with_agenda rest) a d
  · exact resetCore_inv (h.with_agenda rest)

/-! ### Points on the curve (R36) -/

theorem pointsValid_applyWrites {i : Instr} {s : State} {ws : List Write} (hw : ∀ w ∈ ws, w.Sound i s)
    (hsrc : s.src.pReg = s.pReg) (h : s.pointsValid) : (s.applyWrites ws).pointsValid := by
  refine applyWrites_induction (fun w hmem t ht => ?_) h
  have hsound := hw w hmem
  cases w with
  | point k v =>
    intro j
    by_cases hj : k.val = j.val
    · simpa [hj] using hsound.2 (by rw [hsrc]; exact h)
    · simpa [hj] using ht j
  | _ => exact ht

theorem runWord_pointsValid {w : Word} {s t : State} (hsrc : s.src.pReg = s.pReg) (h : s.pointsValid)
    (hrun : runWord w s = .next t) : t.pointsValid := by
  rcases runWord_cases w s with ⟨e, -, heq⟩ | ⟨-, i, ws, -, heq, hw⟩ <;> rw [heq] at hrun <;> cases hrun
  · exact h
  · exact pointsValid_applyWrites hw hsrc h

theorem State.Inv.src_eq_live {s : State} (h : s.Inv) : s.src = s.live := by
  cases hp : s.pending with
  | none => exact s.src_of_idle hp
  | some c => rw [s.src_of_pending c hp, (h.pendingOk c hp).1]

theorem sequencerTurn_pointsValid {s t : State} (hinv : s.Inv) (h : s.pointsValid) (hturn : sequencerTurn s = .next t) :
    t.pointsValid := by
  rcases sequencerTurn_runWord_cases hturn with ⟨-, rfl⟩ | ⟨c, -, hrun⟩
  · exact h
  · exact runWord_pointsValid (congrArg Snapshot.pReg hinv.src_eq_live) h hrun

theorem busRead_pReg (a : BusAddr) (s : State) : (busRead a s).pReg = s.pReg := by
  rcases busRead_cases a s with heq | ⟨-, heq⟩ <;> rw [heq]

theorem resetCore_pointsValid (s : State) : s.resetCore.pointsValid := fun i => by
  simp [State.resetCore_pReg, PReg.valid]

/-- A host write leaves the point registers, except a soft reset. -/
theorem busWrite_pReg (a : BusAddr) (d : Word) (s : State) :
    busWrite a d s = s.resetCore ∨ (busWrite a d s).pReg = s.pReg := by
  rcases busWrite_cases a d s with heq | ⟨-, -, heq⟩ | ⟨-, -, heq⟩ | ⟨-, -, heq⟩ | ⟨-, -, -, -, heq⟩ | ⟨-, heq⟩ | ⟨-, heq⟩ |
    ⟨-, -, heq⟩ | ⟨-, -, heq⟩
  · exact .inr (by rw [heq])
  · exact .inl heq
  · exact .inr (by rw [heq])
  · exact .inr (by rw [heq])
  · exact .inr (by rw [heq, State.start_pReg])
  · exact .inr (by rw [heq, writeStatus_eq])
  · exact .inr (by rw [heq, State.hazard_pReg])
  · exact .inr (by rw [heq])
  · exact .inr (by rw [heq])

/-- Settles O53, by the turn that the step takes; the completion of a command is `exec_completes`. -/
theorem stepKeepsPointsOnTheCurve : Obligations.StepKeepsPointsOnTheCurve := by
  intro s t hinv h hstep
  rcases step_cases s t hstep with ⟨-, hturn⟩ | ⟨rest, -, hturn⟩ | ⟨a, rest, -, rfl⟩ | ⟨a, d, rest, -, rfl⟩ | ⟨rest, -, rfl⟩
  · exact sequencerTurn_pointsValid hinv h hturn
  · exact sequencerTurn_pointsValid (hinv.with_agenda rest) h hturn
  · unfold State.pointsValid
    rw [busRead_pReg]
    exact h
  · rcases busWrite_pReg a d { s with agenda := rest } with heq | heq
    · exact heq ▸ resetCore_pointsValid _
    · unfold State.pointsValid
      rw [heq]
      exact h
  · exact resetCore_pointsValid _

/-! ### What a command leaves alone (R34, R37, R44, R71, R84) -/

theorem fReg_applyWrites {i : Instr} {s : State} {ws : List Write} (hw : ∀ w ∈ ws, w.Sound i s) {k : Fin Config.fieldRegs}
    (hk : ∀ rd, i.fieldDest = some rd → fieldIndex rd ≠ k) : (s.applyWrites ws).fReg[k] = s.fReg[k] := by
  refine applyWrites_preserves (fun t => t.fReg[k]) (fun w hmem t => ?_) s
  have hsound := hw w hmem
  cases w with
  | field j v =>
    obtain ⟨rd, hrd, rfl⟩ := hsound
    have hne : (fieldIndex rd).val ≠ k.val := fun h => hk rd hrd (Fin.ext h)
    simp [hne]
  | _ => rfl

theorem pReg_applyWrites {i : Instr} {s : State} {ws : List Write} (hw : ∀ w ∈ ws, w.Sound i s) {k : Fin Config.pointRegs}
    (hk : ∀ rd, i.pointDest = some rd → rd.toNat ≠ k.val) : (s.applyWrites ws).pReg[k] = s.pReg[k] := by
  refine applyWrites_preserves (fun t => t.pReg[k]) (fun w hmem t => ?_) s
  have hsound := hw w hmem
  cases w with
  | point j v =>
    obtain ⟨⟨rd, hrd, hj⟩, -⟩ := hsound
    have hne : j.val ≠ k.val := hj ▸ hk rd hrd
    simp [hne]
  | _ => rfl

theorem data_read_applyWrites {i : Instr} {s : State} {ws : List Write} (hw : ∀ w ∈ ws, w.Sound i s) {a : Nat}
    (ha : ∀ off n, i.dataDest = some (off, n) → a < off ∨ off + n ≤ a) :
    (s.applyWrites ws).data.read a = s.data.read a := by
  refine applyWrites_preserves (fun t => t.data.read a) (fun w hmem t => ?_) s
  have hsound := hw w hmem
  cases w with
  | data off bytes => exact Memory.read_writeBytes_other _ _ _ _ (ha off bytes.length hsound.1)
  | _ => rfl

theorem flag_applyWrites {i : Instr} {s : State} {ws : List Write} (hw : ∀ w ∈ ws, w.Sound i s) (hf : i.writesFlag = false) :
    (s.applyWrites ws).flag = s.flag := by
  refine applyWrites_preserves State.flag (fun w hmem t => ?_) s
  have hsound := hw w hmem
  cases w with
  | flag b => exact absurd hsound (by simp [Write.Sound, hf])
  | _ => rfl

/-- Settles O9, by the two ways a command completes. -/
theorem commandsWriteOnlyTheirDestinations : Obligations.CommandsWriteOnlyTheirDestinations := by
  intro i s t hexec
  rcases exec_cases i s with ⟨e, -, heq⟩ | ⟨hnone, ws, heq, hw⟩ <;> rw [heq] at hexec <;> cases hexec
  · simp
  · obtain ⟨hcmd, hirqEn, hhaz, -, -, -, hagenda, hrdata⟩ := applyWrites_preserves_control s ws
    exact ⟨fun k hk => fReg_applyWrites hw hk, fun k hk => pReg_applyWrites hw hk, fun a ha => data_read_applyWrites hw ha,
      flag_applyWrites hw, hcmd, hirqEn, hhaz, hagenda, hrdata, rfl, rfl, fun h => absurd hnone h⟩

/-! ## Host transactions (R39–R48) -/

/-! ### A CTRL write, case by case (R41, R131) -/

theorem writeCtrl_reset {d : Word} {s : State} (h1 : d.getLsbD 1 = true) : writeCtrl d s = s.resetCore := by
  simp only [writeCtrl, h1, if_true]

theorem writeCtrl_load {d : Word} {s : State} (h1 : d.getLsbD 1 = false) (h0 : d.getLsbD 0 = false) :
    writeCtrl d s = { s with irqEn := d.getLsbD 2 } := by
  simp only [writeCtrl, h1, h0, Bool.false_eq_true, if_false]

theorem writeCtrl_refused {d : Word} {s : State} (h1 : d.getLsbD 1 = false) (h0 : d.getLsbD 0 = true)
    (h : s.busy = true ∨ s.err = true) : writeCtrl d s = { s with irqEn := d.getLsbD 2, haz := true } := by
  have hor : (s.busy || s.err) = true := by simpa using h
  rw [writeCtrl, if_neg (by simp only [h1, Bool.false_eq_true, not_false_eq_true]), if_pos h0]
  exact if_pos hor

theorem writeCtrl_start {d : Word} {s : State} (h1 : d.getLsbD 1 = false) (h0 : d.getLsbD 0 = true) (hb : s.busy = false)
    (he : s.err = false) : writeCtrl d s = State.start { s with irqEn := d.getLsbD 2 } := by
  have hor : ¬ (s.busy || s.err) = true := by simp [hb, he]
  rw [writeCtrl, if_neg (by simp only [h1, Bool.false_eq_true, not_false_eq_true]), if_pos h0]
  exact if_neg hor

theorem writeCtrl_irqEn {d : Word} {s : State} (h1 : d.getLsbD 1 = false) : (writeCtrl d s).irqEn = d.getLsbD 2 := by
  simp only [writeCtrl, h1, Bool.false_eq_true, if_false]
  split
  · split <;> rfl
  · rfl

/-! ### Registers and their words (R40, R41, R42) -/

theorem busWrite_ctrl {a : BusAddr} (ha : AtWord a 1) (d : Word) (s : State) : busWrite a d s = writeCtrl d s := by
  simp only [busWrite, busTarget_ctrl a ha]

theorem busWrite_status {a : BusAddr} (ha : AtWord a 2) (d : Word) (s : State) : busWrite a d s = writeStatus d s := by
  simp only [busWrite, busTarget_status a ha]

theorem ctrlWord_eq (s : State) : s.ctrlWord = if s.irqEn then 4 else 0 := by
  unfold State.ctrlWord
  cases s.irqEn <;> rfl

theorem ctrlWord_bit (s : State) (k : Nat) : s.ctrlWord.getLsbD k = (decide (k = 2) && s.irqEn) := by
  have h4 : (4 : Word).getLsbD k = decide (k = 2) := by
    rw [show (4 : Word) = BitVec.twoPow 32 2 from rfl, BitVec.getLsbD_twoPow]
    by_cases h : k = 2 <;> simp [h, eq_comm]
  rw [ctrlWord_eq]
  cases s.irqEn
  · simp
  · simpa using h4

theorem resetCore_statusWord (s : State) : s.resetCore.statusWord = 0 := by
  simp [State.statusWord, ErrField.bits, ErrCode.bits]

/-- Settles O43, field by field of the reset table. -/
theorem resetRestoresTheResetTable : Obligations.ResetRestoresTheResetTable := by
  intro s
  refine ⟨⟨fun k => ?_, fun k => ?_, rfl, rfl, rfl, resetCore_statusWord s, ctrlWord_eq _, rfl, rfl, rfl, rfl⟩,
    fun a d ha hd => ?_, fun rest ha => ?_, fun m => ⟨rfl, rfl⟩⟩
  · simp
  · simp
  · rw [busWrite_ctrl ha, writeCtrl_reset hd]
  · simp only [step, ha]

/-- Settles O44, by the cases of a CTRL write. -/
theorem startLatchesTheCommandOrIsRefused : Obligations.StartLatchesTheCommandOrIsRefused := by
  refine ⟨fun s a d ha h1 => ?_, fun s a d ha => ⟨fun h1 => ⟨?_, rfl⟩, s.ctrlWord, ?_, ctrlWord_bit s⟩⟩
  · rw [busWrite_ctrl ha]
    exact ⟨fun h0 hbusy => writeCtrl_refused h1 h0 hbusy, fun h0 hbusy herr => writeCtrl_start h1 h0 hbusy herr,
      fun h0 => writeCtrl_load h1 h0⟩
  · rw [busWrite_ctrl ha, writeCtrl_reset h1]
  · simp only [busRead, busReadEffect, busReadValue, busTarget_ctrl a ha]

/-- Settles O46: the write is `writeStatus_eq`, and what it leaves meets the conditions of an accepted START. -/
theorem statusWritesClearWhatTheyName : Obligations.StatusWritesClearWhatTheyName := by
  intro s a d ha
  rw [busWrite_status ha, writeStatus_eq]
  refine ⟨rfl, fun h2 hidle => ?_⟩
  rw [busWrite_ctrl (rfl : AtWord 0x004 1), writeCtrl_start (by decide) (by decide) ?_ ?_]
  · rfl
  · exact hidle
  · simp [h2]

theorem statusWord_bits (s : State) : s.statusWord.getLsbD 0 = s.busy ∧ s.statusWord.getLsbD 1 = s.done ∧
    s.statusWord.getLsbD 2 = s.err ∧ s.statusWord.getLsbD 3 = s.flag ∧ s.statusWord.getLsbD 4 = s.haz := by
  simp only [State.statusWord, BitVec.getLsbD_append]
  simp

theorem statusWord_fields (s : State) : s.statusWord.extractLsb' 5 3 = 0 ∧ s.statusWord.extractLsb' 8 4 = s.errCode.bits ∧
      s.statusWord.extractLsb' 12 3 = s.errField.bits ∧ s.statusWord.extractLsb' 15 17 = 0 := by
  refine ⟨?_, ?_, ?_, ?_⟩ <;> refine BitVec.eq_of_getLsbD_eq fun i hi => ?_ <;>
    simp only [State.statusWord, BitVec.getLsbD_extractLsb', BitVec.getLsbD_append, hi] <;>
    interval_cases i <;> simp

theorem busRead_of_register {a : BusAddr} {s : State} (h : ∀ off, busTarget a ≠ .data off) :
    busRead a s = { s with rdata := busReadValue a s } := by
  unfold busRead busReadEffect
  split
  · next off ho => exact absurd ho (h off)
  · rfl

/-- Settles O47, register by register. -/
theorem registerReadsShowTheFields : Obligations.RegisterReadsShowTheFields := by
  intro s a d
  refine ⟨fun ha => ?_, fun ha => ?_, fun ha => ?_, fun ha => ?_, fun hlow hwin => ?_⟩
  · have ht := busTarget_id a ha
    rw [busRead_of_register (by simp [ht])]
    simp only [busReadValue, busWrite, ht, idWord, and_self]
  · have ht := busTarget_ctrl a ha
    rw [busRead_of_register (by simp [ht])]
    simp only [busReadValue, ht, ctrlWord_eq]
  · have ht := busTarget_status a ha
    obtain ⟨h0, h1, h2, h3, h4⟩ := statusWord_bits s
    refine ⟨s.statusWord, ?_, h0, h1, h2, h3, h4, statusWord_fields s⟩
    rw [busRead_of_register (by simp [ht])]
    simp only [busReadValue, ht]
  · have ht := busTarget_cmd a ha
    rw [busRead_of_register (by simp [ht])]
    refine ⟨?_, fun hb => ?_, fun hb => ?_⟩
    · simp only [busReadValue, ht]
    · simp [busWrite, ht, writeCmd, hb]
    · simp [busWrite, ht, writeCmd, hb, State.hazard]
  · have ht := busTarget_reserved a hlow hwin
    rw [busRead_of_register (by simp [ht])]
    simp only [busReadValue, busWrite, ht, and_self]

/-- Settles O49: DONE is 1 after every completion, and each clause of the fall clears DONE or IRQ_EN. -/
theorem interruptFollowsCompletion : Obligations.InterruptFollowsCompletion := by
  refine ⟨fun s => rfl, fun w s => ?_, fun s a d => ⟨fun ha h1 => ?_, fun ha h2 => ?_, fun ha h0 hb he => ?_, rfl⟩⟩
  · rcases runWord_cases w s with ⟨e, -, heq⟩ | ⟨-, i, ws, -, heq, -⟩
    · exact ⟨_, heq, by simp [State.irq]⟩
    · obtain ⟨-, hirqEn, -⟩ := applyWrites_preserves_control s ws
      exact ⟨_, heq, by simp [State.irq, hirqEn]⟩
  · rw [busWrite_status ha, writeStatus_eq]
    simp only [State.irq, h1, Bool.not_true, Bool.and_false]
  · rw [busWrite_ctrl ha]
    cases h1 : d.getLsbD 1 with
    | true => rw [writeCtrl_reset h1]; rfl
    | false => simp only [State.irq, writeCtrl_irqEn h1, h2, Bool.false_and]
  · rw [busWrite_ctrl ha]
    cases h1 : d.getLsbD 1 with
    | true => rw [writeCtrl_reset h1]; rfl
    | false =>
      rw [writeCtrl_start h1 h0 hb he]
      simp [State.irq]

/-! ### HAZ, ERR and CMD over a step (R43, R46, R47, R84) -/

/-- Of the host's writes only a soft reset, a STATUS write and a CMD write can clear HAZ or change ERR or CMD. -/
theorem busWrite_sticky_cases (a : BusAddr) (d : Word) (s : State) :
    (AtWord a 1 ∧ d.getLsbD 1 = true ∧ busWrite a d s = s.resetCore) ∨ (AtWord a 2 ∧ busWrite a d s = writeStatus d s) ∨
      (AtWord a 3 ∧ busWrite a d s = { s with cmd := d }) ∨
      ((s.haz = true → (busWrite a d s).haz = true) ∧ (busWrite a d s).err = s.err ∧ (busWrite a d s).cmd = s.cmd) := by
  rcases busWrite_cases a d s with heq | h | ⟨-, -, heq⟩ | ⟨-, -, heq⟩ | ⟨-, -, -, -, heq⟩ | h | ⟨-, heq⟩ | ⟨ha, -, heq⟩ |
    ⟨-, -, heq⟩
  · exact .inr (.inr (.inr (by simp [heq])))
  · exact .inl h
  · exact .inr (.inr (.inr (by simp [heq])))
  · exact .inr (.inr (.inr (by simp [heq])))
  · exact .inr (.inr (.inr (by simp [heq])))
  · exact .inr (.inl h)
  · exact .inr (.inr (.inr (by simp [heq])))
  · exact .inr (.inr (.inl ⟨ha, heq⟩))
  · exact .inr (.inr (.inr (by simp [heq])))

/-- What the host wrote where a write clears HAZ or ERR or changes CMD; no write sets ERR (R43, R46, R47). -/
theorem busWrite_sticky (a : BusAddr) (d : Word) (s : State) :
    (s.haz = true → (busWrite a d s).haz = false →
      (AtWord a 2 ∧ d.getLsbD 4 = true) ∨ (AtWord a 1 ∧ d.getLsbD 1 = true)) ∧
    (s.err = true → (busWrite a d s).err = false →
      (AtWord a 2 ∧ d.getLsbD 2 = true) ∨ (AtWord a 1 ∧ d.getLsbD 1 = true)) ∧
    (s.err = false → (busWrite a d s).err = false) ∧
    ((busWrite a d s).cmd ≠ s.cmd → AtWord a 3 ∨ (AtWord a 1 ∧ d.getLsbD 1 = true)) := by
  rcases busWrite_sticky_cases a d s with ⟨ha, h1, heq⟩ | ⟨ha, heq⟩ | ⟨ha, heq⟩ | ⟨hhaz, herr, hcmd⟩
  · rw [heq]
    exact ⟨fun _ _ => .inr ⟨ha, h1⟩, fun _ _ => .inr ⟨ha, h1⟩, fun _ => rfl, fun _ => .inr ⟨ha, h1⟩⟩
  · rw [heq, writeStatus_eq]
    refine ⟨fun h h' => .inl ⟨ha, ?_⟩, fun h h' => .inl ⟨ha, ?_⟩, fun h => ?_, fun h => absurd rfl h⟩
    · simpa [h] using h'
    · simpa [h] using h'
    · simp [h]
  · rw [heq]
    exact ⟨fun h h' => by simp [h] at h', fun h h' => by simp [h] at h', fun h => h, fun _ => .inl ha⟩
  · rw [herr]
    exact ⟨fun h h' => by simp [hhaz h] at h', fun h h' => by simp [h] at h', fun h => h, fun h => absurd hcmd h⟩

/-- The sequencer keeps HAZ and CMD, and changes ERR only by an erroring completion. -/
theorem sequencerTurn_sticky {s t : State} (h : sequencerTurn s = .next t) :
    t.haz = s.haz ∧ t.cmd = s.cmd ∧
      (t.err = s.err ∨ (t.err = true ∧ ∃ c e, s.pending = some c ∧ wordError c.word s = some e)) := by
  rcases sequencerTurn_runWord_cases h with ⟨-, rfl⟩ | ⟨c, hc, hrun⟩
  · exact ⟨rfl, rfl, .inl rfl⟩
  · rcases runWord_cases c.word s with ⟨e, he, heq⟩ | ⟨-, i, ws, -, heq, -⟩ <;> rw [heq] at hrun <;> cases hrun
    · exact ⟨rfl, rfl, .inr ⟨rfl, c, e, hc, he⟩⟩
    · obtain ⟨hcmd, -, hhaz, herr, -⟩ := applyWrites_preserves_control s ws
      exact ⟨hhaz, hcmd, .inl herr⟩

theorem step_sequencer_sticky {s t : State} (hseq : s.agenda = [] ∨ ∃ rest, s.agenda = .sequencer :: rest)
    (h : step s = .next t) : t.haz = s.haz ∧ t.cmd = s.cmd ∧
      (t.err = s.err ∨ (t.err = true ∧ ∃ c e, s.pending = some c ∧ wordError c.word s = some e)) := by
  rcases hseq with ha | ⟨rest, ha⟩ <;> simp only [step, ha] at h
  · exact sequencerTurn_sticky h
  · exact sequencerTurn_sticky (s := { s with agenda := rest }) h

theorem busRead_sticky (a : BusAddr) (s : State) :
    (s.haz = true → (busRead a s).haz = true) ∧ (busRead a s).err = s.err ∧ (busRead a s).cmd = s.cmd := by
  rcases busRead_cases a s with heq | ⟨-, heq⟩ <;> rw [heq]
  · exact ⟨id, rfl, rfl⟩
  · exact ⟨fun _ => rfl, rfl, rfl⟩

/-- Settles O50, by the turn that the step takes. -/
theorem stickyBitsAndCmdChangeOnlyByTheHost : Obligations.StickyBitsAndCmdChangeOnlyByTheHost := by
  intro s t hstep
  by_cases hseq : s.agenda = [] ∨ ∃ rest, s.agenda = .sequencer :: rest
  · obtain ⟨hhaz, hcmd, herr⟩ := step_sequencer_sticky hseq hstep
    refine ⟨fun h h' => ?_, fun h h' => ?_, fun h h' => ?_, fun h => absurd hcmd h⟩
    · simp [hhaz, h] at h'
    · rcases herr with herr | ⟨herr, -⟩ <;> simp [herr, h] at h'
    · rcases herr with herr | ⟨-, c, e, hc, he⟩
      · simp [herr, h] at h'
      · exact ⟨c, e, hc, he, hseq⟩
  rcases step_cases s t hstep with ⟨ha, -⟩ | ⟨rest, ha, -⟩ | ⟨a, rest, ha, rfl⟩ | ⟨a, d, rest, ha, rfl⟩ | ⟨rest, ha, rfl⟩
  · exact absurd (.inl ha) hseq
  · exact absurd (.inr ⟨rest, ha⟩) hseq
  · obtain ⟨hhaz, herr, hcmd⟩ := busRead_sticky a { s with agenda := rest }
    refine ⟨fun h h' => ?_, fun h h' => ?_, fun h h' => ?_, fun h => absurd hcmd h⟩
    · simp [hhaz h] at h'
    · rw [herr] at h'
      simp [h] at h'
    · rw [herr] at h'
      simp [h] at h'
  · obtain ⟨hhaz, herr, hset, hcmd⟩ := busWrite_sticky a d { s with agenda := rest }
    exact ⟨fun h h' => ⟨rest, .inr ⟨a, d, ha, hhaz h h'⟩⟩, fun h h' => ⟨rest, .inr ⟨a, d, ha, herr h h'⟩⟩,
      fun h h' => by simp [hset h] at h', fun h => ⟨rest, .inr ⟨a, d, ha, hcmd h⟩⟩⟩
  · exact ⟨fun _ _ => ⟨rest, .inl ha⟩, fun _ _ => ⟨rest, .inl ha⟩, nofun, fun _ => ⟨rest, .inl ha⟩⟩

/-! ### Turns, the ROM and reset (R30, R49, R52) -/

/-- Settles O5: both ways the sequencer gets its turn run `exec` of the decoded word. -/
theorem stepRunsTheLatchedCommand : Obligations.StepRunsTheLatchedCommand := by
  intro s c i hc hi
  refine ⟨fun ha => ?_, fun rest ha => ?_⟩ <;> simp [step, ha, sequencerTurn, hc, runWord, hi]

/-- Settles O7, turn by turn. -/
theorem agendaTurnsInOrder : Obligations.AgendaTurnsInOrder := by
  intro s rest
  refine ⟨fun a ha => ?_, fun a d ha => ?_, fun ha => ?_, fun hp ha => ?_, fun hp ha => ?_⟩
  · simp [step, ha]
  · simp [step, ha]
  · simp [step, ha]
  · simp [step, ha, sequencerTurn, hp]
  · simp [step, ha, sequencerTurn, hp]

/-- Settles O42, by evaluating the ROM's closed facts in the kernel. -/
theorem romHoldsTheCurveConstants : Obligations.RomHoldsTheCurveConstants :=
  ⟨by decide +kernel, by decide +kernel, by decide +kernel, by decide +kernel, by decide +kernel, by decide +kernel, rfl,
    by decide +kernel, Rom.base_affine_onCurve, Rom.btab_eq, rfl⟩

theorem powerOn_meets_invariants (m : Memory) (hm : m.wf) : (State.powerOn m).Inv ∧ (State.powerOn m).pointsValid :=
  ⟨⟨hm, ⟨fun _ => ⟨rfl, rfl⟩, nofun⟩, State.pendingOk_of_idle rfl⟩, resetCore_pointsValid (State.powerOn m)⟩

/-- Settles O51: the reset state is the power-on state with nothing listed. -/
theorem resetStateMeetsTheInvariants : Obligations.ResetStateMeetsTheInvariants :=
  ⟨powerOn_meets_invariants, powerOn_meets_invariants [] Memory.nil_wf⟩

end Sys2Proof.Machine

namespace Sys2Proof.Machine

/-! ## The DATA window (20_memory.md R72, R75) -/

theorem leBytes_getElem (n v i : Nat) (h : i < (leBytes n v).length) : (leBytes n v)[i] = BitVec.ofNat 8 (v / 256 ^ i) := by
  induction n generalizing v i with
  | zero => simp [leBytes] at h
  | succ n ih =>
    cases i with
    | zero => simp [leBytes]
    | succ i =>
      simp only [leBytes, List.getElem_cons_succ]
      rw [ih, Nat.div_div_eq_div_mul, Nat.pow_succ']

/-- The bytes of a host word are its 8-bit fields, lowest first. -/
theorem leBytes_toNat_getElem (n : Nat) (d : Word) (i : Nat) (h : i < (leBytes n d.toNat).length) :
    (leBytes n d.toNat)[i] = d.extractLsb' (8 * i) 8 := by
  rw [leBytes_getElem, BitVec.extractLsb', Nat.shiftRight_eq_div_pow, Nat.pow_mul]

/-- A host word splits into exactly the four bytes it was read from. -/
theorem Memory.leBytes_readWord (m : Memory) (off : Nat) : leBytes 4 (m.readWord off).toNat = m.readBytes off 4 := by
  have hlt : le (m.readBytes off 4) < 2 ^ 32 := by simpa using le_lt (m.readBytes off 4)
  rw [Memory.readWord, BitVec.toNat_ofNat, Nat.mod_eq_of_lt hlt]
  simpa using leBytes_le (m.readBytes off 4)

theorem Memory.readWord_byte (m : Memory) (off : Nat) {i : Nat} (h : i < 4) :
    (m.readWord off).extractLsb' (8 * i) 8 = m.read (off + i) := by
  rw [← leBytes_toNat_getElem 4 _ i (by simpa using h)]
  simp only [Memory.leBytes_readWord]
  exact Memory.readBytes_getElem m off 4 i (by simpa using h)

theorem Memory.read_writeWord_inside {m : Memory} (hm : m.wf) (off : Nat) (d : Word) {i : Nat} (h : i < 4) :
    (m.writeWord off d).read (off + i) = d.extractLsb' (8 * i) 8 := by
  rw [Memory.writeWord, Memory.read_writeBytes_inside m off _ i hm.1 (by simpa using h), leBytes_toNat_getElem]

theorem Memory.read_writeWord_other (m : Memory) (off : Nat) (d : Word) {o : Nat} (h : o < off ∨ off + 4 ≤ o) :
    (m.writeWord off d).read o = m.read o :=
  Memory.read_writeBytes_other m off _ o (by simpa using h)

theorem busRead_data {a : BusAddr} {s : State} (ha : InDataWindow a) (hidle : s.busy = false) :
    busRead a s = { s with rdata := s.data.readWord (windowOffset a) } := by
  simp [busRead, busReadEffect, busReadValue, busTarget_data a ha, hidle]

theorem busWrite_data {a : BusAddr} {s : State} (ha : InDataWindow a) (hidle : s.busy = false) (d : Word) :
    busWrite a d s = { s with data := s.data.writeWord (windowOffset a) d } := by
  simp [busWrite, writeData, busTarget_data a ha, hidle]

/-- Settles O48: in the window a transaction is `readWord` or `writeWord` at the word's offset, and a transaction sees its
address only through `busTarget`. -/
theorem dataWindowIsLittleEndian : Obligations.DataWindowIsLittleEndian := by
  refine ⟨fun s a ha hidle => ⟨⟨_, busRead_data ha hidle, fun i hi => ?_⟩, fun d hwf =>
    ⟨_, busWrite_data ha hidle d, ?_, fun i hi => ?_, fun o ho => ?_⟩⟩, fun s a b d h => ?_⟩
  · exact Memory.readWord_byte _ _ hi
  · exact Memory.writeWord_wf _ _ d hwf (busTarget_data_inv a _ (busTarget_data a ha)).2
  · exact Memory.read_writeWord_inside hwf _ d hi
  · exact Memory.read_writeWord_other _ _ d ho
  · simp only [busRead, busReadEffect, busReadValue, busWrite, busTarget_congr a b h, and_self]

end Sys2Proof.Machine

namespace Sys2Proof

open Machine

/-! ## Encoding (30_encoding.md R100–R112) -/

theorem encodeFields_statement (i : Instr) : Laws.EncodeFields.Statement i :=
  open Laws.EncodeFields in
  i.casesOn nop feZero feOne feMov feLdc feAdd feSub feNeg feMul feSq feSq2 feInv fePow22523 feIsneg feIsnz feTobytes
    feFrombytes ptIdent ptLdb ptMov ptToext ptToproj ptTocached ptDbl ptAdd ptSub ptNeg ptGet ptEnc ptDec ptDsmul ptSmulb
    scMuladd scReduce scMin scLdl scSlide

theorem decode_toWord {f : Fields} (h : f.res = 0) : decode f.toWord = decodeOp f := by
  rw [decode, Fields.ofWord_toWord, if_pos h]

/-- Settles O1: the map reads each command back from its fields, and a word keeps its fields. -/
theorem decodeOfEncodeIsTheCommand : Obligations.DecodeOfEncodeIsTheCommand := fun i =>
  have ⟨hres, hop⟩ := encodeFields_statement i
  (decode_toWord hres).trans hop

/-! ### A word under a mask, field by field

`simp` evaluates `allOnes`, so the full mask of each field width is stated on its numeral. -/

@[simp] theorem op_and_255 (x : BitVec 8) : x &&& 255#8 = x := BitVec.and_allOnes
@[simp] theorem operand_and_31 (x : Operand) : x &&& 31#5 = x := BitVec.and_allOnes
@[simp] theorem res_and_15 (x : BitVec 4) : x &&& 15#4 = x := BitVec.and_allOnes

theorem Fields.ofWord_and (w m : Word) : ofWord (w &&& m) =
    ⟨(ofWord w).op &&& (ofWord m).op, (ofWord w).rd &&& (ofWord m).rd, (ofWord w).ra &&& (ofWord m).ra,
      (ofWord w).rb &&& (ofWord m).rb, (ofWord w).rc &&& (ofWord m).rc, (ofWord w).res &&& (ofWord m).res⟩ := by
  simp [ofWord, BitVec.extractLsb'_and]

theorem Fields.ofWord_injective : Function.Injective Fields.ofWord :=
  Function.LeftInverse.injective Fields.toWord_ofWord

theorem Fields.and_255_toNat (w : Word) : (w &&& 0xFF).toNat = (ofWord w).op.toNat := by
  simpa [ofWord] using Nat.and_two_pow_sub_one_eq_mod w.toNat 8

/-- A row's `match` is the OP of its words and 0 elsewhere. -/
theorem Fields.ofWord_pattern {w p : Word} (hp : w &&& 0xFF = p) : ofWord p = ⟨(ofWord w).op, 0, 0, 0, 0, 0⟩ := by
  rw [← hp, ofWord_and, show ofWord 0xFF = ⟨255, 0, 0, 0, 0, 0⟩ from rfl]
  simp

/-- Among the words with a row's OP, its mask tests RES and the operand fields it names for 0. -/
theorem and_mask_eq_iff {w p mask : Word} {rd ra rb rc : Operand} (hp : w &&& 0xFF = p)
    (hmask : Fields.ofWord mask = ⟨255, rd, ra, rb, rc, 15⟩) : w &&& mask = p ↔ (Fields.ofWord w).res = 0 ∧
      (Fields.ofWord w).rd &&& rd = 0 ∧ (Fields.ofWord w).ra &&& ra = 0 ∧ (Fields.ofWord w).rb &&& rb = 0 ∧
      (Fields.ofWord w).rc &&& rc = 0 := by
  rw [← Fields.ofWord_injective.eq_iff, Fields.ofWord_and, hmask, Fields.ofWord_pattern hp]
  simp [and_comm, and_left_comm]

/-! ### The rows of the opcode map -/

/-- The row with this match and mask stands for the commands `make`: it decides decoding (R103, R104), and a word it
covers is the encoding of its command (R110). -/
structure CommandRow (p mask : Word) (make : Operand → Operand → Operand → Operand → Instr) : Prop where
  decides : RowDecides p mask make
  encodes : ∀ w : Word, w &&& 0xFF = p → w &&& mask = p →
    encode (make (w.extractLsb' 8 5) (w.extractLsb' 13 5) (w.extractLsb' 18 5) (w.extractLsb' 23 5)) = w

/-- What all formats share: the mask and the decoder test the same fields, and the encoder leaves those at 0. -/
theorem CommandRow.of_unused {p mask : Word} {mrd mra mrb mrc : Operand}
    {make : Operand → Operand → Operand → Operand → Instr}
    (hmask : Fields.ofWord mask = ⟨255, mrd, mra, mrb, mrc, 15⟩)
    (hdec : ∀ f : Fields, f.op = (Fields.ofWord p).op → decodeOp f =
      if f.rd &&& mrd = 0 ∧ f.ra &&& mra = 0 ∧ f.rb &&& mrb = 0 ∧ f.rc &&& mrc = 0 then
        some (make f.rd f.ra f.rb f.rc) else none)
    (henc : ∀ rd ra rb rc, rd &&& mrd = 0 ∧ ra &&& mra = 0 ∧ rb &&& mrb = 0 ∧ rc &&& mrc = 0 →
      encodeFields (make rd ra rb rc) = ⟨(Fields.ofWord p).op, rd, ra, rb, rc, 0⟩) : CommandRow p mask make := by
  refine ⟨fun w hp => ?_, fun w hp hm => ?_⟩
  · rw [decode, hdec _ (by rw [Fields.ofWord_pattern hp])]
    simp only [and_mask_eq_iff hp hmask, ite_and]
    rfl
  · obtain ⟨hres, hunused⟩ := (and_mask_eq_iff hp hmask).1 hm
    have hfields := henc _ _ _ _ hunused
    rw [Fields.ofWord_pattern hp, ← hres] at hfields
    exact (congrArg Fields.toWord hfields).trans (Fields.toWord_ofWord w)

section
/-! One lemma per format of R103. What a command has to add, its lines of `decodeOp` and `encodeFields`, holds by
evaluation. -/

variable {p : Word}

theorem commandRow_none (i : Instr)
    (hdec : ∀ f : Fields, f.op = (Fields.ofWord p).op → decodeOp f = formNone i f := by rintro ⟨⟩ rfl; rfl)
    (henc : encodeFields i = ⟨(Fields.ofWord p).op, 0, 0, 0, 0, 0⟩ := by rfl) :
    CommandRow p 0xFFFFFFFF (fun _ _ _ _ => i) :=
  .of_unused (mrd := 31) (mra := 31) (mrb := 31) (mrc := 31) rfl (by simpa [formNone] using hdec)
    (by simp +contextual [henc])

theorem commandRow_d (i : Operand → Instr)
    (hdec : ∀ f : Fields, f.op = (Fields.ofWord p).op → decodeOp f = formD i f := by rintro ⟨⟩ rfl; rfl)
    (henc : ∀ rd, encodeFields (i rd) = ⟨(Fields.ofWord p).op, rd, 0, 0, 0, 0⟩ := by intros; rfl) :
    CommandRow p 0xFFFFE0FF (fun rd _ _ _ => i rd) :=
  .of_unused (mrd := 0) (mra := 31) (mrb := 31) (mrc := 31) rfl (by simpa [formD] using hdec) (by simp +contextual [henc])

theorem commandRow_a (i : Operand → Instr)
    (hdec : ∀ f : Fields, f.op = (Fields.ofWord p).op → decodeOp f = formA i f := by rintro ⟨⟩ rfl; rfl)
    (henc : ∀ ra, encodeFields (i ra) = ⟨(Fields.ofWord p).op, 0, ra, 0, 0, 0⟩ := by intros; rfl) :
    CommandRow p 0xFFFC1FFF (fun _ ra _ _ => i ra) :=
  .of_unused (mrd := 31) (mra := 0) (mrb := 31) (mrc := 31) rfl (by simpa [formA] using hdec) (by simp +contextual [henc])

theorem commandRow_da (i : Operand → Operand → Instr)
    (hdec : ∀ f : Fields, f.op = (Fields.ofWord p).op → decodeOp f = formDA i f := by rintro ⟨⟩ rfl; rfl)
    (henc : ∀ rd ra, encodeFields (i rd ra) = ⟨(Fields.ofWord p).op, rd, ra, 0, 0, 0⟩ := by intros; rfl) :
    CommandRow p 0xFFFC00FF (fun rd ra _ _ => i rd ra) :=
  .of_unused (mrd := 0) (mra := 0) (mrb := 31) (mrc := 31) rfl (by simpa [formDA] using hdec) (by simp +contextual [henc])

theorem commandRow_dab (i : Operand → Operand → Operand → Instr)
    (hdec : ∀ f : Fields, f.op = (Fields.ofWord p).op → decodeOp f = formDAB i f := by rintro ⟨⟩ rfl; rfl)
    (henc : ∀ rd ra rb, encodeFields (i rd ra rb) = ⟨(Fields.ofWord p).op, rd, ra, rb, 0, 0⟩ := by intros; rfl) :
    CommandRow p 0xFF8000FF (fun rd ra rb _ => i rd ra rb) :=
  .of_unused (mrd := 0) (mra := 0) (mrb := 0) (mrc := 31) rfl (by simpa [formDAB] using hdec) (by simp +contextual [henc])

theorem commandRow_dabc (i : Operand → Operand → Operand → Operand → Instr)
    (hdec : ∀ f : Fields, f.op = (Fields.ofWord p).op → decodeOp f = formDABC i f := by rintro ⟨⟩ rfl; rfl)
    (henc : ∀ rd ra rb rc, encodeFields (i rd ra rb rc) = ⟨(Fields.ofWord p).op, rd, ra, rb, rc, 0⟩ := by
      intros; rfl) :
    CommandRow p 0xF00000FF i :=
  .of_unused (mrd := 0) (mra := 0) (mrb := 0) (mrc := 0) rfl (by simpa [formDABC] using hdec) (by simp [henc])

end

/-- Row by row, the map's words are the commands of that mnemonic. -/
theorem opcodeMap_commandRow : ∀ r ∈ opcodeMap, ∃ make, CommandRow r.pattern r.mask make ∧
    ∀ rd ra rb rc, (make rd ra rb rc).mnemonic = r.mnemonic := by
  simp only [opcodeMap, opcodeMapField, opcodeMapPoint, List.cons_append, List.nil_append, List.forall_mem_cons]
  exact ⟨
    ⟨_, commandRow_none .nop, fun _ _ _ _ => rfl⟩,
    ⟨_, commandRow_d .feZero, fun _ _ _ _ => rfl⟩,
    ⟨_, commandRow_d .feOne, fun _ _ _ _ => rfl⟩,
    ⟨_, commandRow_da .feMov, fun _ _ _ _ => rfl⟩,
    ⟨_, commandRow_da .feLdc, fun _ _ _ _ => rfl⟩,
    ⟨_, commandRow_dab .feAdd, fun _ _ _ _ => rfl⟩,
    ⟨_, commandRow_dab .feSub, fun _ _ _ _ => rfl⟩,
    ⟨_, commandRow_da .feNeg, fun _ _ _ _ => rfl⟩,
    ⟨_, commandRow_dab .feMul, fun _ _ _ _ => rfl⟩,
    ⟨_, commandRow_da .feSq, fun _ _ _ _ => rfl⟩,
    ⟨_, commandRow_da .feSq2, fun _ _ _ _ => rfl⟩,
    ⟨_, commandRow_da .feInv, fun _ _ _ _ => rfl⟩,
    ⟨_, commandRow_da .fePow22523, fun _ _ _ _ => rfl⟩,
    ⟨_, commandRow_a .feIsneg, fun _ _ _ _ => rfl⟩,
    ⟨_, commandRow_a .feIsnz, fun _ _ _ _ => rfl⟩,
    ⟨_, commandRow_da .feTobytes, fun _ _ _ _ => rfl⟩,
    ⟨_, commandRow_da .feFrombytes, fun _ _ _ _ => rfl⟩,
    ⟨_, commandRow_d .ptIdent, fun _ _ _ _ => rfl⟩,
    ⟨_, commandRow_d .ptLdb, fun _ _ _ _ => rfl⟩,
    ⟨_, commandRow_da .ptMov, fun _ _ _ _ => rfl⟩,
    ⟨_, commandRow_da .ptToext, fun _ _ _ _ => rfl⟩,
    ⟨_, commandRow_da .ptToproj, fun _ _ _ _ => rfl⟩,
    ⟨_, commandRow_da .ptTocached, fun _ _ _ _ => rfl⟩,
    ⟨_, commandRow_da .ptDbl, fun _ _ _ _ => rfl⟩,
    ⟨_, commandRow_dab .ptAdd, fun _ _ _ _ => rfl⟩,
    ⟨_, commandRow_dab .ptSub, fun _ _ _ _ => rfl⟩,
    ⟨_, commandRow_da .ptNeg, fun _ _ _ _ => rfl⟩,
    ⟨_, commandRow_dab .ptGet, fun _ _ _ _ => rfl⟩,
    ⟨_, commandRow_da .ptEnc, fun _ _ _ _ => rfl⟩,
    ⟨_, commandRow_da .ptDec, fun _ _ _ _ => rfl⟩,
    ⟨_, commandRow_dabc .ptDsmul, fun _ _ _ _ => rfl⟩,
    ⟨_, commandRow_da .ptSmulb, fun _ _ _ _ => rfl⟩,
    ⟨_, commandRow_dabc .scMuladd, fun _ _ _ _ => rfl⟩,
    ⟨_, commandRow_da .scReduce, fun _ _ _ _ => rfl⟩,
    ⟨_, commandRow_a .scMin, fun _ _ _ _ => rfl⟩,
    ⟨_, commandRow_d .scLdl, fun _ _ _ _ => rfl⟩,
    ⟨_, commandRow_da .scSlide, fun _ _ _ _ => rfl⟩,
    List.forall_mem_nil _⟩

/-- The decoder knows no OP besides those of the rows. -/
theorem decodeOp_op_mem {f : Fields} {i : Instr} (h : decodeOp f = some i) :
    f.op.toNat ∈ opcodeMap.map (·.pattern.toNat) := by
  unfold decodeOp at h
  split at h
  case h_38 => contradiction
  all_goals
    rename f.op.toNat = _ => hop
    rw [hop]
    decide

/-- No two rows share an OP. -/
theorem OpcodeRow.eq_of_pattern_eq :
    ∀ r ∈ opcodeMap, ∀ r' ∈ opcodeMap, r.pattern = r'.pattern → r = r' := by decide

theorem OpcodeRow.keeps_op : ∀ r ∈ opcodeMap, r.mask &&& 0xFF = 0xFF ∧ r.pattern &&& 0xFF = r.pattern := by decide

theorem OpcodeRow.covers_and_255 {r : OpcodeRow} {w : Word} (hr : r ∈ opcodeMap) (h : r.covers w = true) :
    w &&& 0xFF = r.pattern := by
  obtain ⟨hm, hp⟩ := keeps_op r hr
  rw [← hp, ← eq_of_beq h, BitVec.and_assoc, hm]

/-- A word that decodes is covered by the row of its command and is the encoding of it. -/
theorem exists_row_of_decode {w : Word} {i : Instr} (h : decode w = some i) :
    ∃ r ∈ opcodeMap, r.covers w = true ∧ r.mnemonic = i.mnemonic ∧ encode i = w := by
  have ⟨_, hop⟩ := Option.ite_none_right_eq_some.1 h
  obtain ⟨r, hr, hpat⟩ := List.mem_map.1 (decodeOp_op_mem hop)
  obtain ⟨make, hrow, hname⟩ := opcodeMap_commandRow r hr
  have hp : w &&& 0xFF = r.pattern :=
    BitVec.eq_of_toNat_eq ((Fields.and_255_toNat w).trans hpat.symm)
  have hdec := hrow.decides w hp
  rw [h] at hdec
  obtain ⟨hcov, ⟨⟩⟩ := Option.ite_none_right_eq_some.1 hdec.symm
  exact ⟨r, hr, beq_iff_eq.2 hcov, (hname ..).symm, hrow.encodes w hp hcov⟩

/-- Settles O2: a row that covers the word gives back every field of it. -/
theorem encodeOfDecodeIsTheWord : Obligations.EncodeOfDecodeIsTheWord := fun _ _ h =>
  have ⟨_, _, _, _, henc⟩ := exists_row_of_decode h
  henc

/-- Settles O3: two rows never share an OP, and a row decides every word with its OP. -/
theorem decodeAgreesWithOpcodeMap : Obligations.DecodeAgreesWithOpcodeMap := by
  refine fun w => ⟨fun i hi => ?_, fun hnone r hr => ?_⟩
  · obtain ⟨r, hr, hcov, hname, -⟩ := exists_row_of_decode hi
    exact ⟨r, hr, hcov, hname, fun r' hr' hcov' => OpcodeRow.eq_of_pattern_eq r' hr' r hr
      ((OpcodeRow.covers_and_255 hr' hcov').symm.trans (OpcodeRow.covers_and_255 hr hcov))⟩
  · obtain ⟨make, hrow, -⟩ := opcodeMap_commandRow r hr
    refine Bool.eq_false_iff.2 fun hcov => ?_
    have hdec := hrow.decides w (OpcodeRow.covers_and_255 hr hcov)
    simp [hnone, eq_of_beq hcov] at hdec

/-- Settles O4, by decoding each word. -/
theorem specExampleWordsDecode : Obligations.SpecExampleWordsDecode := by
  unfold Obligations.SpecExampleWordsDecode
  decide

end Sys2Proof

namespace Sys2Proof.Machine

/-! ## Control (40_control.md) -/

/-! ### What a command computes from (R133, R136) -/

/-- Two completions apply one result, each to its own state. -/
def SameResult (s s' : State) (o o' : Host.Outcome State Fault Refusal) : Prop :=
  ∃ r : Result, o = finish r s ∧ o' = finish r s'

theorem sameResult_finish (s s' : State) {r r' : Result} (h : r = r') : SameResult s s' (finish r s) (finish r' s') :=
  ⟨r, rfl, by rw [h]⟩

/-- The commands that check nothing. -/
theorem sameResult_ok (s s' : State) {ws ws' : List Write} (h : ws = ws') :
    SameResult s s' (.next (s.applyWrites ws).complete) (.next (s'.applyWrites ws').complete) :=
  sameResult_finish s s' (congrArg Except.ok h)

section
variable {s s' : State}

theorem memRead_of_src_eq (h : s.src = s'.src) : s.memRead = s'.memRead := by
  unfold State.memRead
  rw [h]

theorem slot_of_src_eq (h : s.src = s'.src) : s.slot = s'.slot := by
  unfold State.slot
  rw [memRead_of_src_eq h]

theorem readField_of_src_eq (h : s.src = s'.src) : s.readField = s'.readField := by
  unfold State.readField
  rw [h]

theorem readPoint_of_src_eq (h : s.src = s'.src) : s.readPoint = s'.readPoint := by
  unfold State.readPoint
  rw [h]

/-- Field registers, point registers and DATA reach a command only through its snapshot. -/
theorem exec_sameResult (h : s.src = s'.src) (i : Instr) : SameResult s s' (exec i s) (exec i s') := by
  have hfield := readField_of_src_eq h
  have hpoint := readPoint_of_src_eq h
  have hslot := slot_of_src_eq h
  have hmem := memRead_of_src_eq h
  cases i with
  | nop | feZero | feOne | scLdl => exact sameResult_ok s s' rfl
  | feFrombytes | scMuladd | scMin => exact sameResult_ok s s' (by rw [hslot])
  | feLdc | ptIdent | ptLdb => exact sameResult_finish s s' rfl
  | feMov | feAdd | feSub | feNeg | feMul | feSq | feSq2 | feInv | fePow22523 | feIsneg | feIsnz | feTobytes =>
    exact sameResult_finish s s' (by rw [hfield])
  | ptMov | ptToext | ptToproj | ptTocached | ptDbl | ptAdd | ptSub | ptNeg | ptGet | ptEnc =>
    exact sameResult_finish s s' (by rw [hpoint])
  | ptDec | ptSmulb | scSlide => exact sameResult_finish s s' (by rw [hslot])
  | ptDsmul => exact sameResult_finish s s' (by rw [hpoint, hslot])
  | scReduce => exact sameResult_finish s s' (by rw [hmem])

end

/-- Settles O55, by what each command reads. -/
theorem executeReadsOnlyTheSnapshot : Obligations.ExecuteReadsOnlyTheSnapshot :=
  fun i _ _ h => exec_sameResult h i

/-! ### The agenda runs out (R137, R377, R379) -/

theorem runWord_completes (w : Word) (s : State) : ∃ t, runWord w s = .next t ∧ t.busy = false ∧ t.agenda = s.agenda := by
  rcases runWord_cases w s with ⟨e, -, heq⟩ | ⟨-, i, ws, -, heq, -⟩
  · exact ⟨_, heq, rfl, rfl⟩
  · obtain ⟨-, -, -, -, -, -, hagenda, -⟩ := applyWrites_preserves_control s ws
    exact ⟨_, heq, rfl, hagenda⟩

theorem sequencerTurn_completes (s : State) : ∃ t, sequencerTurn s = .next t ∧ t.busy = false ∧ t.agenda = s.agenda := by
  unfold sequencerTurn
  cases hp : s.pending with
  | none => exact ⟨s, rfl, by simp [State.busy, hp], rfl⟩
  | some c => exact runWord_completes c.word s

theorem busRead_agenda (a : BusAddr) (s : State) : (busRead a s).agenda = s.agenda := by
  rcases busRead_cases a s with heq | ⟨-, heq⟩ <;> rw [heq]

theorem busWrite_agenda (a : BusAddr) (d : Word) (s : State) : (busWrite a d s).agenda = s.agenda := by
  rcases busWrite_cases a d s with heq | ⟨-, -, heq⟩ | ⟨-, -, heq⟩ | ⟨-, -, heq⟩ | ⟨-, -, -, -, heq⟩ | ⟨-, heq⟩ | ⟨-, heq⟩ |
    ⟨-, -, heq⟩ | ⟨-, -, heq⟩ <;> simp [heq, writeStatus_eq]

/-- A step with an empty agenda is the sequencer's turn, and leaves the core idle. -/
theorem step_of_agenda_nil {s : State} (h : s.agenda = []) : ∃ t, step s = .next t ∧ t.busy = false ∧ t.agenda = [] := by
  simpa only [step, h] using sequencerTurn_completes s

/-- Every turn, whoever takes it, is one step to a next state, and adds no turn. -/
theorem step_of_agenda_cons {s : State} {turn : Turn} {rest : List Turn} (h : s.agenda = turn :: rest) :
    ∃ t, step s = .next t ∧ t.agenda = rest := by
  simp only [step, h]
  cases turn with
  | sequencer =>
    obtain ⟨t, ht, -, hagenda⟩ := sequencerTurn_completes { s with agenda := rest }
    exact ⟨t, ht, hagenda⟩
  | read a => exact ⟨_, rfl, busRead_agenda a _⟩
  | write a d => exact ⟨_, rfl, busWrite_agenda a d _⟩
  | hardReset => exact ⟨_, rfl, rfl⟩

theorem run_succ_of_step {s t : State} (h : step s = .next t) (n : Nat) :
    Host.Core.run Sys2Proof.core (n + 1) s = Host.Core.run Sys2Proof.core n t := by
  have hcore : Sys2Proof.core.step s = .next t := h
  simp only [Host.Core.run, hcore]

/-- Settles O54, by induction on the turns still to come. -/
theorem everyRunReachesIdle : Obligations.EveryRunReachesIdle := by
  intro s
  induction hagenda : s.agenda generalizing s with
  | nil =>
    obtain ⟨t, hstep, hidle⟩ := step_of_agenda_nil hagenda
    exact ⟨t, run_succ_of_step hstep 0, hidle⟩
  | cons turn rest ih =>
    obtain ⟨u, hstep, hrest⟩ := step_of_agenda_cons hagenda
    obtain ⟨t, hrun, hidle⟩ := ih u hrest
    exact ⟨t, (run_succ_of_step hstep _).trans hrun, hidle⟩

/-! ### NOP (R135) -/

/-- Settles O10: the row is NOP's, and the host's CTRL write of 0x5 starts the CMD word 0 that reset leaves. -/
theorem nopWritesNothing : Obligations.NopWritesNothing := by
  refine ⟨(commandRow_none .nop).decides, fun _ => rfl, ?_⟩
  have hctrl : AtWord 0x004 1 := rfl
  rw [busWrite_ctrl hctrl, writeCtrl_start rfl rfl rfl rfl]
  exact ⟨_, rfl, by decide, rfl⟩

end Sys2Proof.Machine

namespace Sys2Proof

open Machine

/-! ## Field commands (41_field.md) -/

/-! ### Residues: inverses and bytes (R160, R163, R166, R168) -/

theorem Fe.inv_mul_cancel {x : Fe} (h : x.val ≠ 0) : x.inv.mul x = Fe.one := by
  have := Laws.fact_prime_p
  have hx : x.toZ ≠ 0 := Fe.toZ_ne_zero.2 fun h0 => h (h0 ▸ Fe.zero_val)
  refine Fe.toZ_injective ?_
  rw [Fe.toZ_mul, Fe.toZ_inv, Fe.toZ_one, inv_mul_cancel₀ hx]

theorem Fe.mul_inv_val {x : Fe} (h : x.val ≠ 0) : x.val * x.inv.val % Config.p = 1 := by
  rw [Nat.mul_comm, ← Fe.mul_val, Fe.inv_mul_cancel h, Fe.one_val]

theorem Fe.val_lt_two_pow (a : Fe) : a.val < 2 ^ 255 := a.isLt.trans (by decide)

theorem Fe.ofBytes_val (bytes : List Byte) : (Fe.ofBytes bytes).val = le bytes % 2 ^ 255 % Config.p := rfl

@[simp] theorem Fe.toBytes_length (a : Fe) : a.toBytes.length = 32 := leBytes_length 32 a.val

theorem Fe.le_toBytes (a : Fe) : le a.toBytes = a.val :=
  le_leBytes_of_lt 32 a.val (a.val_lt_two_pow.trans (by decide))

end Sys2Proof

namespace Sys2Proof.Machine

/-! ### The shapes of the commands, as the rules of R150

Of a command there is left to say which residue, or which test, its function computes. -/

theorem fieldUnaryRule_of_val {cmd : Operand → Operand → Instr} {f : Fe → Fe} {value : Nat → Int}
    (hval : ∀ a : Fe, ((f a).val : Int) = value a.val % Config.p)
    (hcmd : ∀ rd ra s, exec (cmd rd ra) s = fieldUnary f rd ra s := by intros; rfl) : FieldUnaryRule cmd value := by
  intro s rd ra
  rw [hcmd, fieldUnary_eq]
  refine ⟨fun a ha => ⟨f a, hval a, ?_⟩, fun hnone => ?_⟩
  · rw [ha]; rfl
  · rw [hnone]; rfl

theorem fieldBinaryRule_of_val {cmd : Operand → Operand → Operand → Instr} {f : Fe → Fe → Fe} {value : Nat → Nat → Int}
    (hval : ∀ a b : Fe, ((f a b).val : Int) = value a.val b.val % Config.p)
    (hcmd : ∀ rd ra rb s, exec (cmd rd ra rb) s = fieldBinary f rd ra rb s := by intros; rfl) :
    FieldBinaryRule cmd value := by
  intro s rd ra rb
  rw [hcmd, fieldBinary_eq]
  refine ⟨fun a b ha hb => ⟨f a b, hval a b, ?_⟩, fun hnone => ?_, fun a ha hnone => ?_⟩
  · rw [ha, hb]; rfl
  · rw [hnone]; rfl
  · rw [ha, hnone]; rfl

theorem fieldTestRule_of_eq {cmd : Operand → Instr} {f : Fe → Bool} {test : Nat → Bool}
    (htest : ∀ a : Fe, f a = test a.val)
    (hcmd : ∀ ra s, exec (cmd ra) s = fieldTest f ra s := by intros; rfl) : FieldTestRule cmd test := by
  intro s ra
  rw [hcmd, fieldTest_eq]
  refine ⟨fun a ha => ?_, fun hnone => ?_⟩
  · rw [ha, ← htest]; rfl
  · rw [hnone]; rfl

/-! ### Constants (R151, R152, R154) -/

theorem exec_feLdc_of_lt {ra : Operand} (h : ra.toNat < 3) (rd : Operand) (s : State) :
    exec (.feLdc rd ra) s = .next (s.doneWithField rd (Rom.fieldConst ⟨ra.toNat, h⟩)) := by
  simp only [exec, execFeLdc, constIndex, inRange_ok 3 ra .ra h]
  rfl

theorem exec_feLdc_of_not_lt {ra : Operand} (h : ¬ ra.toNat < 3) (rd : Operand) (s : State) :
    FailsWith s (exec (.feLdc rd ra) s) .badOperand .ra := by
  simp only [exec, execFeLdc, constIndex, inRange_error 3 ra .ra h]
  rfl

theorem Rom.d2_val : Rom.d2.val = 2 * Rom.d.val % Config.p := by decide +kernel

/-- Settles O11: FE_LDC reads `Rom.fieldConst` at ra. -/
theorem fieldConstantsLoad : Obligations.FieldConstantsLoad := by
  refine ⟨(commandRow_d .feZero).decides, (commandRow_d .feOne).decides, (commandRow_da .feLdc).decides, fun s rd ra =>
    ⟨⟨_, Fe.zero_val, rfl⟩, ⟨_, Fe.one_val, rfl⟩, ?_, ?_, ?_, fun h => exec_feLdc_of_not_lt (by omega) rd s⟩⟩
  · rintro rfl
    exact exec_feLdc_of_lt (by decide) rd s
  · rintro rfl
    exact ⟨Rom.d2, Rom.d2_val, exec_feLdc_of_lt (by decide) rd s⟩
  · rintro rfl
    exact exec_feLdc_of_lt (by decide) rd s

/-! ### Arithmetic (R153, R155–R162) -/

/-- Settles O12: a residue is its own remainder, and negation is `Fe.neg_val`. -/
theorem fieldMoveAndNegate : Obligations.FieldMoveAndNegate :=
  ⟨(commandRow_da .feMov).decides, (commandRow_da .feNeg).decides,
    fieldUnaryRule_of_val fun a => mod_cast (Nat.mod_eq_of_lt a.isLt).symm, fieldUnaryRule_of_val Fe.neg_val⟩

/-- Settles O13, by the values of the sum and the difference. -/
theorem fieldAddAndSubtract : Obligations.FieldAddAndSubtract :=
  ⟨(commandRow_dab .feAdd).decides, (commandRow_dab .feSub).decides,
    fieldBinaryRule_of_val fun a b => mod_cast Fe.add_val a b, fieldBinaryRule_of_val Fe.sub_val⟩

/-- Settles O14, by the values of the three products. -/
theorem fieldMultiplyAndSquare : Obligations.FieldMultiplyAndSquare :=
  ⟨(commandRow_dab .feMul).decides, (commandRow_da .feSq).decides, (commandRow_da .feSq2).decides,
    fieldBinaryRule_of_val fun a b => mod_cast Fe.mul_val a b, fieldUnaryRule_of_val fun a => mod_cast Fe.sq_val a,
    fieldUnaryRule_of_val fun a => mod_cast Fe.sq2_val a⟩

/-- Settles O15: `Fe.pow_val` gives both powers, and the power p−2 is the field's inverse. -/
theorem fieldPowersAreExact : Obligations.FieldPowersAreExact := by
  refine ⟨(commandRow_da .feInv).decides, (commandRow_da .fePow22523).decides,
    fieldUnaryRule_of_val (f := Fe.inv) fun a => ?_, fieldUnaryRule_of_val (f := Fe.pow22523) fun a => ?_, by decide,
    fun x h => ⟨Fe.mul_inv_val h, ?_⟩, fun _ => rfl⟩
  · exact mod_cast Fe.pow_val a (Config.p - 2) (by decide)
  · exact mod_cast Fe.pow_val a ((Config.p - 5) / 8) (by decide)
  · rw [Fe.inv_mul_cancel h, Fe.toBytes, Fe.one_val]

/-! ### Tests (R164, R165) -/

theorem isNegative_eq_decide (a : Fe) : isNegative a = decide (a.val % 2 = 1) := rfl

theorem isNonZero_eq_decide (a : Fe) : isNonZero a = decide (a.val ≠ 0) := by
  simp only [isNonZero, bne, beq_eq_decide, decide_not]

/-- Settles O16: both tests read the canonical residue. -/
theorem fieldTestsWriteFlag : Obligations.FieldTestsWriteFlag :=
  ⟨(commandRow_a .feIsneg).decides, (commandRow_a .feIsnz).decides, fieldTestRule_of_eq isNegative_eq_decide,
    fieldTestRule_of_eq isNonZero_eq_decide⟩

/-! ### Slots (R163, R166) -/

/-- Settles O17: the residue written is that of the slot's 32 bytes, whatever they are. -/
theorem fieldFromBytesReduces : Obligations.FieldFromBytesReduces :=
  ⟨(commandRow_da .feFrombytes).decides, fun s _ ra => ⟨_, Fe.ofBytes_val (s.slot ra), rfl⟩⟩

/-- A command whose one write is a byte string inside DATA stores exactly those bytes (R10, R133). -/
theorem storesBytes_finish {s : State} (hwf : s.data.wf) {off : Nat} {bytes : List Byte}
    (hin : off + bytes.length ≤ Config.dataSize) : StoresBytes s (finish (.ok [.data off bytes]) s) off bytes := by
  refine ⟨s.data.writeBytes off bytes, rfl, Memory.writeBytes_wf _ _ _ hwf hin, fun k b hb => ?_, fun a ha =>
    Memory.read_writeBytes_other _ _ _ _ ha⟩
  obtain ⟨hk, rfl⟩ := List.getElem?_eq_some_iff.1 hb
  exact Memory.read_writeBytes_inside _ _ _ _ hwf.1 hk

/-- Settles O18: the bytes are those of a residue, so below 2^255, and a slot lies inside DATA. -/
theorem fieldToBytesIsCanonical : Obligations.FieldToBytesIsCanonical := by
  refine ⟨(commandRow_da .feTobytes).decides, fun s rd ra =>
    ⟨fun a hwf ha => ⟨?_, a.le_toBytes, a.val_lt_two_pow⟩, fun hnone => ?_⟩⟩
  · simp only [exec, execFeTobytes, readField_some s ra .ra a ha]
    exact storesBytes_finish hwf (by simpa using slotOffset_in_data rd)
  · simp only [exec, execFeTobytes, readField_none s ra .ra hnone]
    rfl

end Sys2Proof.Machine

/-! ## The field datapath (42_field_datapath.md) -/

namespace Sys2Proof

/-! ### Residues and their bytes -/

theorem Fe.ofBytes_toBytes (c : Fe) : Fe.ofBytes c.toBytes = c := by
  refine Fe.ext_val ?_
  rw [Fe.ofBytes_val, Fe.le_toBytes, Nat.mod_eq_of_lt c.val_lt_two_pow, Nat.mod_eq_of_lt c.isLt]

theorem Fe.powBits_succ_even (k : Nat) (x : Fe) {n : Nat} (hn : n % 2 = 0) :
    Fe.powBits (k + 1) x n = Fe.powBits k x.sq (n / 2) := by simp only [Fe.powBits, hn]

theorem Fe.powBits_succ_odd (k : Nat) (x : Fe) {n : Nat} (hn : n % 2 = 1) :
    Fe.powBits (k + 1) x n = x.mul (Fe.powBits k x.sq (n / 2)) := by simp only [Fe.powBits, hn]

theorem Fe.sub_eq_zero_iff (a b : Fe) : a.sub b = Fe.zero ↔ a = b := by
  rw [← Fe.toZ_eq_zero, Fe.toZ_sub, sub_eq_zero, Fe.toZ_inj]

theorem Fe.add_eq_zero_iff (a b : Fe) : a.add b = Fe.zero ↔ a = b.neg := by
  rw [← Fe.toZ_eq_zero, Fe.toZ_add, add_eq_zero_iff_eq_neg, ← Fe.toZ_neg, Fe.toZ_inj]

end Sys2Proof

namespace Sys2Proof.Machine

/-! ### Values of limbs (R191) -/

theorem Limbs.value_eq_sum (h : Limbs) : h.value = ∑ i : Fin 10, h[i] * 2 ^ limbOffset i := (Fin.sum_univ_def _).symm

/-- The value of ten limbs with the powers of R190 written out. -/
theorem Limbs.value_eq (h : Limbs) : h.value = h[0] + h[1] * 2 ^ 26 + h[2] * 2 ^ 51 + h[3] * 2 ^ 77 + h[4] * 2 ^ 102
    + h[5] * 2 ^ 128 + h[6] * 2 ^ 153 + h[7] * 2 ^ 179 + h[8] * 2 ^ 204 + h[9] * 2 ^ 230 := by
  rw [Limbs.value_eq_sum]
  simp [Fin.sum_univ_succ, limbOffset]
  ring

theorem Limbs.add_value (f g : Limbs) : (f.add g).value = f.value + g.value := by
  simp [Limbs.value_eq_sum, add_mul, Finset.sum_add_distrib]

theorem Limbs.sub_value (f g : Limbs) : (f.sub g).value = f.value - g.value := by
  simp [Limbs.value_eq_sum, sub_mul, Finset.sum_sub_distrib]

theorem Limbs.neg_value (f : Limbs) : f.neg.value = -f.value := by
  simp [Limbs.value_eq_sum, neg_mul, Finset.sum_neg_distrib]

theorem Limbs.doubledSums_value (f : Limbs) : f.doubledSums.value = 2 * (f.productSums f).value := by
  simp [Limbs.value_eq_sum, Finset.mul_sum, mul_assoc]

theorem limbWidth_cases (i : Fin 10) : limbWidth i = 26 ∨ limbWidth i = 25 := by
  unfold limbWidth
  split <;> simp

/-! ### Carries (R198, R200) -/

/-- Take `a` from limb i and give `b` to the next limb, limb 0 after limb 9: the shape of both carries. -/
def Limbs.transfer (h : Limbs) (i : Fin 10) (a b : Int) : Limbs :=
  Vector.ofFn fun j => if j = i then h[j] - a else if j = i + 1 then h[j] + b else h[j]

theorem Limbs.transfer_getElem (h : Limbs) (i : Fin 10) (a b : Int) (j : Fin 10) :
    (h.transfer i a b)[j] = if j = i then h[j] - a else if j = i + 1 then h[j] + b else h[j] := by
  simp [Limbs.transfer]

theorem Limbs.transfer_value (h : Limbs) (i : Fin 10) (a b : Int) :
    (h.transfer i a b).value = h.value - a * 2 ^ limbOffset i + b * 2 ^ limbOffset (i + 1 : Fin 10) := by
  have hne : i + 1 ≠ i := by simp
  have hlimb : ∀ j : Fin 10, (h.transfer i a b)[j] = h[j] - (if j = i then a else 0) + (if j = i + 1 then b else 0) := by
    intro j
    rw [Limbs.transfer_getElem]
    by_cases hi : j = i
    · simp [hi, hne.symm]
    · by_cases h1 : j = i + 1 <;> simp [hi, h1]
  simp only [Limbs.value_eq_sum, hlimb, add_mul, sub_mul, ite_mul, zero_mul, Finset.sum_add_distrib,
    Finset.sum_sub_distrib, Finset.sum_ite_eq', Finset.mem_univ, if_true]

/-- What a rounding carry moves out of limb i (R198). -/
def Limbs.roundOut (h : Limbs) (i : Fin 10) : Int := (h[i] + 2 ^ (limbWidth i - 1)) / 2 ^ limbWidth i

theorem Limbs.roundCarry_eq_transfer (h : Limbs) (i : Fin 10) : h.roundCarry i =
    h.transfer i (h.roundOut i * 2 ^ limbWidth i) ((if i = 9 then 19 else 1) * h.roundOut i) := rfl

theorem Limbs.exactCarry_eq_transfer (h : Limbs) (i : Fin 10) : h.exactCarry i =
    h.transfer i (h[i] / 2 ^ limbWidth i * 2 ^ limbWidth i) (if i = 9 then 0 else h[i] / 2 ^ limbWidth i) := by
  by_cases h9 : i = 9 <;> simp [Limbs.exactCarry, Limbs.transfer, h9]

/-- One unit of the next limb is the full width of this one. -/
theorem two_pow_limbOffset_succ : ∀ i : Fin 10, i ≠ 9 →
    (2 : Int) ^ limbOffset (i + 1 : Fin 10) = 2 ^ limbWidth i * 2 ^ limbOffset i := by decide +kernel

/-- The carry out of limb 9 is dropped in units of 2^255 (R200). -/
theorem Limbs.exactCarry_value (h : Limbs) (i : Fin 10) :
    (h.exactCarry i).value = h.value - (if i = 9 then h[i] / 2 ^ limbWidth i * 2 ^ 255 else 0) := by
  rw [Limbs.exactCarry_eq_transfer, Limbs.transfer_value]
  by_cases h9 : i = 9
  · subst h9
    simp [limbWidth, limbOffset]
    ring
  · rw [two_pow_limbOffset_succ i h9]
    simp only [h9, if_false]
    ring

/-- The carry out of limb 9 re-enters as 19, since 2^255 = p + 19 (R198). -/
theorem Limbs.roundCarry_value (h : Limbs) (i : Fin 10) :
    (h.roundCarry i).value = h.value - (if i = 9 then h.roundOut i * Config.p else 0) := by
  rw [Limbs.roundCarry_eq_transfer, Limbs.transfer_value]
  by_cases h9 : i = 9
  · subst h9
    simp [limbWidth, limbOffset, Config.p]
    ring
  · rw [two_pow_limbOffset_succ i h9]
    simp only [h9, if_false]
    ring

/-! ### Residues in the field -/

/-- The residue of a limb vector as an element of the field. -/
def Limbs.toZ (h : Limbs) : ZMod Config.p := (h.value : ZMod Config.p)

theorem Limbs.residue_eq_iff (h : Limbs) (x : Int) : h.residue = x % Config.p ↔ h.toZ = (x : ZMod Config.p) :=
  (ZMod.intCast_eq_intCast_iff' _ _ _).symm

theorem Limbs.residue_eq_val_iff (h : Limbs) (v : Fe) : h.residue = v.val ↔ h.toZ = v.toZ := by
  rw [← Int.emod_eq_of_lt (a := (v.val : Int)) (b := Config.p) (by omega) (mod_cast v.isLt), Limbs.residue_eq_iff]
  simp [Fe.toZ]

@[simp] theorem Limbs.toZ_add (f g : Limbs) : (f.add g).toZ = f.toZ + g.toZ := by simp [Limbs.toZ, Limbs.add_value]

@[simp] theorem Limbs.toZ_sub (f g : Limbs) : (f.sub g).toZ = f.toZ - g.toZ := by simp [Limbs.toZ, Limbs.sub_value]

@[simp] theorem Limbs.toZ_neg (f : Limbs) : f.neg.toZ = -f.toZ := by simp [Limbs.toZ, Limbs.neg_value]

@[simp] theorem Limbs.toZ_roundCarry (h : Limbs) (i : Fin 10) : (h.roundCarry i).toZ = h.toZ := by
  simp only [Limbs.toZ, Limbs.roundCarry_value]
  split <;> simp

theorem Limbs.toZ_foldl_roundCarry (h : Limbs) (order : List (Fin 10)) :
    (order.foldl Limbs.roundCarry h).toZ = h.toZ := by
  induction order generalizing h with
  | nil => rfl
  | cons i order ih => rw [List.foldl_cons, ih, Limbs.toZ_roundCarry]

@[simp] theorem Limbs.toZ_carryPass (h : Limbs) : h.carryPass.toZ = h.toZ := h.toZ_foldl_roundCarry carryOrder

/-- The factor of `f_i · g_j` in `H_k` turns the weight of limb k into the product of the weights of i and j (R196). -/
theorem productTerm_weight : ∀ k i : Fin 10,
    ((if i ≤ k then 1 else 19) * (if i.val % 2 = 1 ∧ (k - i).val % 2 = 1 then 2 else 1) * 2 ^ limbOffset k : Int)
      % Config.p = 2 ^ limbOffset i * 2 ^ limbOffset (k - i : Fin 10) % Config.p := by decide +kernel

theorem toZ_productTerm (f g : Limbs) (k i : Fin 10) :
    ((productTerm f g k i * 2 ^ limbOffset k : Int) : ZMod Config.p)
      = (f[i] * 2 ^ limbOffset i : Int) * (g[k - i] * 2 ^ limbOffset (k - i : Fin 10) : Int) := by
  have hw := (ZMod.intCast_eq_intCast_iff' _ _ _).2 (productTerm_weight k i)
  push_cast [productTerm] at hw ⊢
  linear_combination (f[i] : ZMod Config.p) * (g[k - i] : ZMod Config.p) * hw

theorem Limbs.productSums_getElem (f g : Limbs) (k : Fin 10) : (f.productSums g)[k] = ∑ i, productTerm f g k i := by
  simp [Limbs.productSums, Fin.sum_univ_def]

/-- Every pair of limbs meets once, in the sum of the index i + j mod 10. -/
theorem Limbs.toZ_productSums (f g : Limbs) : (f.productSums g).toZ = f.toZ * g.toZ := by
  have hk : ∀ k : Fin 10, (f.productSums g)[k] * 2 ^ limbOffset k = ∑ i, productTerm f g k i * 2 ^ limbOffset k :=
    fun k => by rw [Limbs.productSums_getElem, Finset.sum_mul]
  simp only [Limbs.toZ, Limbs.value_eq_sum, hk, Int.cast_sum, toZ_productTerm, Finset.sum_mul_sum]
  rw [Finset.sum_comm]
  exact Finset.sum_congr rfl fun i _ => (Equiv.subRight i).sum_comp
    fun j => ((f[i] * 2 ^ limbOffset i : Int) : ZMod Config.p) * (g[j] * 2 ^ limbOffset j : Int)

@[simp] theorem Limbs.toZ_mul (f g : Limbs) : (f.mul g).toZ = f.toZ * g.toZ := by
  rw [Limbs.mul, Limbs.toZ_carryPass, Limbs.toZ_productSums]

@[simp] theorem Limbs.toZ_sq (f : Limbs) : f.sq.toZ = f.toZ * f.toZ := f.toZ_mul f

@[simp] theorem Limbs.toZ_sq2 (f : Limbs) : f.sq2.toZ = 2 * f.toZ * f.toZ := by
  rw [Limbs.sq2, Limbs.toZ_carryPass, mul_assoc, ← Limbs.toZ_productSums]
  simp [Limbs.toZ, Limbs.doubledSums_value]

/-! ### Magnitudes through a carry sequence (R195, R203)

`within` bounds ten limbs by ten numbers. What a carry does to such a bound depends on the bound alone, so that one
evaluation decides a whole carry sequence. -/

/-- Limb by limb, the magnitudes of h are at most the limbs of b. -/
def Limbs.within (h b : Limbs) : Prop := ∀ i : Fin 10, |h[i]| ≤ b[i]

theorem Limbs.within.nonneg {h b : Limbs} (hb : h.within b) (i : Fin 10) : 0 ≤ b[i] := (abs_nonneg _).trans (hb i)

/-- What a rounding carry leaves of limbs bounded by b. -/
def Limbs.roundBound (b : Limbs) (i : Fin 10) : Limbs := Vector.ofFn fun j =>
  if j = i then 2 ^ (limbWidth i - 1)
  else if j = i + 1 then b[j] + (if i = 9 then 19 else 1) * b.roundOut i
  else b[j]

theorem Limbs.within.abs_roundOut_le {h b : Limbs} (hb : h.within b) (i : Fin 10) : |h.roundOut i| ≤ b.roundOut i := by
  have hi := abs_le.1 (hb i)
  rw [abs_le]
  unfold Limbs.roundOut
  rcases limbWidth_cases i with hw | hw <;> rw [hw] <;> constructor <;> omega

theorem Limbs.within.roundCarry {h b : Limbs} (hb : h.within b) (i : Fin 10) :
    (h.roundCarry i).within (b.roundBound i) := by
  intro j
  rw [Limbs.roundCarry_eq_transfer, Limbs.transfer_getElem]
  simp only [Limbs.roundBound, Fin.getElem_fin, Vector.getElem_ofFn]
  split
  · next hj =>
    subst hj
    rw [abs_le]
    simp only [Limbs.roundOut, Fin.getElem_fin]
    rcases limbWidth_cases j with hw | hw <;> rw [hw] <;> constructor <;> omega
  · split
    · refine (abs_add_le _ _).trans (add_le_add (hb j) ?_)
      rw [abs_mul, abs_of_nonneg (by split <;> norm_num)]
      exact mul_le_mul_of_nonneg_left (hb.abs_roundOut_le i) (by split <;> norm_num)
    · exact hb j

theorem Limbs.within.foldl_roundCarry {h b : Limbs} (hb : h.within b) (order : List (Fin 10)) :
    (order.foldl Limbs.roundCarry h).within (order.foldl Limbs.roundBound b) := by
  induction order generalizing h b with
  | nil => exact hb
  | cons i order ih => exact ih (hb.roundCarry i)

/-- Before every carry the bounds stay below 2^62, and what the sequence leaves is below 2^31. -/
def Limbs.boundFits (b : Limbs) : List (Fin 10) → Bool
  | [] => decide (∀ i : Fin 10, b[i] < 2 ^ 31)
  | i :: order => decide (∀ j : Fin 10, b[j] < 2 ^ 62) && (b.roundBound i).boundFits order

theorem Limbs.within.carriesFit {h b : Limbs} (hb : h.within b) {order : List (Fin 10)}
    (hfits : b.boundFits order = true) : h.carriesFit order := by
  induction order generalizing h b with
  | nil =>
    intro i
    have hi := abs_le.1 (hb i)
    have hlt := of_decide_eq_true hfits i
    constructor <;> omega
  | cons i order ih =>
    obtain ⟨hlt, hrest⟩ := Bool.and_eq_true_iff.1 hfits
    have hlt := of_decide_eq_true hlt
    have hi := abs_le.1 (hb i)
    have hlti := hlt i
    refine ⟨fun j => ?_, ?_, ?_, ?_, ih (hb.roundCarry i) hrest⟩
    · have hj := abs_le.1 (hb j)
      have hltj := hlt j
      constructor <;> omega
    all_goals rcases limbWidth_cases i with hw | hw <;> rw [hw] <;> constructor <;> omega

/-- A closed bound within the stored-limb bound (R192). -/
theorem Limbs.within.carried {h b : Limbs} (hb : h.within b)
    (hlim : ∀ i : Fin 10, 10 * b[i] ≤ 11 * 2 ^ (limbWidth i - 1)) : h.carried := fun i => by
  have hi := hb i
  have hl := hlim i
  omega

/-! ### The multiplier's accumulators (R195, R196) -/

/-- The largest limbs within the multiplier's input bound (R195). -/
def Limbs.mulLimit : Limbs := Vector.ofFn fun i => 165 * 2 ^ limbWidth i / 100

theorem Limbs.mulBound.within {f : Limbs} (hf : f.mulBound) : f.within Limbs.mulLimit := fun i => by
  have hi := hf i
  simp only [Limbs.mulLimit, Fin.getElem_fin, Vector.getElem_ofFn]
  rcases limbWidth_cases i with hw | hw <;> rw [hw] at hi ⊢ <;> simp only [Fin.getElem_fin] at hi <;> omega

theorem Limbs.productMagnitude_eq_sum (f g : Limbs) (k : Fin 10) : f.productMagnitude g k = ∑ i, |productTerm f g k i| :=
  (Fin.sum_univ_def _).symm

theorem Limbs.abs_productSums_le (f g : Limbs) (k : Fin 10) : |(f.productSums g)[k]| ≤ f.productMagnitude g k := by
  rw [Limbs.productSums_getElem, Limbs.productMagnitude_eq_sum]
  exact Finset.abs_sum_le_sum_abs _ _

theorem abs_productTerm_le {f g bf bg : Limbs} (hf : f.within bf) (hg : g.within bg) (k i : Fin 10) :
    |productTerm f g k i| ≤ productTerm bf bg k i := by
  have hcoef : (0 : Int) ≤ (if i ≤ k then 1 else 19) * (if i.val % 2 = 1 ∧ (k - i).val % 2 = 1 then 2 else 1) := by
    split <;> split <;> norm_num
  rw [productTerm, productTerm, abs_mul, abs_mul, abs_of_nonneg hcoef]
  exact mul_le_mul (mul_le_mul_of_nonneg_left (hf i) hcoef) (hg (k - i)) (abs_nonneg _)
    (mul_nonneg hcoef (hf.nonneg i))

theorem Limbs.productMagnitude_le {f g bf bg : Limbs} (hf : f.within bf) (hg : g.within bg) (k : Fin 10) :
    f.productMagnitude g k ≤ (bf.productSums bg)[k] := by
  rw [Limbs.productMagnitude_eq_sum, Limbs.productSums_getElem]
  exact Finset.sum_le_sum fun i _ => abs_productTerm_le hf hg k i

theorem Limbs.productMagnitude_nonneg (f g : Limbs) (k : Fin 10) : 0 ≤ f.productMagnitude g k :=
  (abs_nonneg _).trans (f.abs_productSums_le g k)

/-- The largest sums the accumulators ever hold: the doubled `H_k` of the largest limbs (R197). -/
def Limbs.accumulatorLimit : Limbs := Limbs.mulLimit.doubledSums

theorem Limbs.accumulatorLimit_getElem (k : Fin 10) :
    Limbs.accumulatorLimit[k] = 2 * (Limbs.mulLimit.productSums Limbs.mulLimit)[k] := by
  simp [Limbs.accumulatorLimit]

/-- Products of limbs within the input bound stay below 2^60.41 (R195). -/
theorem Limbs.mulLimit_productSums_lt : ∀ k : Fin 10,
    (Limbs.mulLimit.productSums Limbs.mulLimit)[k] < 2 ^ 62 ∧
    (Limbs.mulLimit.productSums Limbs.mulLimit)[k] ^ 100 < 2 ^ 6041 := by decide +kernel

theorem Limbs.mulLimit_le_accumulatorLimit : ∀ k : Fin 10, Limbs.mulLimit[k] ≤ Limbs.accumulatorLimit[k] := by
  decide +kernel

theorem Limbs.accumulatorLimit_fits : Limbs.accumulatorLimit.boundFits carryOrder = true := by decide +kernel

theorem Limbs.accumulatorLimit_carried : ∀ i : Fin 10,
    10 * (carryOrder.foldl Limbs.roundBound Limbs.accumulatorLimit)[i] ≤ 11 * 2 ^ (limbWidth i - 1) := by decide +kernel

/-- The carry pass of whatever the accumulators hold fits them, and leaves carried limbs (R198). -/
theorem Limbs.within.carryPass {h : Limbs} (hb : h.within Limbs.accumulatorLimit) :
    h.carriesFit carryOrder ∧ h.carryPass.carried :=
  ⟨hb.carriesFit Limbs.accumulatorLimit_fits, (hb.foldl_roundCarry carryOrder).carried Limbs.accumulatorLimit_carried⟩

theorem Limbs.mulBound.within_accumulatorLimit {f : Limbs} (hf : f.mulBound) : f.within Limbs.accumulatorLimit :=
  fun i => (hf.within i).trans (Limbs.mulLimit_le_accumulatorLimit i)

section
variable {f g : Limbs} (hf : f.mulBound) (hg : g.mulBound)
include hf hg

theorem Limbs.productMagnitude_le_limit (k : Fin 10) :
    f.productMagnitude g k ≤ (Limbs.mulLimit.productSums Limbs.mulLimit)[k] :=
  Limbs.productMagnitude_le hf.within hg.within k

theorem Limbs.productSums_within : (f.productSums g).within Limbs.accumulatorLimit := fun k => by
  have hsum := f.abs_productSums_le g k
  have hle := Limbs.productMagnitude_le_limit hf hg k
  have hnonneg := f.productMagnitude_nonneg g k
  rw [Limbs.accumulatorLimit_getElem]
  omega

theorem Limbs.mulFits_of_mulBound : f.mulFits g := by
  refine ⟨fun k => ?_, (Limbs.productSums_within hf hg).carryPass.1⟩
  have hle := Limbs.productMagnitude_le_limit hf hg k
  have hnonneg := f.productMagnitude_nonneg g k
  obtain ⟨hlt, -⟩ := Limbs.mulLimit_productSums_lt k
  constructor <;> omega

theorem Limbs.mul_carried : (f.mul g).carried := (Limbs.productSums_within hf hg).carryPass.2

end

section
variable {f : Limbs} (hf : f.mulBound)
include hf

theorem Limbs.sq_carried : f.sq.carried := Limbs.mul_carried hf hf

theorem Limbs.doubledSums_within : f.doubledSums.within Limbs.accumulatorLimit := fun k => by
  have hsum := f.abs_productSums_le f k
  have hle := Limbs.productMagnitude_le_limit hf hf k
  rw [Limbs.accumulatorLimit_getElem, Fin.getElem_fin, Limbs.doubledSums_getElem, abs_mul, abs_two]
  simp only [Fin.getElem_fin] at hsum hle ⊢
  omega

theorem Limbs.sq2Fits_of_mulBound : f.sq2Fits := by
  refine ⟨fun k => ?_, (Limbs.doubledSums_within hf).carryPass.1⟩
  have hle := Limbs.productMagnitude_le_limit hf hf k
  have hnonneg := f.productMagnitude_nonneg f k
  obtain ⟨hlt, -⟩ := Limbs.mulLimit_productSums_lt k
  constructor <;> omega

theorem Limbs.sq2_carried : f.sq2.carried := (Limbs.doubledSums_within hf).carryPass.2

end

/-- Settles O56: the sums of the largest inputs bound all others, and the residues multiply in the field. -/
theorem limbMultiplierMatchesTheFieldProduct : Obligations.LimbMultiplierMatchesTheFieldProduct := by
  intro f g hf hg
  refine ⟨fun k => ?_, Limbs.mulFits_of_mulBound hf hg, Limbs.sq2Fits_of_mulBound hf, ?_, Limbs.mul_carried hf hg,
    ?_, Limbs.sq_carried hf, ?_, Limbs.sq2_carried hf⟩
  · have hsum := f.abs_productSums_le g k
    have hle := Limbs.productMagnitude_le_limit hf hg k
    obtain ⟨hlt, hpow⟩ := Limbs.mulLimit_productSums_lt k
    exact ⟨hsum, (hsum.trans hle).trans_lt hlt,
      (pow_le_pow_left₀ (f.productMagnitude_nonneg g k) hle 100).trans_lt hpow⟩
  · exact (Limbs.residue_eq_iff _ _).2 (by push_cast; exact f.toZ_mul g)
  · exact (Limbs.residue_eq_iff _ _).2 (by push_cast; exact f.toZ_sq)
  · exact (Limbs.residue_eq_iff _ _).2 (by push_cast; exact f.toZ_sq2)

/-! ### The bounds as one (R192, R194, R195, R204) -/

theorem Limbs.boundedBy.mono {h : Limbs} {m n : Nat} (hb : h.boundedBy m) (hmn : m ≤ n) : h.boundedBy n := fun i => by
  refine (hb i).trans (mul_le_mul_of_nonneg_right ?_ (by positivity))
  omega

theorem Limbs.boundedBy.add {f g : Limbs} {m n : Nat} (hf : f.boundedBy m) (hg : g.boundedBy n) :
    (f.add g).boundedBy (m + n) := fun i => by
  have hfi := hf i
  have hgi := hg i
  have habs := abs_add_le f[i] g[i]
  simp only [Fin.getElem_fin, Limbs.add_getElem] at *
  push_cast
  linarith

theorem Limbs.boundedBy.neg {f : Limbs} {n : Nat} (hf : f.boundedBy n) : f.neg.boundedBy n := fun i => by
  have hfi := hf i
  simp only [Fin.getElem_fin, Limbs.neg_getElem, abs_neg] at *
  exact hfi

theorem Limbs.sub_eq_add_neg (f g : Limbs) : f.sub g = f.add g.neg := by
  simp [Limbs.sub, Limbs.add, Limbs.neg, Int.sub_eq_add_neg]

theorem Limbs.boundedBy.sub {f g : Limbs} {m n : Nat} (hf : f.boundedBy m) (hg : g.boundedBy n) :
    (f.sub g).boundedBy (m + n) := f.sub_eq_add_neg g ▸ hf.add hg.neg

theorem Limbs.boundedBy.mulBound {h : Limbs} {n : Nat} (hb : h.boundedBy n) (hn : n ≤ 3) : h.mulBound :=
  h.mulBound_iff.2 (hb.mono hn)

theorem Limbs.mulLimit_lt : ∀ i : Fin 10, Limbs.mulLimit[i] < 2 ^ 31 := by decide +kernel

theorem Limbs.mulBound.fits {h : Limbs} (hb : h.mulBound) : h.fits 32 := fun i => by
  have hi := abs_le.1 (hb.within i)
  have hlt := Limbs.mulLimit_lt i
  constructor <;> omega

theorem Limbs.mulBound.carryPass {h : Limbs} (hb : h.mulBound) : h.carriesFit carryOrder ∧ h.carryPass.carried :=
  hb.within_accumulatorLimit.carryPass

/-! ### Loading 32 bytes (R193) -/

theorem le_append (s t : List Byte) : le (s ++ t) = le s + 256 ^ s.length * le t := by
  induction s with
  | nil => simp [le]
  | cons b s ih =>
    simp only [List.cons_append, le, ih, List.length_cons, pow_succ]
    ring

/-- The bytes from k on, split at m. -/
theorem le_drop {s : List Byte} {k m : Nat} (n : Nat) (hm : k + n = m) (h : m ≤ s.length) :
    le (s.drop k) = le ((s.drop k).take n) + 256 ^ n * le (s.drop m) := by
  subst hm
  conv_lhs => rw [← List.take_append_drop n (s.drop k)]
  rw [le_append, List.drop_drop, List.length_take, List.length_drop, Nat.min_eq_left (by omega)]

theorem le_take_lt (s : List Byte) (k n : Nat) : le ((s.drop k).take n) < 256 ^ n :=
  (le_lt _).trans_le (Nat.pow_le_pow_right (by norm_num) (List.length_take_le _ _))

theorem load3_bounds (s : List Byte) (k : Nat) : 0 ≤ load3 s k ∧ load3 s k < 2 ^ 24 := by
  have := le_take_lt s k 3
  unfold load3
  omega

theorem load4_bounds (s : List Byte) (k : Nat) : 0 ≤ load4 s k ∧ load4 s k < 2 ^ 32 := by
  have := le_take_lt s k 4
  unfold load4
  omega

/-- 32 bytes as the ten chunks of R193. -/
theorem le_eq_chunks {s : List Byte} (hs : s.length = 32) : (le s : Int) = load4 s 0 + load3 s 4 * 2 ^ 32
    + load3 s 7 * 2 ^ 56 + load3 s 10 * 2 ^ 80 + load3 s 13 * 2 ^ 104 + load4 s 16 * 2 ^ 128 + load3 s 20 * 2 ^ 160
    + load3 s 23 * 2 ^ 184 + load3 s 26 * 2 ^ 208 + load3 s 29 * 2 ^ 232 := by
  have hall := le_drop (s := s) (k := 0) (m := 4) 4 rfl (by omega)
  rw [le_drop (m := 7) 3 rfl (by omega), le_drop (m := 10) 3 rfl (by omega), le_drop (m := 13) 3 rfl (by omega),
    le_drop (m := 16) 3 rfl (by omega), le_drop (m := 20) 4 rfl (by omega), le_drop (m := 23) 3 rfl (by omega),
    le_drop (m := 26) 3 rfl (by omega), le_drop (m := 29) 3 rfl (by omega), le_drop (m := 32) 3 rfl (by omega),
    List.drop_eq_nil_of_le hs.le, List.drop_zero] at hall
  simp only [load3, load4, List.drop_zero, hall, le]
  push_cast
  ring

/-- The limbs lie side by side from bit 0 to bit 254, and the mask takes off bit 255. -/
theorem Limbs.loadRaw_value {s : List Byte} (hs : s.length = 32) :
    (Limbs.loadRaw s).value = (le s % 2 ^ 255 : Nat) := by
  have hchunks := le_eq_chunks hs
  have hlt := le_lt s
  have hval : (Limbs.loadRaw s).value = le s - load3 s 29 / 2 ^ 23 * 2 ^ 255 := by
    rw [Limbs.value_eq, hchunks]
    simp [Limbs.loadRaw]
    omega
  have hrange : 0 ≤ (Limbs.loadRaw s).value ∧ (Limbs.loadRaw s).value < 2 ^ 255 := by
    have h0 := load4_bounds s 0
    have h1 := load3_bounds s 4
    have h2 := load3_bounds s 7
    have h3 := load3_bounds s 10
    have h4 := load3_bounds s 13
    have h5 := load4_bounds s 16
    have h6 := load3_bounds s 20
    have h7 := load3_bounds s 23
    have h8 := load3_bounds s 26
    omega
  omega

/-- What the chunks of R193 can be before the carries. -/
def Limbs.loadLimit : Limbs :=
  #v[2 ^ 32, 2 ^ 30, 2 ^ 29, 2 ^ 27, 2 ^ 26, 2 ^ 32, 2 ^ 31, 2 ^ 29, 2 ^ 28, 2 ^ 25]

theorem Limbs.loadRaw_within (s : List Byte) : (Limbs.loadRaw s).within Limbs.loadLimit := by
  have h3 := load3_bounds s
  have h4 := load4_bounds s
  intro i
  rw [abs_le]
  fin_cases i <;> simp [Limbs.loadRaw, Limbs.loadLimit]
  · have := h4 0; omega
  · have := h3 4; omega
  · have := h3 7; omega
  · have := h3 10; omega
  · have := h3 13; omega
  · have := h4 16; omega
  · have := h3 20; omega
  · have := h3 23; omega
  · have := h3 26; omega
  · omega

theorem Limbs.loadRaw_carriesFit (s : List Byte) : (Limbs.loadRaw s).carriesFit loadOrder :=
  (Limbs.loadRaw_within s).carriesFit (by decide +kernel)

theorem Limbs.load_carried (s : List Byte) : (Limbs.load s).carried :=
  ((Limbs.loadRaw_within s).foldl_roundCarry loadOrder).carried (by decide +kernel)

theorem Limbs.toZ_load {s : List Byte} (hs : s.length = 32) : (Limbs.load s).toZ = (Fe.ofBytes s).toZ := by
  rw [Limbs.load, Limbs.loadCarry, Limbs.toZ_foldl_roundCarry, Limbs.toZ, Limbs.loadRaw_value hs, Fe.ofBytes, Fe.toZ_ofNat]
  exact Int.cast_natCast _

theorem Limbs.load_represents {s : List Byte} (hs : s.length = 32) : (Limbs.load s).represents (Fe.ofBytes s) :=
  ⟨Limbs.load_carried s, (Limbs.residue_eq_val_iff _ _).2 (Limbs.toZ_load hs)⟩

/-- Settles O57, by the levels 1, 2 and 3 of the bounds and the sums of a load. -/
theorem lazyLimbSumsAndLoadsAreExact : Obligations.LazyLimbSumsAndLoadsAreExact := by
  refine ⟨fun f g hf hg => ?_, fun f hf => ?_, fun f g hf hg => ?_, fun f hf => ?_, fun s hs => ?_⟩
  · have hf := f.carried_iff.1 hf
    have hg := g.carried_iff.1 hg
    exact ⟨f.add_value g, f.sub_value g, f.neg_value, Limbs.lazyBound_iff _ |>.2 (hf.add hg),
      Limbs.lazyBound_iff _ |>.2 (hf.sub hg), Limbs.lazyBound_iff _ |>.2 (hf.neg.mono (by norm_num))⟩
  · exact (f.lazyBound_iff.1 hf).mulBound (by norm_num)
  · have hf := f.carried_iff.1 hf
    have hg := g.lazyBound_iff.1 hg
    have hadd := (hf.add hg).mulBound le_rfl
    have hsub := (hf.sub hg).mulBound le_rfl
    exact ⟨f.add_value g, f.sub_value g, hadd, hsub, hadd.fits, hsub.fits⟩
  · exact ⟨(Limbs.residue_eq_iff _ _).2 f.toZ_carryPass, hf.carryPass.2, hf.carryPass.1⟩
  · obtain ⟨hcarried, hresidue⟩ := Limbs.load_represents hs
    exact ⟨Limbs.loadRaw_value hs, hcarried, Limbs.loadRaw_carriesFit s, hresidue⟩

/-! ### The canonical output (R200) -/

/-- Two floors in a row are one: the carry of a lower part into the next limb. -/
theorem ediv_carry (x y q : Int) {m n : Int} (hm : 0 < m) : (y + (x + q) / m) / n = (x + m * y + q) / (m * n) := by
  rw [show x + m * y + q = x + q + m * y by ring, ← Int.ediv_ediv_of_nonneg hm.le, Int.add_mul_ediv_left _ _ hm.ne',
    add_comm]

/-- The quotient is one floor of the whole value (R200). -/
theorem Limbs.quotient_eq (h : Limbs) : h.quotient = (h.value + (19 * h[9] + 2 ^ 24) / 2 ^ 25) / 2 ^ 255 := by
  rw [Limbs.value_eq]
  simp [Limbs.quotient, List.finRange_succ, limbWidth]
  generalize (19 * h[9] + 16777216) / 33554432 = q
  simp (disch := norm_num) only [ediv_carry]
  congr 1
  ring

theorem Limbs.carried.lt {h : Limbs} (hc : h.carried) (i : Fin 10) : -2 ^ limbWidth i < h[i] ∧ h[i] < 2 ^ limbWidth i := by
  have hi := hc i
  rw [← abs_lt]
  rcases limbWidth_cases i with hw | hw <;> rw [hw] at hi ⊢ <;> omega

/-- Limb 9 decides the sign of carried limbs: the others stay below its unit. -/
theorem Limbs.carried.value_near_limb9 {h : Limbs} (hc : h.carried) :
    h[9] * 2 ^ 230 - 2 ^ 230 < h.value ∧ h.value < h[9] * 2 ^ 230 + 2 ^ 230 := by
  have hlt := hc.lt
  simp [Fin.forall_fin_succ, limbWidth] at hlt
  rw [Limbs.value_eq]
  omega

theorem Limbs.carried.abs_limb9_le {h : Limbs} (hc : h.carried) : |h[9]| ≤ 18454937 := by
  have h9 := hc 9
  norm_num [limbWidth] at h9
  omega

/-- The first quotient sum has the sign of the value, so the quotient is exact (R200). -/
theorem Limbs.carried.quotient_eq_div {h : Limbs} (hc : h.carried) : h.quotient = h.value / Config.p := by
  have h9 := abs_le.1 hc.abs_limb9_le
  have hnear := hc.value_near_limb9
  rw [Limbs.quotient_eq, Config.p]
  by_cases hneg : h.value < 0
  · have hp : h.value / ((2 ^ 255 - 19 : Nat) : Int) = -1 := by omega
    omega
  · have hp : h.value / ((2 ^ 255 - 19 : Nat) : Int) = 0 := by omega
    omega

/-- The first n exact carries. -/
def Limbs.exactCarries (h : Limbs) (n : Nat) : Limbs := ((List.finRange 10).take n).foldl Limbs.exactCarry h

theorem Limbs.exactCarries_succ (h : Limbs) (i : Fin 10) : h.exactCarries (i + 1) = (h.exactCarries i).exactCarry i := by
  simp [Limbs.exactCarries, List.take_add_one]

theorem Limbs.exactCarries_of_ge (h : Limbs) {n : Nat} (hn : 10 ≤ n) : h.exactCarries n = h.exactCarries 10 := by
  rw [Limbs.exactCarries, Limbs.exactCarries, List.take_of_length_le (by simpa using hn), List.take_of_length_le (by simp)]

/-- After n exact carries: the limbs below n are digits, limb n may have taken a carry, the rest are as they were. -/
structure Limbs.DigitsBelow (h : Limbs) (n : Nat) : Prop where
  digits : ∀ j : Fin 10, j.val < n → 0 ≤ h[j] ∧ h[j] < 2 ^ limbWidth j
  carryIn : ∀ j : Fin 10, j.val = n → |h[j]| < 2 ^ 28
  rest : ∀ j : Fin 10, n < j.val → |h[j]| < 2 ^ 27

theorem Limbs.exactCarry_getElem (h : Limbs) (i j : Fin 10) : (h.exactCarry i)[j] =
    if j = i then h[i] % 2 ^ limbWidth i
    else if j.val = i.val + 1 then h[j] + h[i] / 2 ^ limbWidth i
    else h[j] := by
  have hnext : (j = i + 1 ∧ i ≠ 9) ↔ j.val = i.val + 1 := by omega
  simp only [Limbs.exactCarry, Fin.getElem_fin, Vector.getElem_ofFn, Fin.eta, hnext]
  split
  · next hj =>
    subst hj
    have := Int.emod_add_mul_ediv h[j.val] (2 ^ limbWidth j)
    linarith
  · rfl

theorem Limbs.DigitsBelow.exactCarry {h : Limbs} {i : Fin 10} (hd : h.DigitsBelow i) :
    (h.exactCarry i).DigitsBelow (i + 1) := by
  have hi := abs_lt.1 (hd.carryIn i rfl)
  have hpos : (0 : Int) < 2 ^ limbWidth i := by positivity
  refine ⟨fun j hj => ?_, fun j hj => ?_, fun j hj => ?_⟩ <;> rw [Limbs.exactCarry_getElem]
  · by_cases hji : j = i
    · subst hji
      rw [if_pos rfl]
      exact ⟨Int.emod_nonneg _ hpos.ne', Int.emod_lt_of_pos _ hpos⟩
    · rw [if_neg hji, if_neg (by omega)]
      exact hd.digits j (by omega)
  · have hr := abs_lt.1 (hd.rest j (by omega))
    rw [if_neg (by omega), if_pos hj, abs_lt]
    rcases limbWidth_cases i with hw | hw <;> rw [hw] <;> omega
  · rw [if_neg (by omega), if_neg (by omega)]
    exact hd.rest j (by omega)

theorem Limbs.DigitsBelow.fits {h : Limbs} {n : Nat} (hd : h.DigitsBelow n) : h.fits 32 := by
  intro j
  rcases lt_trichotomy j.val n with hj | hj | hj
  · have := hd.digits j hj
    rcases limbWidth_cases j with hw | hw <;> rw [hw] at this <;> constructor <;> omega
  · have := abs_lt.1 (hd.carryIn j hj)
    constructor <;> omega
  · have := abs_lt.1 (hd.rest j hj)
    constructor <;> omega

theorem Limbs.DigitsBelow.exactCarries {h : Limbs} (hd : h.DigitsBelow 0) {n : Nat} (hn : n ≤ 10) :
    (h.exactCarries n).DigitsBelow n := by
  induction n with
  | zero => exact hd
  | succ n ih =>
    have hstep := h.exactCarries_succ ⟨n, by omega⟩
    rw [hstep]
    exact (ih (by omega)).exactCarry

theorem Limbs.DigitsBelow.value_bounds {h : Limbs} (hd : h.DigitsBelow 10) : 0 ≤ h.value ∧ h.value < 2 ^ 255 := by
  have hdigit := fun j : Fin 10 => hd.digits j j.isLt
  simp [Fin.forall_fin_succ, limbWidth] at hdigit
  rw [Limbs.value_eq]
  omega

theorem Limbs.foldl_exactCarry_value_emod (h : Limbs) (order : List (Fin 10)) :
    (order.foldl Limbs.exactCarry h).value % 2 ^ 255 = h.value % 2 ^ 255 := by
  induction order generalizing h with
  | nil => rfl
  | cons i order ih =>
    rw [List.foldl_cons, ih, Limbs.exactCarry_value]
    split
    · exact Int.sub_mul_emod_self_right _ _ _
    · rw [sub_zero]

theorem Limbs.canonicalStart_value (h : Limbs) : h.canonicalStart.value = h.value + 19 * h.quotient := by
  simp [Limbs.value_eq, Limbs.canonicalStart]
  ring

theorem Limbs.carried.canonicalStart {h : Limbs} (hc : h.carried) : h.canonicalStart.DigitsBelow 0 := by
  have hq : -1 ≤ h.quotient ∧ h.quotient ≤ 0 := by
    have hnear := hc.value_near_limb9
    have h9 := abs_le.1 hc.abs_limb9_le
    rw [hc.quotient_eq_div, Config.p]
    omega
  have hlt : ∀ j : Fin 10, -2 ^ 26 < h[j] ∧ h[j] < 2 ^ 26 := fun j => by
    have hj := hc.lt j
    rcases limbWidth_cases j with hw | hw <;> rw [hw] at hj <;> omega
  refine ⟨nofun, fun j hj => ?_, fun j hj => ?_⟩
  · obtain rfl : j = 0 := Fin.ext hj
    have h0 := hlt 0
    rw [abs_lt]
    simp [Limbs.canonicalStart] at h0 ⊢
    omega
  · have hj' : h.canonicalStart[j] = h[j] := by simp [Limbs.canonicalStart, hj.ne]
    have hlj := hlt j
    rw [hj', abs_lt]
    omega

/-- The canonical limbs are the digits of the residue (R200). -/
theorem Limbs.carried.canonical_value {h : Limbs} (hc : h.carried) : h.canonical.value = h.residue := by
  have hbounds : 0 ≤ h.canonical.value ∧ h.canonical.value < 2 ^ 255 :=
    (hc.canonicalStart.exactCarries le_rfl).value_bounds
  have hmod : h.canonical.value % 2 ^ 255 = (h.value + 19 * h.quotient) % 2 ^ 255 := by
    rw [Limbs.canonical, Limbs.foldl_exactCarry_value_emod, Limbs.canonicalStart_value]
  rw [hc.quotient_eq_div, Config.p] at hmod
  rw [Limbs.residue, Config.p]
  omega

theorem Limbs.residue_bounds (h : Limbs) : 0 ≤ h.residue ∧ h.residue < Config.p :=
  ⟨Int.emod_nonneg _ (by decide), Int.emod_lt_of_pos _ (by decide)⟩

/-! ### The tests on the canonical bytes (R201) -/

theorem leBytes_any_ne_zero (n v : Nat) : (leBytes n v).any (fun b => b != 0) = decide (v % 256 ^ n ≠ 0) := by
  induction n generalizing v with
  | zero => simp [leBytes, Nat.mod_one]
  | succ n ih =>
    have hlow : (BitVec.ofNat 8 v != 0) = decide (v % 256 ≠ 0) := by
      rw [bne, beq_eq_decide, ← decide_not]
      exact decide_eq_decide.2 (by simp [BitVec.ofNat_eq_ofNat, ← BitVec.toNat_inj])
    rw [leBytes, List.any_cons, ih, hlow, ← Bool.decide_or, pow_succ', Nat.mod_mul]
    exact decide_eq_decide.2 (by omega)

/-- The parity of a number is bit 0 of its lowest byte. -/
theorem leBytes_getD_zero_bit (n v : Nat) : ((leBytes (n + 1) v).getD 0 0).getLsbD 0 = decide (v % 2 = 1) := by
  rw [leBytes, List.getD_cons_zero, BitVec.getLsbD_ofNat, Nat.testBit_zero]
  rfl

section
variable {h : Limbs} (hc : h.carried)
include hc

theorem Limbs.carried.toBytes : h.toBytes = leBytes 32 h.residue.toNat := by rw [Limbs.toBytes, hc.canonical_value]

theorem Limbs.carried.isNegative : h.isNegative = decide (h.residue % 2 = 1) := by
  have hr := h.residue_bounds.1
  rw [Limbs.isNegative, hc.toBytes, leBytes_getD_zero_bit 31]
  exact decide_eq_decide.2 (by omega)

theorem Limbs.carried.isNonZero : h.isNonZero = decide (h.residue ≠ 0) := by
  have hr := h.residue_bounds
  rw [Config.p] at hr
  rw [Limbs.isNonZero, hc.toBytes, leBytes_any_ne_zero]
  exact decide_eq_decide.2 (by omega)

end

/-- Settles O58, by the digits the exact carries leave and the exact quotient. -/
theorem limbCanonicalOutputIsTheResidue : Obligations.LimbCanonicalOutputIsTheResidue := by
  intro h hc
  refine ⟨hc.toBytes, hc.isNegative, hc.isNonZero, ?_, fun n => ?_⟩
  · have h9 := abs_le.1 hc.abs_limb9_le
    constructor <;> norm_num <;> omega
  · change (h.canonicalStart.exactCarries n).fits 32
    rcases le_total n 10 with hn | hn
    · exact (hc.canonicalStart.exactCarries hn).fits
    · rw [Limbs.exactCarries_of_ge _ hn]
      exact (hc.canonicalStart.exactCarries le_rfl).fits

/-! ### Limbs that stand for residues -/

theorem Limbs.represents_iff (h : Limbs) (v : Fe) : h.represents v ↔ h.carried ∧ h.toZ = v.toZ :=
  and_congr_right fun _ => h.residue_eq_val_iff v

theorem Limbs.represents.toZ_eq {h : Limbs} {v : Fe} (hr : h.represents v) : h.toZ = v.toZ := ((h.represents_iff v).1 hr).2

theorem Limbs.ofFe_represents (c : Fe) : (Limbs.ofFe c).represents c := by
  have hload := Limbs.load_represents c.toBytes_length
  rwa [Fe.ofBytes_toBytes] at hload

@[simp] theorem Limbs.toZ_ofFe (c : Fe) : (Limbs.ofFe c).toZ = c.toZ := (Limbs.ofFe_represents c).toZ_eq

theorem getD_represents {ls : List Limbs} {vs : List Fe} (hs : List.Forall₂ Limbs.represents ls vs) (n : Nat) :
    (ls.getD n (Limbs.ofFe Fe.zero)).represents (vs.getD n Fe.zero) := by
  induction hs generalizing n with
  | nil =>
    rw [List.getD_nil, List.getD_nil]
    exact Limbs.ofFe_represents Fe.zero
  | cons h _ ih =>
    cases n with
    | zero => rwa [List.getD_cons_zero, List.getD_cons_zero]
    | succ n =>
      rw [List.getD_cons_succ, List.getD_cons_succ]
      exact ih n

/-! ### The exponentiation chain (R202) -/

theorem Limbs.powBits_succ_even (k : Nat) (h : Limbs) {n : Nat} (hn : n % 2 = 0) :
    Limbs.powBits (k + 1) h n = Limbs.powBits k h.sq (n / 2) := by simp only [Limbs.powBits, hn]

theorem Limbs.powBits_succ_odd (k : Nat) (h : Limbs) {n : Nat} (hn : n % 2 = 1) :
    Limbs.powBits (k + 1) h n = h.mul (Limbs.powBits k h.sq (n / 2)) := by simp only [Limbs.powBits, hn]

theorem Limbs.toZ_powBits (k : Nat) (h : Limbs) (x : Fe) (n : Nat) (hx : h.toZ = x.toZ) :
    (Limbs.powBits k h n).toZ = (Fe.powBits k x n).toZ := by
  induction k generalizing h x n with
  | zero => exact Limbs.toZ_ofFe Fe.one
  | succ k ih =>
    have hrec := ih h.sq x.sq (n / 2) (by rw [Limbs.toZ_sq, Fe.toZ_sq, hx])
    rcases Nat.mod_two_eq_zero_or_one n with hn | hn
    · rw [Limbs.powBits_succ_even k h hn, Fe.powBits_succ_even k x hn, hrec]
    · rw [Limbs.powBits_succ_odd k h hn, Fe.powBits_succ_odd k x hn, Limbs.toZ_mul, Fe.toZ_mul, hx, hrec]

theorem Limbs.carried.mulBound {h : Limbs} (hc : h.carried) : h.mulBound := (h.carried_iff.1 hc).mulBound (by norm_num)

theorem Limbs.powBits_carried (k : Nat) {h : Limbs} (hb : h.mulBound) (n : Nat) : (Limbs.powBits k h n).carried := by
  induction k generalizing h n with
  | zero => exact (Limbs.ofFe_represents Fe.one).1
  | succ k ih =>
    have hrec := ih (Limbs.sq_carried hb).mulBound (n / 2)
    rcases Nat.mod_two_eq_zero_or_one n with hn | hn
    · rwa [Limbs.powBits_succ_even k h hn]
    · rw [Limbs.powBits_succ_odd k h hn]
      exact Limbs.mul_carried hb hrec.mulBound

theorem Limbs.powFits_of_mulBound (k : Nat) {h : Limbs} (hb : h.mulBound) (n : Nat) : Limbs.powFits k h n := by
  induction k generalizing h n with
  | zero => trivial
  | succ k ih =>
    have hsq := (Limbs.sq_carried hb).mulBound
    exact ⟨Limbs.mulFits_of_mulBound hb hb, ih hsq (n / 2), fun _ =>
      Limbs.mulFits_of_mulBound hb (Limbs.powBits_carried k hsq (n / 2)).mulBound⟩

/-! ### Expressions over sources that stand for residues (R203, R204) -/

theorem FieldExpr.sumLevel_eq_some {x y : Option Nat} {n : Nat} (h : FieldExpr.level.sumLevel x y = some n) :
    ∃ a b, x = some a ∧ y = some b ∧ a + b = n ∧ n ≤ 3 := by
  cases x with
  | none => cases h
  | some a =>
    cases y with
    | none => cases h
    | some b =>
      simp only [FieldExpr.level.sumLevel] at h
      split at h
      · next hle =>
        cases h
        exact ⟨a, b, rfl, rfl, rfl, hle⟩
      · cases h

theorem FieldExpr.product_level {x : Bool} {n : Nat} (h : (if x then some 1 else none) = some n) : x = true ∧ n = 1 := by
  cases x
  · cases h
  · cases h
    exact ⟨rfl, rfl⟩

theorem FieldExpr.level_le {e : FieldExpr} {n : Nat} (h : e.level = some n) : n ≤ 3 := by
  induction e generalizing n with
  | input m => cases h; norm_num
  | const c => cases h; norm_num
  | add a b => obtain ⟨-, -, -, -, -, hle⟩ := FieldExpr.sumLevel_eq_some h; exact hle
  | sub a b => obtain ⟨-, -, -, -, -, hle⟩ := FieldExpr.sumLevel_eq_some h; exact hle
  | neg a ih => exact ih h
  | _ => obtain ⟨-, rfl⟩ := FieldExpr.product_level h; norm_num

section
variable {ls : List Limbs} {vs : List Fe} (hs : List.Forall₂ Limbs.represents ls vs)
include hs

theorem FieldExpr.toZ_lazyLimbs (e : FieldExpr) : (e.lazyLimbs ls).toZ = (e.eval vs).toZ := by
  induction e with
  | input n => exact (getD_represents hs n).toZ_eq
  | const c => exact Limbs.toZ_ofFe c
  | pow a n ih => exact Limbs.toZ_powBits 256 _ _ n ih
  | _ => simp [FieldExpr.lazyLimbs, FieldExpr.eval, *]

omit hs in
/-- An operand of a product, whatever its level, is within the multiplier's input bound. -/
theorem FieldExpr.operand_mulBound {a : FieldExpr} (ha : a.level.isSome = true)
    (ih : ∀ {m}, a.level = some m → (a.lazyLimbs ls).boundedBy m ∧ a.stepsFit ls) :
    (a.lazyLimbs ls).mulBound ∧ a.stepsFit ls := by
  obtain ⟨m, hm⟩ := Option.isSome_iff_exists.1 ha
  exact ⟨(ih hm).1.mulBound (FieldExpr.level_le hm), (ih hm).2⟩

/-- What an expression within the level rule keeps: its bound, and every sum on the way fits. -/
theorem FieldExpr.boundedBy_and_stepsFit {e : FieldExpr} {n : Nat} (h : e.level = some n) :
    (e.lazyLimbs ls).boundedBy n ∧ e.stepsFit ls := by
  induction e generalizing n with
  | input m =>
    cases h
    have hc := (getD_represents hs m).1
    exact ⟨(Limbs.carried_iff _).1 hc, hc.mulBound.fits⟩
  | const c =>
    cases h
    exact ⟨(Limbs.carried_iff _).1 (Limbs.ofFe_represents c).1, Limbs.loadRaw_carriesFit _⟩
  | add a b iha ihb =>
    obtain ⟨m, m', ha, hb, rfl, hle⟩ := FieldExpr.sumLevel_eq_some h
    have hbound := (iha ha).1.add (ihb hb).1
    exact ⟨hbound, (iha ha).2, (ihb hb).2, (hbound.mulBound hle).fits⟩
  | sub a b iha ihb =>
    obtain ⟨m, m', ha, hb, rfl, hle⟩ := FieldExpr.sumLevel_eq_some h
    have hbound := (iha ha).1.sub (ihb hb).1
    exact ⟨hbound, (iha ha).2, (ihb hb).2, (hbound.mulBound hle).fits⟩
  | neg a ih =>
    have hbound := (ih h).1.neg
    exact ⟨hbound, (ih h).2, (hbound.mulBound (FieldExpr.level_le h)).fits⟩
  | mul a b iha ihb =>
    obtain ⟨hsome, rfl⟩ := FieldExpr.product_level h
    obtain ⟨ha, hb⟩ := Bool.and_eq_true_iff.1 hsome
    obtain ⟨hba, hfa⟩ := FieldExpr.operand_mulBound ha iha
    obtain ⟨hbb, hfb⟩ := FieldExpr.operand_mulBound hb ihb
    exact ⟨(Limbs.carried_iff _).1 (Limbs.mul_carried hba hbb), hfa, hfb, Limbs.mulFits_of_mulBound hba hbb⟩
  | sq a ih =>
    obtain ⟨ha, rfl⟩ := FieldExpr.product_level h
    obtain ⟨hb, hf⟩ := FieldExpr.operand_mulBound ha ih
    exact ⟨(Limbs.carried_iff _).1 (Limbs.sq_carried hb), hf, Limbs.mulFits_of_mulBound hb hb⟩
  | sq2 a ih =>
    obtain ⟨ha, rfl⟩ := FieldExpr.product_level h
    obtain ⟨hb, hf⟩ := FieldExpr.operand_mulBound ha ih
    exact ⟨(Limbs.carried_iff _).1 (Limbs.sq2_carried hb), hf, Limbs.sq2Fits_of_mulBound hb⟩
  | pow a k ih =>
    obtain ⟨ha, rfl⟩ := FieldExpr.product_level h
    obtain ⟨hb, hf⟩ := FieldExpr.operand_mulBound ha ih
    exact ⟨(Limbs.carried_iff _).1 (Limbs.powBits_carried 256 hb k), hf, Limbs.powFits_of_mulBound 256 hb k⟩

/-- What is stored is either the lazy result, where that is a product, or its carry pass (R199). -/
theorem FieldExpr.store_carried {e : FieldExpr} {n : Nat} (h : e.level = some n) : (e.store ls).carried := by
  have hbound := (FieldExpr.boundedBy_and_stepsFit hs h).1
  have hmul := hbound.mulBound (FieldExpr.level_le h)
  cases e with
  | input _ | const _ | add _ _ | sub _ _ | neg _ => exact hmul.carryPass.2
  | mul _ _ | sq _ | sq2 _ | pow _ _ =>
    obtain ⟨-, rfl⟩ := FieldExpr.product_level h
    exact (Limbs.carried_iff _).2 hbound

omit hs in
theorem FieldExpr.toZ_store (e : FieldExpr) : (e.store ls).toZ = (e.lazyLimbs ls).toZ := by
  cases e with
  | input _ | const _ | add _ _ | sub _ _ | neg _ => exact Limbs.toZ_carryPass _
  | mul _ _ | sq _ | sq2 _ | pow _ _ => rfl

theorem FieldExpr.store_represents {e : FieldExpr} (h : e.level.isSome) : (e.store ls).represents (e.eval vs) := by
  obtain ⟨n, h⟩ := Option.isSome_iff_exists.1 h
  exact (Limbs.represents_iff _ _).2
    ⟨FieldExpr.store_carried hs h, by rw [FieldExpr.toZ_store, FieldExpr.toZ_lazyLimbs hs]⟩

theorem storeAll_represents {es : List FieldExpr} (hes : ∀ e ∈ es, e.level.isSome) :
    List.Forall₂ Limbs.represents (storeAll es ls) (es.map (·.eval vs)) := by
  rw [storeAll, List.forall₂_map_left_iff, List.forall₂_map_right_iff, List.forall₂_same]
  exact fun e he => FieldExpr.store_represents hs (hes e he)

end

/-! ### The commands that are no fixed expression (R234, R236, R273–R280) -/

theorem constExprs_level (e : Ext) : ∀ x ∈ constExprs e, x.level.isSome := by simp [constExprs, FieldExpr.level]

theorem toExtExprs_level : ∀ e ∈ toExtExprs, e.level.isSome := by decide +kernel
theorem toProjExprs_level : ∀ e ∈ toProjExprs, e.level.isSome := by decide +kernel
theorem toCachedExprs_level : ∀ e ∈ toCachedExprs, e.level.isSome := by decide +kernel
theorem dblExprs_level : ∀ e ∈ dblExprs, e.level.isSome := by decide +kernel
theorem addExprs_level : ∀ e ∈ addExprs, e.level.isSome := by decide +kernel
theorem subExprs_level : ∀ e ∈ subExprs, e.level.isSome := by decide +kernel
theorem affineExprs_level : ∀ e ∈ affineExprs, e.level.isSome := by decide +kernel
theorem fromAffineExprs_level : ∀ e ∈ fromAffineExprs, e.level.isSome := by decide +kernel
theorem decodeExprs_level : ∀ e ∈ [decodeRoot, decodeMinus, decodePlus], e.level.isSome := by decide +kernel

/-- Limbs that stand for the coordinates of a point (R35). -/
def standFor (ls : List Limbs) (r : PReg) : Prop := List.Forall₂ Limbs.represents ls r.coords

theorem constExprs_standFor (e : Ext) : standFor (storeAll (constExprs e) []) (.ext e) :=
  storeAll_represents .nil (constExprs_level e)

section
variable {ls ks : List Limbs} {c : Compl} {e : Ext} {q : Proj} {k : Cached}

theorem standFor.toExt (h : standFor ls (.compl c)) : standFor (storeAll toExtExprs ls) (.ext c.toExt) :=
  storeAll_represents h toExtExprs_level

theorem standFor.toProj (h : standFor ls (.compl c)) : standFor (storeAll toProjExprs ls) (.proj c.toProj) :=
  storeAll_represents h toProjExprs_level

theorem standFor.toCached (h : standFor ls (.ext e)) : standFor (storeAll toCachedExprs ls) (.cached e.toCached) :=
  storeAll_represents h toCachedExprs_level

theorem standFor.dbl (h : standFor ls (.proj q)) : standFor (storeAll dblExprs ls) (.compl q.dbl) :=
  storeAll_represents h dblExprs_level

theorem standFor.dbl_ext (h : standFor ls (.ext e)) : standFor (storeAll dblExprs ls) (.compl e.toProj.dbl) :=
  storeAll_represents h dblExprs_level

theorem standFor.add (h : standFor ls (.ext e)) (hk : standFor ks (.cached k)) :
    standFor (storeAll addExprs (ls ++ ks)) (.compl (e.add k)) :=
  storeAll_represents (List.rel_append h hk) addExprs_level

theorem standFor.sub (h : standFor ls (.ext e)) (hk : standFor ks (.cached k)) :
    standFor (storeAll subExprs (ls ++ ks)) (.compl (e.sub k)) :=
  storeAll_represents (List.rel_append h hk) subExprs_level

theorem standFor.affine (h : standFor ls (.proj q)) :
    List.Forall₂ Limbs.represents (storeAll affineExprs ls) [q.affine.x, q.affine.y] :=
  storeAll_represents h affineExprs_level

theorem standFor.affine_ext (h : standFor ls (.ext e)) :
    List.Forall₂ Limbs.represents (storeAll affineExprs ls) [e.toProj.affine.x, e.toProj.affine.y] :=
  storeAll_represents h affineExprs_level

theorem fromAffineExprs_standFor {a : Affine} (h : List.Forall₂ Limbs.represents ls [a.x, a.y]) :
    standFor (storeAll fromAffineExprs ls) (.ext a.toExt) :=
  storeAll_represents h fromAffineExprs_level

end

/-! ### PT_ENC (R234) -/

section
variable {h : Limbs} {v : Fe} (hr : h.represents v)
include hr

theorem Limbs.represents.toBytes : h.toBytes = v.toBytes := by
  obtain ⟨hc, hv⟩ := hr
  rw [hc.toBytes, hv, Int.toNat_natCast, Fe.toBytes]

theorem Limbs.represents.isNegative : h.isNegative = Machine.isNegative v := by
  obtain ⟨hc, hv⟩ := hr
  rw [hc.isNegative, hv, isNegative_eq_decide]
  exact decide_eq_decide.2 (by omega)

theorem Limbs.represents.isNonZero_eq_false_iff : h.isNonZero = false ↔ v = Fe.zero := by
  obtain ⟨hc, hv⟩ := hr
  rw [hc.isNonZero, hv, decide_eq_false_iff_not, not_not, Int.natCast_eq_zero]
  exact ⟨fun h0 => Fe.ext_val (h0.trans Fe.zero_val.symm), fun h0 => h0 ▸ Fe.zero_val⟩

end

theorem limbEncode_eq {ls : List Limbs} {q : Proj} (h : standFor ls (.proj q)) : limbEncode ls = q.affine.encode := by
  have ha := h.affine
  simp only [limbEncode, Limbs.encodePoint, (getD_represents ha 0).isNegative, (getD_represents ha 1).toBytes]
  rfl

/-! ### PT_DSMUL (R273–R276) -/

theorem limbOddMultiplesFrom_standFor {a2 : List Limbs} {e2 : Ext} (h2 : standFor a2 (.ext e2)) (n : Nat) {ks : List Limbs}
    {k : Cached} (hk : standFor ks (.cached k)) :
    List.Forall₂ (fun ls c => standFor ls (.cached c)) (limbOddMultiplesFrom a2 n ks) (oddMultiplesFrom e2 n k) := by
  induction n generalizing ks k with
  | zero => exact .cons hk .nil
  | succ n ih => exact .cons hk (ih (h2.add hk).toExt.toCached)

theorem limbOddMultiples_standFor {ls : List Limbs} {e : Ext} (h : standFor ls (.ext e)) :
    List.Forall₂ (fun ls c => standFor ls (.cached c)) (limbOddMultiples ls) (oddMultiples e) :=
  limbOddMultiplesFrom_standFor h.dbl_ext.toExt 7 h.toCached

theorem limbBtab_standFor : List.Forall₂ (fun ls c => standFor ls (.cached c)) limbBtab Rom.btab := by
  rw [limbBtab, List.forall₂_map_left_iff, List.forall₂_same]
  intro k _
  exact .cons (Limbs.ofFe_represents _) (.cons (Limbs.ofFe_represents _) (.cons (Limbs.ofFe_represents _)
    (.cons (Limbs.ofFe_represents _) .nil)))

theorem limbTable_getD_standFor {table : List (List Limbs)} {ks : List Cached}
    (h : List.Forall₂ (fun ls c => standFor ls (.cached c)) table ks) (j : Nat) :
    standFor (table.getD j (storeAll toCachedExprs (storeAll (constExprs Rom.identity) [])))
      (.cached (ks.getD j Rom.identity.toCached)) := by
  induction h generalizing j with
  | nil =>
    rw [List.getD_nil, List.getD_nil]
    exact (constExprs_standFor Rom.identity).toCached
  | cons hk _ ih =>
    cases j with
    | zero => rwa [List.getD_cons_zero, List.getD_cons_zero]
    | succ j =>
      rw [List.getD_cons_succ, List.getD_cons_succ]
      exact ih j

section
variable {table : List (List Limbs)} {ks : List Cached}
    (htable : List.Forall₂ (fun ls c => standFor ls (.cached c)) table ks)
include htable

theorem limbAddDigit_standFor (digit : Int) {t : List Limbs} {c : Compl} (h : standFor t (.compl c)) :
    standFor (limbAddDigit table digit t) (.compl (addDigit ks digit c)) := by
  have hk := limbTable_getD_standFor htable (digit.natAbs / 2)
  simp only [limbAddDigit, addDigit, tableEntry]
  split
  · exact h.toExt.add hk
  · split
    · exact h.toExt.sub hk
    · exact h

theorem limbDoubleScalarStep_standFor (digits : Int × Int) {r : List Limbs} {q : Proj} (h : standFor r (.proj q)) :
    standFor (limbDoubleScalarStep table r digits) (.proj (doubleScalarStep ks q digits)) :=
  (limbAddDigit_standFor limbBtab_standFor digits.2 (limbAddDigit_standFor htable digits.1 h.dbl)).toProj

theorem foldl_limbDoubleScalarStep_standFor (ds : List (Int × Int)) {r : List Limbs} {q : Proj} (h : standFor r (.proj q)) :
    standFor (ds.foldl (limbDoubleScalarStep table) r) (.proj (ds.foldl (doubleScalarStep ks) q)) := by
  induction ds generalizing r q with
  | nil => exact h
  | cons d ds ih => exact ih (limbDoubleScalarStep_standFor htable d h)

end

theorem limbDoubleScalarMult_standFor {ls : List Limbs} {e : Ext} (h : standFor ls (.ext e)) (a b : List Byte) :
    standFor (limbDoubleScalarMult a ls b) (.proj (doubleScalarMult a e b)) :=
  foldl_limbDoubleScalarStep_standFor (limbOddMultiples_standFor h) _
    (.cons (Limbs.ofFe_represents _) (.cons (Limbs.ofFe_represents _) (.cons (Limbs.ofFe_represents _) .nil)))

/-! ### PT_SMULB (R280) -/

theorem limbExtMul_standFor {ls : List Limbs} {e : Ext} (h : standFor ls (.ext e)) (k n : Nat) :
    standFor (limbExtMul ls k n) (.ext (extMul e k n)) := by
  induction k generalizing n with
  | zero => exact constExprs_standFor Rom.identity
  | succ k ih =>
    have hd := (ih (n / 2)).dbl_ext.toExt
    simp only [limbExtMul, extMul]
    split
    · exact constExprs_standFor Rom.identity
    · split
      · exact (hd.add h.toCached).toExt
      · exact hd

theorem limbBaseMult_standFor (s : List Byte) : standFor (limbBaseMult s) (.ext (baseMult s).toExt) :=
  fromAffineExprs_standFor (limbExtMul_standFor (constExprs_standFor Rom.base) 256 _).affine_ext

/-! ### PT_DEC (R236) -/

/-- Limbs that stand for the coordinates of an affine point. -/
def standForAffine (xy : Limbs × Limbs) (a : Affine) : Prop := xy.1.represents a.x ∧ xy.2.represents a.y

/-- The choice of sign, and the refusal of −0, once the root is found. -/
theorem signedRoot_rel {x y : Limbs} {vx vy : Fe} (hx : x.represents vx) (hy : y.represents vy) (sign : Bool) :
    Option.Rel standForAffine
      (if x.isNonZero = false ∧ sign = true then none
       else if x.isNegative = sign then some (x, y)
       else some ((FieldExpr.neg (.input 0)).store [x], y))
      (if vx = Fe.zero ∧ sign = true then none
       else if isNegative vx = sign then some ⟨vx, vy⟩
       else some ⟨vx.neg, vy⟩) := by
  have hneg : ((FieldExpr.neg (.input 0)).store [x]).represents vx.neg :=
    FieldExpr.store_represents (e := .neg (.input 0)) (.cons hx .nil) rfl
  simp only [hx.isNonZero_eq_false_iff, hx.isNegative]
  split
  · exact .none
  · split
    · exact .some ⟨hx, hy⟩
    · exact .some ⟨hneg, hy⟩

section
variable {y : Limbs} {vy : Fe} (hy : y.represents vy)
include hy

theorem decodeRoot_represents : (decodeRoot.store [y]).represents
    (candidateRoot ((vy.mul vy).sub Fe.one) ((Rom.d.mul (vy.mul vy)).add Fe.one)) :=
  FieldExpr.store_represents (.cons hy .nil) (decodeExprs_level decodeRoot (by simp))

variable {x : Limbs} {vx : Fe} (hx : x.represents vx)
include hx

theorem decodeMinus_isNonZero_iff : (decodeMinus.store [y, x]).isNonZero = false ↔
    ((Rom.d.mul (vy.mul vy)).add Fe.one).mul (vx.mul vx) = (vy.mul vy).sub Fe.one := by
  have h := FieldExpr.store_represents (.cons hy (.cons hx .nil)) (decodeExprs_level decodeMinus (by simp))
  rw [h.isNonZero_eq_false_iff]
  exact Fe.sub_eq_zero_iff _ _

theorem decodePlus_isNonZero_iff : (decodePlus.store [y, x]).isNonZero = false ↔
    ((Rom.d.mul (vy.mul vy)).add Fe.one).mul (vx.mul vx) = ((vy.mul vy).sub Fe.one).neg := by
  have h := FieldExpr.store_represents (.cons hy (.cons hx .nil)) (decodeExprs_level decodePlus (by simp))
  rw [h.isNonZero_eq_false_iff]
  exact Fe.add_eq_zero_iff _ _

end


theorem mulSqrtm1_represents {x : Limbs} {vx : Fe} (hx : x.represents vx) :
    ((FieldExpr.mul (.input 0) (.const Rom.sqrtm1)).store [x]).represents (vx.mul Rom.sqrtm1) :=
  FieldExpr.store_represents (e := .mul (.input 0) (.const Rom.sqrtm1)) (.cons hx .nil) rfl

/-- The root `limbDecode` takes, by its two zero tests. -/
def limbRoot (y : Limbs) : Option Limbs :=
  if (decodeMinus.store [y, decodeRoot.store [y]]).isNonZero = false then some (decodeRoot.store [y])
  else if (decodePlus.store [y, decodeRoot.store [y]]).isNonZero = false then
    some ((FieldExpr.mul (.input 0) (.const Rom.sqrtm1)).store [decodeRoot.store [y]])
  else none

theorem limbRoot_rel {y : Limbs} {vy : Fe} (hy : y.represents vy) : Option.Rel Limbs.represents (limbRoot y)
    (squareRootRatio ((vy.mul vy).sub Fe.one) ((Rom.d.mul (vy.mul vy)).add Fe.one)) := by
  have hx := decodeRoot_represents hy
  have hminus := decodeMinus_isNonZero_iff hy hx
  have hplus := decodePlus_isNonZero_iff hy hx
  unfold limbRoot squareRootRatio
  generalize decodeRoot.store [y] = x at *
  generalize candidateRoot _ _ = vx at *
  dsimp only
  by_cases h0 : (decodeMinus.store [y, x]).isNonZero = false
  · rw [if_pos h0, if_pos (hminus.1 h0)]
    exact .some hx
  · rw [if_neg h0, if_neg (mt hminus.2 h0)]
    by_cases h1 : (decodePlus.store [y, x]).isNonZero = false
    · rw [if_pos h1, if_pos (hplus.1 h1)]
      exact .some (mulSqrtm1_represents hx)
    · rw [if_neg h1, if_neg (mt hplus.2 h1)]
      exact .none

theorem limbDecode_rel {b : List Byte} (hb : b.length = 32) :
    Option.Rel standForAffine (limbDecode b) (decodePoint b) := by
  have hy : (Limbs.load b).represents (Fe.ofNat (le b % 2 ^ 255)) := Limbs.load_represents hb
  have hroot := limbRoot_rel hy
  unfold limbDecode decodePoint
  by_cases hle : le b % 2 ^ 255 ≥ Config.p
  · simp only [if_pos hle]
    exact .none
  · simp only [if_neg hle]
    generalize hr : limbRoot (Limbs.load b) = r at hroot
    generalize squareRootRatio _ _ = r' at hroot ⊢
    rw [limbRoot] at hr
    rw [hr]
    cases hroot with
    | none => exact .none
    | some hx => exact signedRoot_rel hx hy _

/-! ### What a command with a program stores (R203) -/

/-- A command without an error passes every check of its operands (R332). -/
theorem operands_pass {i : Instr} {s : State} (h : firstError i s = none) :
    (∀ o ∈ i.operands, o.legal = true ∧ s.uninitAt o = false ∧ s.tagRefusedAt i o = false) ∧
      s.missingCoord i = false := by
  simp only [firstError, Option.or_eq_none_iff, firstAt, Option.map_eq_none_iff, List.find?_eq_none] at h
  obtain ⟨hlegal, huninit, htag, hcoord⟩ := h
  refine ⟨fun o ho => ⟨by simpa using hlegal o ho, by simpa using huninit o ho, by simpa using htag o ho⟩, ?_⟩
  simpa using hcoord

/-- A completion whose one write is P[rd]. -/
theorem complete_applyWrite_point (s : State) {rd : Operand} (hd : rd.toNat < 8) (r : PReg) :
    (s.applyWrite (.point ⟨rd.toNat, hd⟩ r)).complete = s.doneWithPoint rd r := by
  have hset : s.pReg.set rd.toNat r hd = s.pReg.setIfInBounds rd.toNat r := by
    ext j hj
    simp [Vector.getElem_set, Vector.getElem_setIfInBounds]
  simp only [State.doneWithPoint, ← hset]
  rfl

/-- The command completes, and its destination register holds these values. -/
def Stores (i : Instr) (s : State) (vs : List Fe) : Prop := ∃ t, exec i s = .next t ∧ t.stored i = vs

section
variable {i : Instr} {s : State} {rd ra rb : Operand}

theorem stores_field {v : Fe} (hdest : i.fieldDest = some rd) (hexec : exec i s = .next (s.doneWithField rd v)) :
    Stores i s [v] := by
  refine ⟨_, hexec, ?_⟩
  simp [State.stored, hdest, State.doneWithField]

theorem stores_point {r : PReg} (hfield : i.fieldDest = none) (hdest : i.pointDest = some rd) (hd : rd.toNat < 8)
    (hexec : exec i s = .next (s.doneWithPoint rd r)) : Stores i s r.coords := by
  refine ⟨_, hexec, ?_⟩
  simp [State.stored, hfield, hdest, State.doneWithPoint, Vector.getD, hd]

theorem fieldValue_of_valid {fld : ErrField} (h : s.uninitAt ⟨fld, .fs, ra⟩ = false) :
    s.src.fReg[fieldIndex ra] = some (s.fieldValue ra) := by
  unfold State.fieldValue
  cases hv : s.src.fReg[fieldIndex ra] with
  | none => simp [State.uninitAt, hv] at h
  | some v => rfl

theorem legal_lt {fld : ErrField} {cls : OperandClass} {n : Nat} (hn : cls.limit + 1 = n)
    (h : UsedOperand.legal ⟨fld, cls, ra⟩ = true) : ra.toNat < n := by
  simp only [UsedOperand.legal, decide_eq_true_eq] at h
  omega

theorem pointEntry_eq (ha : ra.toNat < 8) : s.pointEntry ra = s.src.pReg[ra.toNat] := by simp [State.pointEntry, ha]

theorem pointEntry_ne_empty {fld : ErrField} (h : s.uninitAt ⟨fld, .ps, ra⟩ = false) : s.pointEntry ra ≠ .empty := by
  simpa [State.uninitAt] using h

theorem tag_accepted {fld : ErrField} {tags : List (BitVec 3)} (htags : i.acceptedTags fld = some tags)
    (h : s.tagRefusedAt i ⟨fld, .ps, ra⟩ = false) : (s.pointEntry ra).tagCode ∈ tags := by
  simpa [tagRefusedAt_of_some s htags] using h

theorem ext_of_tagCode {r : PReg} (h : r.tagCode ∈ ([1] : List (BitVec 3))) : ∃ e, r = .ext e := by
  cases r with
  | ext e => exact ⟨e, rfl⟩
  | _ => simp [PReg.tagCode] at h

theorem cached_of_tagCode {r : PReg} (h : r.tagCode ∈ ([4] : List (BitVec 3))) : ∃ k, r = .cached k := by
  cases r with
  | cached k => exact ⟨k, rfl⟩
  | _ => simp [PReg.tagCode] at h

/-- `F[rd] <- f(F[ra])` (R150). -/
theorem stores_fieldUnary {f : Fe → Fe} (hops : i.operands = [⟨.rd, .fd, rd⟩, ⟨.ra, .fs, ra⟩])
    (hdest : i.fieldDest = some rd) (hexec : exec i s = fieldUnary f rd ra s) (h : firstError i s = none) :
    Stores i s [f (s.fieldValue ra)] := by
  have hp := (operands_pass h).1
  simp only [hops, List.forall_mem_cons] at hp
  obtain ⟨-, ⟨-, ha, -⟩, -⟩ := hp
  refine stores_field hdest ?_
  rw [hexec, fieldUnary_eq, fieldValue_of_valid ha]
  rfl

/-- `F[rd] <- f(F[ra], F[rb])` (R150). -/
theorem stores_fieldBinary {f : Fe → Fe → Fe}
    (hops : i.operands = [⟨.rd, .fd, rd⟩, ⟨.ra, .fs, ra⟩, ⟨.rb, .fs, rb⟩])
    (hdest : i.fieldDest = some rd) (hexec : exec i s = fieldBinary f rd ra rb s) (h : firstError i s = none) :
    Stores i s [f (s.fieldValue ra) (s.fieldValue rb)] := by
  have hp := (operands_pass h).1
  simp only [hops, List.forall_mem_cons] at hp
  obtain ⟨-, ⟨-, ha, -⟩, ⟨-, hb, -⟩, -⟩ := hp
  refine stores_field hdest ?_
  rw [hexec, fieldBinary_eq, fieldValue_of_valid ha, fieldValue_of_valid hb]
  rfl

/-- `P[rd] <- v` from P[ra], where `f` accepts its tag. -/
theorem stores_pointUnary {f : PReg → Except CmdError PReg} {tags : List (BitVec 3)} {vs : List Fe}
    (hops : i.operands = [⟨.rd, .pd, rd⟩, ⟨.ra, .ps, ra⟩]) (htags : i.acceptedTags .ra = some tags)
    (hfield : i.fieldDest = none) (hdest : i.pointDest = some rd) (hexec : exec i s = pointUnary f rd ra s)
    (h : firstError i s = none)
    (hf : s.pointEntry ra ≠ .empty → (s.pointEntry ra).tagCode ∈ tags →
      ∃ v, f (s.pointEntry ra) = .ok v ∧ v.coords = vs) :
    Stores i s vs := by
  have hp := (operands_pass h).1
  simp only [hops, List.forall_mem_cons] at hp
  obtain ⟨⟨hd, -, -⟩, ⟨ha, hne, htag⟩, -⟩ := hp
  have hd := legal_lt (n := 8) rfl hd
  have ha := legal_lt (n := 8) rfl ha
  have hne := pointEntry_ne_empty hne
  obtain ⟨v, hv, rfl⟩ := hf hne (tag_accepted htags htag)
  rw [pointEntry_eq ha] at hne hv
  refine stores_point hfield hdest hd ?_
  rw [hexec, pointUnary_inRange f rd ra s hd ha hne, hv]
  exact congrArg _ (complete_applyWrite_point s hd v)

/-- `P[rd] <- f(P[ra], P[rb])` of the mixed addition and subtraction (R231, R232). -/
theorem stores_pointMixed {f : Ext → Cached → Compl} {vs : List Fe}
    (hops : i.operands = [⟨.rd, .pd, rd⟩, ⟨.ra, .ps, ra⟩, ⟨.rb, .ps, rb⟩]) (hta : i.acceptedTags .ra = some [1])
    (htb : i.acceptedTags .rb = some [4]) (hfield : i.fieldDest = none) (hdest : i.pointDest = some rd)
    (hexec : exec i s = pointMixed f rd ra rb s) (h : firstError i s = none)
    (hf : ∀ e k, s.pointEntry ra = .ext e → s.pointEntry rb = .cached k → (PReg.compl (f e k)).coords = vs) :
    Stores i s vs := by
  have hp := (operands_pass h).1
  simp only [hops, List.forall_mem_cons] at hp
  obtain ⟨⟨hd, -, -⟩, ⟨ha, -, hta'⟩, ⟨hb, -, htb'⟩, -⟩ := hp
  have hd := legal_lt (n := 8) rfl hd
  have ha := legal_lt (n := 8) rfl ha
  have hb := legal_lt (n := 8) rfl hb
  have hta := tag_accepted hta hta'
  have htb := tag_accepted htb htb'
  obtain ⟨e, he⟩ := ext_of_tagCode hta
  obtain ⟨k, hk⟩ := cached_of_tagCode htb
  rw [← hf e k he hk]
  rw [pointEntry_eq ha] at he
  rw [pointEntry_eq hb] at hk
  refine stores_point hfield hdest hd ?_
  rw [hexec, pointMixed_ok f rd ra rb s e k hd ha hb he hk, complete_applyWrite_point]

/-- `P[rd] <- v` for a point of the ROM (R224, R225). -/
theorem stores_pointConst {r : PReg} (hops : i.operands = [⟨.rd, .pd, rd⟩]) (hfield : i.fieldDest = none)
    (hdest : i.pointDest = some rd)
    (hexec : exec i s = finish (do let d ← pointIndex rd .rd; pure [.point d r]) s) (h : firstError i s = none) :
    Stores i s r.coords := by
  have hp := (operands_pass h).1
  simp only [hops, List.forall_mem_cons] at hp
  obtain ⟨⟨hd, -, -⟩, -⟩ := hp
  have hd := legal_lt (n := 8) rfl hd
  refine stores_point hfield hdest hd ?_
  rw [hexec, pointIndex, inRange_ok 8 rd .rd hd]
  exact congrArg _ (complete_applyWrite_point s hd r)

/-- A coordinate an entry's tag gives is the one at that place of its list (R235). -/
theorem coord_eq_getD {r : PReg} (hne : r ≠ .empty) (j : Fin 4) (hcoord : ¬ (j = 3 ∧ r.tagCode = 2)) (fld : ErrField) :
    r.coord j fld = .ok (r.coords.getD j Fe.zero) := by
  cases r with
  | empty => contradiction
  | proj q => fin_cases j <;> first | rfl | simp [PReg.tagCode] at hcoord
  | _ => fin_cases j <;> rfl

theorem stores_ptGet (h : firstError (.ptGet rd ra rb) s = none) :
    Stores (.ptGet rd ra rb) s [(s.pointEntry ra).coords.getD rb.toNat Fe.zero] := by
  obtain ⟨hp, hcoord⟩ := operands_pass h
  simp only [Instr.operands, List.forall_mem_cons] at hp
  obtain ⟨-, ⟨ha, hne, -⟩, ⟨hb, -⟩, -⟩ := hp
  have ha := legal_lt (n := 8) rfl ha
  have hne := pointEntry_ne_empty hne
  have hb := legal_lt (n := 4) rfl hb
  refine stores_field rfl ?_
  rw [exec, execPtGet, pointIndex, coordIndex, inRange_ok 8 ra .ra ha, inRange_ok 4 rb .rb hb]
  have hentry : s.pointEntry ra = s.src.pReg[(⟨ra.toNat, ha⟩ : Fin Config.pointRegs)] := pointEntry_eq ha
  have hread := readPoint_ok s ⟨ra.toNat, ha⟩ .ra (hentry ▸ hne)
  have hv := coord_eq_getD hne ⟨rb.toNat, hb⟩ (fun hj => ?_) .rb
  · rw [hentry] at hv ⊢
    simp only [Bind.bind, Except.bind, hread, hv]
    rfl
  · obtain ⟨h3, h2⟩ := hj
    have hval : rb.toNat = 3 := Fin.val_eq_of_eq h3
    have hrb : rb = 3 := BitVec.eq_of_toNat_eq hval
    simp [State.missingCoord, hrb, h2] at hcoord

end

/-- Without an error a command with a program stores the values of its expressions (R203). -/
theorem stores_program {i : Instr} {s : State} {es : List FieldExpr} (hes : i.program (s.tagEntry i) = some es)
    (h : firstError i s = none) : Stores i s (es.map (·.eval (s.sources i))) := by
  cases i with
  | feZero rd => cases hes; exact stores_field rfl rfl
  | feOne rd => cases hes; exact stores_field rfl rfl
  | feLdc rd ra =>
    by_cases hra : ra.toNat < 3
    · simp only [Instr.program, hra, dif_pos, Option.some.injEq] at hes
      subst hes
      exact stores_field rfl (exec_feLdc_of_lt hra rd s)
    · simp [Instr.program, hra] at hes
  | feMov rd ra => cases hes; exact stores_fieldUnary rfl rfl rfl h
  | feNeg rd ra => cases hes; exact stores_fieldUnary rfl rfl rfl h
  | feSq rd ra => cases hes; exact stores_fieldUnary rfl rfl rfl h
  | feSq2 rd ra => cases hes; exact stores_fieldUnary rfl rfl rfl h
  | feInv rd ra => cases hes; exact stores_fieldUnary (f := Fe.inv) rfl rfl rfl h
  | fePow22523 rd ra => cases hes; exact stores_fieldUnary (f := Fe.pow22523) rfl rfl rfl h
  | feAdd rd ra rb => cases hes; exact stores_fieldBinary rfl rfl rfl h
  | feSub rd ra rb => cases hes; exact stores_fieldBinary rfl rfl rfl h
  | feMul rd ra rb => cases hes; exact stores_fieldBinary rfl rfl rfl h
  | ptIdent rd => cases hes; exact stores_pointConst rfl rfl rfl rfl h
  | ptLdb rd => cases hes; exact stores_pointConst rfl rfl rfl rfl h
  | ptMov rd ra =>
    refine stores_pointUnary rfl rfl rfl rfl rfl h fun _ _ => ⟨_, rfl, ?_⟩
    simp only [State.tagEntry, State.sources] at hes ⊢
    revert hes
    cases s.pointEntry ra with
    | empty => rintro ⟨⟩
    | _ => rintro ⟨⟩; rfl
  | ptToext rd ra =>
    cases hes
    refine stores_pointUnary rfl rfl rfl rfl rfl h fun _ htag => ?_
    simp only [State.sources]
    revert htag
    cases s.pointEntry ra with
    | compl _ => exact fun _ => ⟨_, rfl, rfl⟩
    | _ => simp [PReg.tagCode]
  | ptToproj rd ra =>
    refine stores_pointUnary rfl rfl rfl rfl rfl h fun _ htag => ?_
    simp only [State.tagEntry, State.sources] at hes ⊢
    revert hes htag
    cases s.pointEntry ra with
    | compl _ => rintro ⟨⟩ -; exact ⟨_, rfl, rfl⟩
    | ext _ => rintro ⟨⟩ -; exact ⟨_, rfl, rfl⟩
    | _ => simp [PReg.tagCode]
  | ptTocached rd ra =>
    cases hes
    refine stores_pointUnary rfl rfl rfl rfl rfl h fun _ htag => ?_
    simp only [State.sources]
    revert htag
    cases s.pointEntry ra with
    | ext _ => exact fun _ => ⟨_, rfl, rfl⟩
    | _ => simp [PReg.tagCode]
  | ptDbl rd ra =>
    cases hes
    refine stores_pointUnary rfl rfl rfl rfl rfl h fun _ htag => ?_
    simp only [State.sources]
    revert htag
    cases s.pointEntry ra with
    | ext _ => exact fun _ => ⟨_, rfl, rfl⟩
    | proj _ => exact fun _ => ⟨_, rfl, rfl⟩
    | _ => simp [PReg.tagCode]
  | ptNeg rd ra =>
    refine stores_pointUnary rfl rfl rfl rfl rfl h fun _ htag => ?_
    simp only [State.tagEntry, State.sources] at hes ⊢
    revert hes htag
    cases s.pointEntry ra with
    | ext _ => rintro ⟨⟩ -; exact ⟨_, rfl, rfl⟩
    | proj _ => rintro ⟨⟩ -; exact ⟨_, rfl, rfl⟩
    | _ => simp [PReg.tagCode]
  | ptAdd rd ra rb =>
    cases hes
    refine stores_pointMixed rfl rfl rfl rfl rfl rfl h fun e k he hk => ?_
    simp only [State.sources, he, hk]
    rfl
  | ptSub rd ra rb =>
    cases hes
    refine stores_pointMixed rfl rfl rfl rfl rfl rfl h fun e k he hk => ?_
    simp only [State.sources, he, hk]
    rfl
  | ptGet rd ra rb => cases hes; exact stores_ptGet h
  | _ => cases hes

/-- No command forms a sum past the multiplier's bound (R204). -/
theorem program_level {i : Instr} {entry : PReg} {es : List FieldExpr} (hes : i.program entry = some es) :
    ∀ e ∈ es, e.level.isSome := by
  cases i with
  | ptToext _ _ => cases hes; exact toExtExprs_level
  | ptTocached _ _ => cases hes; exact toCachedExprs_level
  | ptDbl _ _ => cases hes; exact dblExprs_level
  | ptAdd _ _ _ => cases hes; exact addExprs_level
  | ptSub _ _ _ => cases hes; exact subExprs_level
  | ptIdent _ => cases hes; exact constExprs_level _
  | ptLdb _ => cases hes; exact constExprs_level _
  | ptToproj _ _ =>
    cases entry with
    | compl _ => cases hes; exact toProjExprs_level
    | ext _ => cases hes; simp [FieldExpr.level]
    | _ => cases hes
  | ptMov _ _ | ptNeg _ _ => cases entry <;> cases hes <;> simp [FieldExpr.level]
  | feLdc _ ra =>
    simp only [Instr.program] at hes
    split at hes
    · cases hes
      simp [FieldExpr.level]
    · cases hes
  | nop | feIsneg _ | feIsnz _ | feTobytes _ _ | feFrombytes _ _ | ptEnc _ _ | ptDec _ _ | ptDsmul _ _ _ _ | ptSmulb _ _
  | scMuladd _ _ _ _ | scReduce _ _ | scMin _ | scLdl _ | scSlide _ _ => cases hes
  | _ => cases hes; simp [FieldExpr.level, FieldExpr.level.sumLevel]

/-- Settles O19: expressions keep their level, so each point step on limbs stands for the point formula. -/
theorem limbCommandsConform : Obligations.LimbCommandsConform := by
  refine ⟨fun i s es hes h => stores_program hes h, fun i entry es hes => program_level hes, ?_,
    fun e n ls vs hlevel hs => ?_, fun b hb => Limbs.load_represents hb, fun ls q h => limbEncode_eq h,
    fun b hb => limbDecode_rel hb, fun ls e a b h => limbDoubleScalarMult_standFor h a b, limbBaseMult_standFor⟩
  · simp only [List.forall_mem_append]
    exact ⟨⟨affineExprs_level, fromAffineExprs_level⟩, decodeExprs_level⟩
  · obtain ⟨hbound, hfit⟩ := FieldExpr.boundedBy_and_stepsFit hs hlevel
    have hmul := hbound.mulBound (FieldExpr.level_le hlevel)
    exact ⟨hbound, hmul, FieldExpr.store_represents hs (Option.isSome_of_eq_some hlevel), hfit, hmul.carryPass.1⟩

end Sys2Proof.Machine

namespace Sys2Proof

open Machine

theorem Fe.ofNat_two_mul (a : Fe) : (Fe.ofNat 2).mul a = a.add a := by
  refine Fe.toZ_injective ?_
  rw [Fe.toZ_mul, Fe.toZ_add, Fe.toZ_ofNat, Nat.cast_ofNat, two_mul]

theorem Fe.zero_sub_eq_neg (a : Fe) : Fe.zero.sub a = a.neg := by
  refine Fe.toZ_injective ?_
  rw [Fe.toZ_sub, Fe.toZ_neg, Fe.toZ_zero, zero_sub]

end Sys2Proof

namespace Sys2Proof.Machine

/-! ## Point commands (43_point.md) -/

/-! ### Which error a point command reports (R332–R334) -/

theorem legal_of_le {fld : ErrField} {cls : OperandClass} {o : Operand} (h : o.toNat ≤ cls.limit) :
    UsedOperand.legal ⟨fld, cls, o⟩ = true := decide_eq_true h

/-- The error the tables name is the one the command raises (R330, R332). -/
theorem failsWith_of_firstError {i : Instr} {s : State} {code : ErrCode} {fld : ErrField}
    (h : firstError i s = some ⟨code, fld⟩) : FailsWith s (exec i s) code fld := by
  rcases exec_cases i s with ⟨e, he, hexec⟩ | ⟨hnone, -⟩
  · cases he.symm.trans h
    exact hexec
  · cases hnone.symm.trans h

/-- What is left of the priority list where every checked operand is in its range (R332). -/
theorem firstError_of_legal {i : Instr} (s : State) {os : List UsedOperand} (hops : i.checked = os)
    (hlegal : ∀ o ∈ os, o.legal = true) : firstError i s = (firstIn .uninit s.uninitAt os).or
      ((firstIn .tag (s.tagRefusedAt i) os).or (errorIf (s.missingCoord i) ⟨.tag, .rb⟩)) := by
  have hrange : firstIn .badOperand (fun o => !o.legal) os = none := by
    rw [firstIn, Option.map_eq_none_iff, List.find?_eq_none]
    simpa using hlegal
  rw [firstError_eq s hops, hrange, Option.none_or]

theorem uninitAt_of_empty {s : State} {o : Operand} (h : s.pointEntry o = .empty) (fld : ErrField) :
    s.uninitAt ⟨fld, .ps, o⟩ = true := beq_iff_eq.2 h

theorem uninitAt_of_ne_empty {s : State} {o : Operand} (h : s.pointEntry o ≠ .empty) (fld : ErrField) :
    s.uninitAt ⟨fld, .ps, o⟩ = false := beq_eq_false_iff_ne.2 h

/-- Operands that pass the test leave the error to the one after them. -/
theorem firstIn_append_singleton {code : ErrCode} {test : UsedOperand → Bool} {ds : List UsedOperand} (x : UsedOperand)
    (hds : ∀ o ∈ ds, test o = false) : firstIn code test (ds ++ [x]) = errorIf (test x) ⟨code, x.field⟩ := by
  induction ds with
  | nil => simp
  | cons d ds ih =>
    rw [List.forall_mem_cons] at hds
    rw [List.cons_append, firstIn_cons, hds.1, errorIf_false, Option.none_or, ih hds.2]

/-- A command that checks at most its destination's range before its point source: EMPTY is UNINIT(ra), a tag not
accepted TAG(ra). -/
theorem pointSourceErrors_of_checked {cmd : Operand → Operand → Instr} {rdMax : Nat} {tags : List (BitVec 3)}
    {dests : Operand → List UsedOperand}
    (hdests : ∀ rd, rd.toNat ≤ rdMax → ∀ o ∈ dests rd, o.legal = true ∧ o.field = .rd ∧ o.cls = .pd)
    (hops : ∀ rd ra, (cmd rd ra).checked = dests rd ++ [⟨.ra, .ps, ra⟩] := by intros; rfl)
    (htd : ∀ rd ra, (cmd rd ra).acceptedTags .rd = none := by intros; rfl)
    (hta : ∀ rd ra, (cmd rd ra).acceptedTags .ra = some tags := by intros; rfl)
    (hcoord : ∀ rd ra s, State.missingCoord s (cmd rd ra) = false := by intros; rfl) :
    PointSourceErrors cmd rdMax tags := by
  intro s rd ra hrd hra
  have hd := hdests rd hrd
  have herr : firstError (cmd rd ra) s = (errorIf (s.uninitAt ⟨.ra, .ps, ra⟩) ⟨.uninit, .ra⟩).or
      (errorIf (!(tags.contains (s.pointEntry ra).tagCode)) ⟨.tag, .ra⟩) := by
    have hlegal : ∀ o ∈ dests rd ++ [⟨.ra, .ps, ra⟩], o.legal = true :=
      List.forall_mem_append.2 ⟨fun o ho => (hd o ho).1, List.forall_mem_singleton.2 (legal_of_le hra)⟩
    have hu : ∀ o ∈ dests rd, s.uninitAt o = false := fun o ho =>
      uninitAt_of_not_source s (by simp [(hd o ho).2.2])
    have ht : ∀ o ∈ dests rd, s.tagRefusedAt (cmd rd ra) o = false := fun o ho =>
      tagRefusedAt_of_none s ((hd o ho).2.1 ▸ htd rd ra) o.cls o.value
    rw [firstError_of_legal s (hops rd ra) hlegal, firstIn_append_singleton _ hu, firstIn_append_singleton _ ht,
      tagRefusedAt_of_some s (hta rd ra), hcoord, errorIf_false, Option.or_none]
  refine ⟨fun hempty => failsWith_of_firstError ?_, fun hne htag => failsWith_of_firstError ?_⟩
  · rw [herr, uninitAt_of_empty hempty]
    rfl
  · rw [herr, uninitAt_of_ne_empty hne, htag]
    rfl

/-- The commands from P[ra] to P[rd]. -/
theorem pointSourceErrors_of_point {cmd : Operand → Operand → Instr} {tags : List (BitVec 3)}
    (hops : ∀ rd ra, (cmd rd ra).checked = [⟨.rd, .pd, rd⟩, ⟨.ra, .ps, ra⟩] := by intros; rfl)
    (htd : ∀ rd ra, (cmd rd ra).acceptedTags .rd = none := by intros; rfl)
    (hta : ∀ rd ra, (cmd rd ra).acceptedTags .ra = some tags := by intros; rfl)
    (hcoord : ∀ rd ra s, State.missingCoord s (cmd rd ra) = false := by intros; rfl) :
    PointSourceErrors cmd 7 tags :=
  pointSourceErrors_of_checked (dests := fun rd => [⟨.rd, .pd, rd⟩])
    (fun _ hrd => List.forall_mem_singleton.2 ⟨legal_of_le hrd, rfl, rfl⟩) hops htd hta hcoord

/-! ### The shapes of the commands -/

/-- `P[rd] <- value` where `f` accepts the source entry. -/
theorem pointUnaryResult_of_ok {cmd : Operand → Operand → Instr} {f : PReg → Except CmdError PReg} {src value : PReg}
    (hne : src ≠ .empty) (hf : f src = .ok value)
    (hcmd : ∀ rd ra s, exec (cmd rd ra) s = pointUnary f rd ra s := by intros; rfl) : PointUnaryResult cmd src value := by
  intro s rd ra hrd hra hsrc
  have hrd : rd.toNat < 8 := by omega
  have hra : ra.toNat < 8 := by omega
  rw [pointEntry_eq hra] at hsrc
  rw [hcmd, pointUnary_inRange f rd ra s hrd hra (hsrc ▸ hne), hsrc, hf]
  exact congrArg _ (complete_applyWrite_point s hrd value)

/-- PT_ADD and PT_SUB: UNINIT of either source, then TAG of either (R231, R332). -/
theorem pointMixedRule_of_eq {cmd : Operand → Operand → Operand → Instr} {f value : Ext → Cached → Compl}
    (hval : ∀ e k, f e k = value e k)
    (hcmd : ∀ rd ra rb s, exec (cmd rd ra rb) s = pointMixed f rd ra rb s := by intros; rfl)
    (hops : ∀ rd ra rb, (cmd rd ra rb).checked = [⟨.rd, .pd, rd⟩, ⟨.ra, .ps, ra⟩, ⟨.rb, .ps, rb⟩] := by intros; rfl)
    (htd : ∀ rd ra rb, (cmd rd ra rb).acceptedTags .rd = none := by intros; rfl)
    (hta : ∀ rd ra rb, (cmd rd ra rb).acceptedTags .ra = some [1] := by intros; rfl)
    (htb : ∀ rd ra rb, (cmd rd ra rb).acceptedTags .rb = some [4] := by intros; rfl)
    (hcoord : ∀ rd ra rb s, State.missingCoord s (cmd rd ra rb) = false := by intros; rfl) :
    PointMixedRule cmd value := by
  intro s rd ra rb hrd hra hrb
  have herr : firstError (cmd rd ra rb) s = (errorIf (s.uninitAt ⟨.ra, .ps, ra⟩) ⟨.uninit, .ra⟩).or
      ((errorIf (s.uninitAt ⟨.rb, .ps, rb⟩) ⟨.uninit, .rb⟩).or
        ((errorIf (!([1].contains (s.pointEntry ra).tagCode)) ⟨.tag, .ra⟩).or
          (errorIf (!([4].contains (s.pointEntry rb).tagCode)) ⟨.tag, .rb⟩))) := by
    have hlegal : ∀ o ∈ [⟨.rd, .pd, rd⟩, ⟨.ra, .ps, ra⟩, ⟨.rb, .ps, rb⟩], UsedOperand.legal o = true := by
      simp only [List.forall_mem_cons]
      exact ⟨legal_of_le hrd, legal_of_le hra, legal_of_le hrb, List.forall_mem_nil _⟩
    rw [firstError_of_legal s (hops rd ra rb) hlegal]
    simp only [firstIn_cons, firstIn_nil, uninitAt_pd, tagRefusedAt_of_none s (htd rd ra rb),
      tagRefusedAt_of_some s (hta rd ra rb), tagRefusedAt_of_some s (htb rd ra rb), hcoord, errorIf_false,
      Option.none_or, Option.or_none, Option.or_assoc]
  refine ⟨fun e k hra' hrb' => ?_, fun hempty => failsWith_of_firstError ?_,
    fun hne hempty => failsWith_of_firstError ?_, fun hne htag hne' => failsWith_of_firstError ?_,
    fun htag hne htag' => failsWith_of_firstError ?_⟩
  · have hrd : rd.toNat < 8 := by omega
    have hra : ra.toNat < 8 := by omega
    have hrb : rb.toNat < 8 := by omega
    rw [pointEntry_eq hra] at hra'
    rw [pointEntry_eq hrb] at hrb'
    rw [hcmd, pointMixed_ok f rd ra rb s e k hrd hra hrb hra' hrb', hval, complete_applyWrite_point]
  · rw [herr, uninitAt_of_empty hempty]
    rfl
  · rw [herr, uninitAt_of_ne_empty hne, uninitAt_of_empty hempty]
    rfl
  · have hc : [1].contains (s.pointEntry ra).tagCode = false := by simpa using htag
    rw [herr, uninitAt_of_ne_empty hne, uninitAt_of_ne_empty hne', hc]
    rfl
  · have hne1 : s.pointEntry ra ≠ .empty := fun h => by simp [h, PReg.tagCode] at htag
    have hc : [4].contains (s.pointEntry rb).tagCode = false := by simpa using htag'
    rw [herr, uninitAt_of_ne_empty hne1, uninitAt_of_ne_empty hne, htag, hc]
    rfl

/-! ### Loads, moves, conversions and negation (R224–R229, R233) -/

/-- B as PT_LDB is stated to write it (R225). -/
theorem Rom.base_eq : Rom.base = ⟨Rom.base.x, Rom.base.y, Fe.one, Rom.base.x.mul Rom.base.y⟩ := by decide +kernel

/-- The commands that load a constant into P[rd]. -/
theorem exec_pointConst {i : Instr} {r : PReg} {rd : Operand} (s : State) (hrd : rd.toNat ≤ 7)
    (hcmd : exec i s = finish (do let d ← pointIndex rd .rd; pure [.point d r]) s := by rfl) :
    exec i s = .next (s.doneWithPoint rd r) := by
  have hrd : rd.toNat < 8 := by omega
  rw [hcmd, pointIndex, inRange_ok 8 rd .rd hrd]
  exact congrArg _ (complete_applyWrite_point s hrd r)

/-- Settles O20: PT_MOV writes what it reads, and T = XY holds of the ROM's B. -/
theorem pointLoadsAndMove : Obligations.PointLoadsAndMove := by
  refine ⟨(commandRow_d .ptIdent).decides, (commandRow_d .ptLdb).decides, (commandRow_da .ptMov).decides,
    fun s rd hrd => ⟨exec_pointConst s hrd, ?_⟩, fun r hne => pointUnaryResult_of_ok hne rfl, pointSourceErrors_of_point⟩
  rw [← Rom.base_eq]
  exact exec_pointConst s hrd

/-- Settles O21, by the formulas of the three conversions. -/
theorem pointConversionsWriteTheFormulas : Obligations.PointConversionsWriteTheFormulas :=
  ⟨(commandRow_da .ptToext).decides, (commandRow_da .ptToproj).decides, (commandRow_da .ptTocached).decides,
    fun _ _ _ _ => ⟨pointUnaryResult_of_ok nofun rfl, pointUnaryResult_of_ok nofun rfl, pointUnaryResult_of_ok nofun rfl,
      pointUnaryResult_of_ok nofun rfl⟩,
    pointSourceErrors_of_point, pointSourceErrors_of_point, pointSourceErrors_of_point⟩

/-- Settles O22: both accepted tags give PT_DBL their first three coordinates. -/
theorem pointDoublingWritesTheFormula : Obligations.PointDoublingWritesTheFormula :=
  ⟨(commandRow_da .ptDbl).decides,
    fun _ _ _ _ => ⟨pointUnaryResult_of_ok nofun rfl, pointUnaryResult_of_ok nofun rfl⟩, pointSourceErrors_of_point⟩

/-- Settles O23: the model's ZZ is a sum, the rule's a double. -/
theorem pointMixedAdditionWritesTheFormula : Obligations.PointMixedAdditionWritesTheFormula :=
  ⟨(commandRow_dab .ptAdd).decides, (commandRow_dab .ptSub).decides,
    pointMixedRule_of_eq (f := Ext.add) fun _ _ => by simp only [Ext.add, Fe.ofNat_two_mul],
    pointMixedRule_of_eq (f := Ext.sub) fun _ _ => by simp only [Ext.sub, Fe.ofNat_two_mul]⟩

/-- Settles O24: −X is 0 − X. -/
theorem pointNegationKeepsTheTag : Obligations.PointNegationKeepsTheTag := by
  refine ⟨(commandRow_da .ptNeg).decides, fun x y z t => ?_, pointSourceErrors_of_point⟩
  rw [Fe.zero_sub_eq_neg, Fe.zero_sub_eq_neg]
  exact ⟨pointUnaryResult_of_ok nofun rfl, pointUnaryResult_of_ok nofun rfl⟩

end Sys2Proof.Machine

namespace Sys2Proof

open Machine Laws

/-! ### Negatives and their parity (R236) -/

theorem Fe.neg_zero : Fe.zero.neg = Fe.zero := Fe.toZ_injective (by simp)

theorem Fe.isNegative_zero : isNegative Fe.zero = false := by decide +kernel

/-- p is odd, so −x has the other parity. -/
theorem Fe.isNegative_neg {x : Fe} (h : x ≠ Fe.zero) : isNegative x.neg = !isNegative x := by
  have hx : x.val ≠ 0 := fun h0 => h (Fe.ext_val (h0.trans Fe.zero_val.symm))
  have hlt := x.isLt
  have hodd : Config.p % 2 = 1 := by decide
  have hval : x.neg.val = Config.p - x.val := Nat.mod_eq_of_lt (by omega)
  simp only [isNegative_eq_decide, ← decide_not, decide_eq_decide]
  omega

theorem Fe.toZ_sq_eq_iff {x r : Fe} : x.toZ ^ 2 = r.toZ ^ 2 ↔ x = r ∨ x = r.neg := by
  have := fact_prime_p
  rw [sq_eq_sq_iff_eq_or_eq_neg, ← Fe.toZ_neg, Fe.toZ_inj, Fe.toZ_inj]

end Sys2Proof

namespace Sys2Proof.Machine

open Laws

/-! ### Decoding accepts exactly the points of the curve (R236) -/

/-- `v·r² = u·(u·v⁷)^((p−1)/4)` for the candidate root r. -/
theorem candidateRoot_sq (u v : Fe) :
    v.toZ * (candidateRoot u v).toZ ^ 2 = u.toZ * (u.toZ * v.toZ ^ 7) ^ ((Config.p - 1) / 4) := by
  have hexp : (Config.p - 1) / 4 = 2 * ((Config.p - 5) / 8) + 1 := by decide
  simp only [candidateRoot, Fe.toZ_mul, Fe.toZ_pow22523, hexp, pow_succ, pow_mul]
  ring

/-- Where `u / v` has a root, `u·v⁷` is a square, and its power (p−1)/4 is 1 or −1 by Euler's criterion. -/
theorem candidateRoot_sq_of_root {u v x : Fe} (h : v.toZ * x.toZ ^ 2 = u.toZ) :
    v.toZ * (candidateRoot u v).toZ ^ 2 = u.toZ ∨ v.toZ * (candidateRoot u v).toZ ^ 2 = -u.toZ := by
  have := fact_prime_p
  have hsquare : u.toZ * v.toZ ^ 7 = (v.toZ ^ 4 * x.toZ) ^ 2 := by rw [← h]; ring
  have hexp : 2 * ((Config.p - 1) / 4) = Config.p / 2 := by decide
  rw [candidateRoot_sq, hsquare, ← pow_mul, hexp]
  by_cases hw : v.toZ ^ 4 * x.toZ = 0
  · have hu : u.toZ = 0 := by
      rcases mul_eq_zero.1 hw with hv | hx
      · rw [← h, eq_zero_of_pow_eq_zero hv, zero_mul]
      · rw [← h, hx, zero_pow two_ne_zero, mul_zero]
    exact .inl (by rw [hu, zero_mul])
  · rcases ZMod.pow_div_two_eq_neg_one_or_one Config.p hw with h1 | h1 <;> rw [h1]
    · exact .inl (mul_one _)
    · exact .inr (mul_neg_one _)

/-- Where `u / v` has a square root, the decoder finds one. -/
theorem exists_squareRootRatio {u v x : Fe} (h : v.toZ * x.toZ ^ 2 = u.toZ) : ∃ r, squareRootRatio u v = some r := by
  unfold squareRootRatio
  have hcandidate : v.mul ((candidateRoot u v).mul (candidateRoot u v)) = u ∨
      v.mul ((candidateRoot u v).mul (candidateRoot u v)) = u.neg := by
    simpa only [← Fe.toZ_inj, Fe.toZ_mul, Fe.toZ_neg, pow_two] using candidateRoot_sq_of_root h
  by_cases hu : v.mul ((candidateRoot u v).mul (candidateRoot u v)) = u
  · exact ⟨_, if_pos hu⟩
  · exact ⟨_, (if_neg hu).trans (if_pos (hcandidate.resolve_left hu))⟩

/-- Of the two roots ±r the decoder takes the one with the sign bit's parity, and refuses −0. -/
theorem signedRoot_eq_some_iff {r y : Fe} {sign : Bool} {a : Affine} :
    (if r = Fe.zero ∧ sign = true then none
     else if isNegative r = sign then some ⟨r, y⟩
     else some ⟨r.neg, y⟩) = some a ↔ y = a.y ∧ (a.x = r ∨ a.x = r.neg) ∧ isNegative a.x = sign := by
  have hzero := Fe.isNegative_zero
  constructor
  · intro h
    split at h
    · cases h
    · next hminus =>
      split at h <;> cases h
      · next hs => exact ⟨rfl, .inl rfl, hs⟩
      · next hs =>
        have hr : r ≠ Fe.zero := by
          rintro rfl
          rw [hzero] at hs
          exact hminus ⟨rfl, (Bool.eq_false_or_eq_true sign).resolve_right fun h => hs h.symm⟩
        exact ⟨rfl, .inr rfl, by rw [Fe.isNegative_neg hr, Bool.not_eq.2 hs]⟩
  · obtain ⟨x, y'⟩ := a
    rintro ⟨rfl, hx, hs⟩
    have hminus : ¬ (x = Fe.zero ∧ sign = true) := by
      rintro ⟨rfl, rfl⟩
      cases hzero.symm.trans hs
    by_cases hxr : x = r
    · subst hxr
      rw [if_neg hminus, if_pos hs]
    · obtain rfl := hx.resolve_left hxr
      have hr : r ≠ Fe.zero := by
        rintro rfl
        exact hxr Fe.neg_zero
      rw [Fe.isNegative_neg hr] at hs
      rw [if_neg (fun h => hr h.1), if_neg (hs ▸ (Bool.not_ne_self _).symm)]

/-- The curve equation solved for x²: `(d·y² + 1)·x² = y² − 1`. -/
theorem onCurve_iff_root (a : Affine) : a.onCurve ↔
    ((Rom.d.mul (a.y.mul a.y)).add Fe.one).toZ * a.x.toZ ^ 2 = ((a.y.mul a.y).sub Fe.one).toZ := by
  rw [onCurve_iff]
  simp only [Fe.toZ_add, Fe.toZ_sub, Fe.toZ_mul, Fe.toZ_one]
  constructor <;> intro h <;> linear_combination -h

/-- The denominator `d·y² + 1` vanishes nowhere, since −1 is a square and d is not. -/
theorem decodeDenominator_ne_zero (y : Fe) : ((Rom.d.mul (y.mul y)).add Fe.one).toZ ≠ 0 := by
  have := fact_prime_p
  intro h
  simp only [Fe.toZ_add, Fe.toZ_mul, Fe.toZ_one] at h
  have hy : y.toZ ≠ 0 := by
    rintro h0
    simp [h0] at h
  refine Rom.d_not_square ⟨Rom.sqrtm1.toZ / y.toZ, ?_⟩
  field_simp
  linear_combination h - Rom.toZ_sqrtm1_sq

/-- What the decoder computes, from its three refusals. -/
theorem decodePoint_eq_some_iff {s : List Byte} {a : Affine} : decodePoint s = some a ↔ a.y.val = le s % 2 ^ 255 ∧
    isNegative a.x = ((s.getD 31 0).toNat / 128 == 1) ∧
    ∃ r, squareRootRatio ((a.y.mul a.y).sub Fe.one) ((Rom.d.mul (a.y.mul a.y)).add Fe.one) = some r ∧
      (a.x = r ∨ a.x = r.neg) := by
  unfold decodePoint
  by_cases hle : le s % 2 ^ 255 ≥ Config.p
  · simp only [if_pos hle]
    have := a.y.isLt
    exact ⟨nofun, fun h => by omega⟩
  · simp only [if_neg hle]
    have hy : ∀ y : Fe, Fe.ofNat (le s % 2 ^ 255) = y ↔ y.val = le s % 2 ^ 255 := fun y => by
      have hval := Fe.ofNat_of_lt (le s % 2 ^ 255) (by omega)
      exact ⟨fun h => h ▸ hval, fun h => Fe.ext_val (hval.trans h.symm)⟩
    generalize Fe.ofNat (le s % 2 ^ 255) = y at hy ⊢
    cases hroot : squareRootRatio ((y.mul y).sub Fe.one) ((Rom.d.mul (y.mul y)).add Fe.one) with
    | none =>
      refine ⟨nofun, fun ⟨hval, _, r, hr, _⟩ => ?_⟩
      obtain rfl := (hy a.y).2 hval
      cases hroot.symm.trans hr
    | some r =>
      refine signedRoot_eq_some_iff.trans ⟨fun ⟨hya, hx, hs⟩ => ?_, fun ⟨hval, hs, r', hr', hx⟩ => ?_⟩
      · subst hya
        exact ⟨(hy _).1 rfl, hs, r, hroot, hx⟩
      · obtain rfl := (hy a.y).2 hval
        cases hroot.symm.trans hr'
        exact ⟨rfl, hx, hs⟩

theorem isNegative_eq_signBit_iff (x : Fe) (b : Byte) : isNegative x = (b.toNat / 128 == 1) ↔ x.val % 2 = b.toNat / 128 := by
  have hb := b.isLt
  rw [isNegative, Bool.eq_iff_iff, beq_iff_eq, beq_iff_eq]
  omega

/-- Settles O38: the decoder finds a root wherever there is one, and the two roots ±x differ in parity. -/
theorem decodedPointIsTheEncodedOne : Obligations.DecodedPointIsTheEncodedOne := by
  have := fact_prime_p
  intro s a _
  rw [decodePoint_eq_some_iff, isNegative_eq_signBit_iff, onCurve_iff_root]
  constructor
  · rintro ⟨hy, hsign, r, hr, hx⟩
    exact ⟨Fe.toZ_sq_eq_iff.2 hx ▸ squareRootRatio_root hr, hy, hsign⟩
  · rintro ⟨hcurve, hy, hsign⟩
    obtain ⟨r, hr⟩ := exists_squareRootRatio hcurve
    have hsq : a.x.toZ ^ 2 = r.toZ ^ 2 :=
      mul_left_cancel₀ (decodeDenominator_ne_zero a.y) (hcurve.trans (squareRootRatio_root hr).symm)
    exact ⟨hy, hsign, r, hr, Fe.toZ_sq_eq_iff.1 hsq⟩

end Sys2Proof.Machine

namespace Sys2Proof.Machine

open Laws

/-! ### The compressed encoding (R234, R236, R238) -/

/-- A multiple of 256^(n+1) does not reach byte n. -/
theorem ofNat_add_mul_div_pow (v n c : Nat) :
    BitVec.ofNat 8 ((v + 256 ^ (n + 1) * c) / 256 ^ n) = BitVec.ofNat 8 (v / 256 ^ n) := by
  rw [Nat.pow_succ, Nat.mul_assoc, Nat.add_mul_div_left _ _ (Nat.pow_pos (by decide))]
  apply BitVec.eq_of_toNat_eq
  simp only [BitVec.toNat_ofNat]
  omega

/-- Setting bit 7 of byte 31 adds 2^255 to a 32-byte value below 2^255. -/
theorem leBytes_set_bit_255 {v : Nat} (hv : v < 2 ^ 255) (b : Bool) :
    (leBytes 32 v).set 31 ((leBytes 32 v).getD 31 0 ||| (if b then 0x80 else 0)) =
      leBytes 32 (v + 2 ^ 255 * b.toNat) := by
  have htop : ∀ q < 128, BitVec.ofNat 8 q ||| 0x80 = BitVec.ofNat 8 (q + 128) := by decide
  refine List.ext_getElem (by simp) fun i _ hi => ?_
  rw [leBytes_length] at hi
  rw [List.getElem_set, leBytes_getElem, leBytes_getElem]
  split
  · next h31 =>
    subst h31
    rw [List.getD_eq_getElem _ _ (by simp), leBytes_getElem]
    cases b
    · simp
    · rw [if_pos rfl, htop _ (by omega)]
      congr 1
      simp only [Bool.toNat_true]
      omega
  · have hpow : 2 ^ 255 = 256 ^ (i + 1) * 2 ^ (255 - 8 * (i + 1)) := by
      rw [show 256 = 2 ^ 8 by rfl, ← pow_mul, ← pow_add]
      congr 1
      omega
    rw [hpow, Nat.mul_assoc, ofNat_add_mul_div_pow]

theorem isNegative_toNat (x : Fe) : (isNegative x).toNat = x.val % 2 := by
  rcases Nat.mod_two_eq_zero_or_one x.val with h | h <;> simp [isNegative, h]

/-- The encoding as one number: y with the parity of x in bit 255 (R234). -/
theorem Affine.encode_eq_leBytes (a : Affine) : a.encode = leBytes 32 (a.y.val + 2 ^ 255 * (a.x.val % 2)) := by
  rw [← isNegative_toNat, ← leBytes_set_bit_255 a.y.val_lt_two_pow]
  rfl

theorem Affine.le_encode (a : Affine) : le a.encode = a.y.val + 2 ^ 255 * (a.x.val % 2) := by
  have hy := a.y.val_lt_two_pow
  rw [Affine.encode_eq_leBytes, le_leBytes_of_lt]
  omega

/-- The sign bit of 32 bytes is what their value holds above bit 254. -/
theorem signBit_eq_div {s : List Byte} (hs : s.length = 32) : (s.getD 31 0).toNat / 128 = le s / 2 ^ 255 := by
  have hlt := hs ▸ le_lt s
  have hbytes : s = leBytes 32 (le s) := by rw [← hs, leBytes_le]
  have hbyte : s.getD 31 0 = BitVec.ofNat 8 (le s / 256 ^ 31) := by
    conv_lhs => rw [hbytes]
    rw [List.getD_eq_getElem _ _ (by simp), leBytes_getElem]
  rw [hbyte, BitVec.toNat_ofNat]
  omega

theorem encode_of_decodePoint {s : List Byte} {a : Affine} (hs : s.length = 32) (h : decodePoint s = some a) :
    a.encode = s := by
  obtain ⟨-, hy, hx⟩ := (decodedPointIsTheEncodedOne s a hs).1 h
  rw [Affine.encode_eq_leBytes, hy, hx, signBit_eq_div hs, Nat.mod_add_div, ← hs, leBytes_le]

theorem decodePoint_encode {a : Affine} (h : a.onCurve) : decodePoint a.encode = some a := by
  have hy := a.y.val_lt_two_pow
  have hle := a.le_encode
  refine (decodedPointIsTheEncodedOne _ a a.encode_length).2 ⟨h, ?_, ?_⟩
  · omega
  · rw [signBit_eq_div a.encode_length]
    omega

/-- Settles O39: both are the number y + 2^255·(x mod 2), in 32 bytes. -/
theorem encodingRoundTrips : Obligations.EncodingRoundTrips :=
  ⟨fun _ _ hs h => encode_of_decodePoint hs h, fun _ h => decodePoint_encode h, fun a b ha hb h =>
    Option.some.inj (by rw [← decodePoint_encode ha, h, decodePoint_encode hb])⟩

/-! ### PT_GET, PT_ENC and PT_DEC (R234, R235, R237) -/

theorem coord_of_coords {r : PReg} {j : Fin 4} {v : Fe} (h : r.coords[j.val]? = some v) (fld : ErrField) :
    r.coord j fld = .ok v := by
  cases r with
  | empty => cases h
  | ext | proj | compl | cached => fin_cases j <;> cases h <;> rfl

theorem ne_empty_of_coords {r : PReg} {n : Nat} {v : Fe} (h : r.coords[n]? = some v) : r ≠ .empty := by
  rintro rfl
  simp [PReg.coords] at h

theorem coords_length_le (r : PReg) : r.coords.length ≤ 4 := by cases r <;> simp [PReg.coords]

/-- A point source in range and not EMPTY reads as its entry. -/
theorem readPoint_of_ne_empty {s : State} {o : Operand} (ho : o.toNat < 8) (h : s.pointEntry o ≠ .empty) (fld : ErrField) :
    s.readPoint ⟨o.toNat, ho⟩ fld = .ok (s.pointEntry o) := by
  rw [pointEntry_eq ho] at h ⊢
  exact readPoint_ok s ⟨o.toNat, ho⟩ fld h

theorem exec_ptGet_of_coords {s : State} {ra rb : Operand} {v : Fe} (rd : Operand) (hra : ra.toNat ≤ 7)
    (h : (s.pointEntry ra).coords[rb.toNat]? = some v) : exec (.ptGet rd ra rb) s = .next (s.doneWithField rd v) := by
  have hra : ra.toNat < 8 := by omega
  have hrb : rb.toNat < 4 := by
    have hlen := coords_length_le (s.pointEntry ra)
    have := (List.getElem?_eq_some_iff.1 h).1
    omega
  have hread := readPoint_of_ne_empty hra (ne_empty_of_coords h) .ra
  have hcoord := coord_of_coords (j := ⟨rb.toNat, hrb⟩) h .rb
  simp only [exec, execPtGet, pointIndex, coordIndex, inRange_ok 8 ra .ra hra, inRange_ok 4 rb .rb hrb]
  simp only [Bind.bind, Except.bind, hread, hcoord]
  rfl

theorem exec_ptEnc_of_xyz {s : State} {ra : Operand} {q : Proj} (rd : Operand) (hra : ra.toNat ≤ 7)
    (h : (s.pointEntry ra).asXyz .ra = .ok q) :
    exec (.ptEnc rd ra) s = finish (.ok [.data (slotOffset rd) q.affine.encode]) s := by
  have hra : ra.toNat < 8 := by omega
  have hne : s.pointEntry ra ≠ .empty := fun hempty => by
    rw [hempty] at h
    cases h
  have hread := readPoint_of_ne_empty hra hne .ra
  simp only [exec, execPtEnc, pointIndex, inRange_ok 8 ra .ra hra]
  simp only [Bind.bind, Except.bind, hread, h]
  rfl

/-- Settles O25: the coordinate list of an entry is what `coord` reads, and the tables name the error. -/
theorem pointGetReadsTheStoredCoordinate : Obligations.PointGetReadsTheStoredCoordinate := by
  refine ⟨(commandRow_dab .ptGet).decides, fun s rd ra rb hra => ?_⟩
  have hops : (Instr.ptGet rd ra rb).checked = [⟨.ra, .ps, ra⟩, ⟨.rb, .c, rb⟩] := rfl
  have hlegal : rb.toNat ≤ 3 → ∀ o ∈ [⟨.ra, .ps, ra⟩, ⟨.rb, .c, rb⟩], UsedOperand.legal o = true := fun hrb =>
    List.forall_mem_cons.2 ⟨legal_of_le hra, List.forall_mem_singleton.2 (legal_of_le hrb)⟩
  refine ⟨fun v h => exec_ptGet_of_coords rd hra h, fun hrb => failsWith_of_firstError ?_,
    fun hrb hempty => failsWith_of_firstError ?_, fun hrb htag => failsWith_of_firstError ?_⟩
  · have hra' : UsedOperand.legal ⟨.ra, .ps, ra⟩ = true := legal_of_le hra
    have hrb' : UsedOperand.legal ⟨.rb, .c, rb⟩ = false := decide_eq_false (Nat.not_le.2 hrb)
    rw [firstError_eq s hops, firstIn_cons, firstIn_cons, hra', hrb']
    rfl
  · rw [firstError_of_legal s hops (hlegal hrb), firstIn_cons, uninitAt_of_empty hempty]
    rfl
  · have hne : s.pointEntry ra ≠ .empty := fun h => by simp [h, PReg.tagCode] at htag
    have hrb3 : rb = 3 := BitVec.eq_of_toNat_eq hrb
    have hcoord : s.missingCoord (.ptGet rd ra rb) = true := by simp [State.missingCoord, hrb3, htag]
    have hta : s.tagRefusedAt (.ptGet rd ra rb) ⟨.ra, .ps, ra⟩ = false := by
      rw [tagRefusedAt_of_some s (tags := [1, 2, 3, 4]) rfl, htag]
      rfl
    rw [firstError_of_legal s hops (hlegal hrb.le), hcoord, firstIn_cons, firstIn_cons, uninitAt_of_ne_empty hne,
      firstIn_cons, firstIn_cons, hta]
    rfl

/-- Settles O26, by the encoding as one number; a slot lies inside DATA. -/
theorem pointEncodeStoresCompressedBytes : Obligations.PointEncodeStoresCompressedBytes := by
  refine ⟨(commandRow_da .ptEnc).decides, fun s rd ra x y z t hra hwf hsrc => ?_,
    pointSourceErrors_of_checked (dests := fun _ => []) fun _ _ => List.forall_mem_nil _⟩
  have hxyz : (s.pointEntry ra).asXyz .ra = .ok ⟨x, y, z⟩ := by
    rcases hsrc with h | h <;> rw [h] <;> rfl
  have hbytes := Affine.encode_eq_leBytes (Proj.affine ⟨x, y, z⟩)
  rw [exec_ptEnc_of_xyz rd hra hxyz, hbytes]
  exact storesBytes_finish hwf (by simpa using slotOffset_in_data rd)

theorem complete_applyWrites_point_flag (s : State) {rd : Operand} (hd : rd.toNat < 8) (r : PReg) (b : Bool) :
    (s.applyWrites [.point ⟨rd.toNat, hd⟩ r, .flag b]).complete = { s.doneWithPoint rd r with flag := b } := by
  rw [← complete_applyWrite_point s hd r]
  rfl

theorem exec_ptDec_of_lt {rd : Operand} (hd : rd.toNat < 8) (ra : Operand) (s : State) :
    exec (.ptDec rd ra) s = finish (.ok (decodeWrites ⟨rd.toNat, hd⟩ (decodePoint (s.slot ra)))) s := by
  simp only [exec, execPtDec, pointIndex, inRange_ok 8 rd .rd hd]
  rfl

/-- Settles O27, by the two answers of the decoder. -/
theorem pointDecodeWritesPointAndFlag : Obligations.PointDecodeWritesPointAndFlag := by
  refine ⟨(commandRow_da .ptDec).decides, fun s rd ra hrd => ?_⟩
  have hd : rd.toNat < 8 := by omega
  have hslot : s.slot ra = s.src.data.readBytes (32 * ra.toNat) 32 := rfl
  rw [exec_ptDec_of_lt hd, ← hslot]
  refine ⟨fun a h => ?_, fun h => ?_⟩ <;> rw [h] <;> exact congrArg _ (complete_applyWrites_point_flag s hd _ _)

/-! ### The addition law (R221) -/

theorem Affine.eq_of_toZ {a b : Affine} (hx : a.x.toZ = b.x.toZ) (hy : a.y.toZ = b.y.toZ) : a = b :=
  congrArg₂ Affine.mk (Fe.toZ_injective hx) (Fe.toZ_injective hy)

theorem Affine.cross_comm (a b : Affine) : a.cross b = b.cross a := by
  unfold Affine.cross
  ring

theorem Affine.add_comm (a b : Affine) : a.add b = b.add a := by
  refine Affine.eq_of_toZ ?_ ?_
  · rw [Affine.toZ_add_x, Affine.toZ_add_x, Affine.cross_comm]
    ring
  · rw [Affine.toZ_add_y, Affine.toZ_add_y, Affine.cross_comm]
    ring

theorem Affine.add_identity (a : Affine) : a.add Affine.identity = a := by
  have := fact_prime_p
  have hcross : a.cross Affine.identity = 0 := by simp [Affine.cross, Affine.identity]
  refine Affine.eq_of_toZ ?_ ?_
  · rw [Affine.toZ_add_x, hcross]
    simp [Affine.identity]
  · rw [Affine.toZ_add_y, hcross]
    simp [Affine.identity]

theorem Affine.add_neg {a : Affine} (ha : a.onCurve) : a.add a.neg = Affine.identity := by
  have := fact_prime_p
  obtain ⟨-, hm⟩ : 1 + a.cross a.neg ≠ 0 ∧ 1 - a.cross a.neg ≠ 0 := denominators_ne_zero a a.neg ha (Affine.neg_onCurve ha)
  have hcurve : a.y.toZ * a.neg.y.toZ + a.x.toZ * a.neg.x.toZ = 1 - a.cross a.neg := by
    rw [onCurve_iff] at ha
    simp only [Affine.cross, Affine.neg, Fe.toZ_neg]
    linear_combination ha
  refine Affine.eq_of_toZ ?_ ?_
  · rw [Affine.toZ_add_x]
    simp [Affine.neg, Affine.identity, mul_comm]
  · rw [Affine.toZ_add_y, hcurve, mul_inv_cancel₀ hm]
    simp [Affine.identity]

/-- Settles O35, by completeness of the law. -/
theorem additionLawIsClosedOnTheCurve : Obligations.AdditionLawIsClosedOnTheCurve := by
  intro a b ha hb
  refine ⟨?_, Affine.add_onCurve ha hb, a.add_comm b, a.add_identity, Affine.add_neg ha⟩
  obtain ⟨hp, hm⟩ : 1 + a.cross b ≠ 0 ∧ 1 - a.cross b ≠ 0 := denominators_ne_zero a b ha hb
  have hcross : (Rom.d.mul ((a.x.mul b.x).mul (a.y.mul b.y))).toZ = a.cross b := by
    simp only [Fe.toZ_mul, Affine.cross]
    ring
  simp only [← Fe.toZ_ne_zero, Fe.toZ_add, Fe.toZ_sub, Fe.toZ_one, hcross]
  exact ⟨hp, hm⟩

/-! ### What a stored entry stands for (R222, R227–R233, R280) -/

/-- Settles O36: each formula represents the sum its rule names. -/
theorem pointFormulasFollowTheLaw : Obligations.PointFormulasFollowTheLaw := by
  refine ⟨fun q hq => ?_, fun e k he hk => ?_⟩
  · have h := hq.represents.dbl
    exact ⟨h.valid, h.affine_eq⟩
  · have hadd := he.represents.add hk.represents
    have hsub := he.represents.sub hk.represents
    exact ⟨hadd.valid, hadd.affine_eq, hsub.valid, hsub.affine_eq⟩

/-- The two tags PT_ENC accepts give it the entry's affine point. -/
theorem exists_asXyz {r : PReg} (h : r.tagCode ∈ ([1, 2] : List (BitVec 3))) (fld : ErrField) :
    ∃ q : Proj, r.asXyz fld = .ok q ∧ r.affine? = some q.affine := by
  cases r with
  | ext e => exact ⟨_, rfl, rfl⟩
  | proj q => exact ⟨_, rfl, rfl⟩
  | _ => simp [PReg.tagCode] at h

/-- Settles O37: conversions represent the point they read, and PT_ENC reads an entry through its affine point only. -/
theorem conversionsKeepTheAffinePoint : Obligations.ConversionsKeepTheAffinePoint := by
  refine ⟨fun c hc => ?_, fun e he => ?_, fun q hq => ?_, fun s rd ra rb hra hrb hta htb heq => ?_⟩
  · have hext := hc.represents.toExt
    have hproj := hc.represents.toProj
    exact ⟨hext.valid, hext.affine_eq, hproj.valid, hproj.affine_eq⟩
  · have hproj := he.represents.toProj
    have hcached := he.represents.toCached
    have hneg := he.represents.neg
    exact ⟨hproj.valid, hproj.affine_eq, hcached.valid, hcached.affine_eq, hneg.valid, hneg.affine_eq⟩
  · have hneg := hq.represents.neg
    exact ⟨hneg.valid, hneg.affine_eq⟩
  · obtain ⟨q, hq, haff⟩ := exists_asXyz hta .ra
    obtain ⟨q', hq', haff'⟩ := exists_asXyz htb .ra
    have hqq : q.affine = q'.affine := Option.some.inj (by rw [← haff, heq, haff'])
    rw [exec_ptEnc_of_xyz rd hra hq, exec_ptEnc_of_xyz rd hrb hq', hqq]

/-- Settles O40: double-and-add on Extended points represents double-and-add on the curve. -/
theorem baseMultipleFollowsTheLaw : Obligations.BaseMultipleFollowsTheLaw := fun s =>
  ⟨(extMul_represents Rom.base_represents 256 (le s % Rom.L)).toProj.affine_eq, baseMult_onCurve s⟩

end Sys2Proof.Machine

namespace Sys2Proof.Machine

/-! ## Scalar recoding and scalar multiplication (44_scalar_mult.md) -/

/-! ### The bits of a scalar (R270) -/

/-- The value of a number's low `n` bits is its remainder by 2^n. -/
theorem digitSum_bits (n v : Nat) :
    digitSum ((List.range n).map fun i => ((v / 2 ^ i % 2 : Nat) : Int)) = (v % 2 ^ n : Nat) := by
  induction n generalizing v with
  | zero => simp [digitSum, Nat.mod_one]
  | succ n ih =>
    have hshift : ∀ i, v / 2 ^ (i + 1) = v / 2 / 2 ^ i := fun i => by rw [Nat.pow_succ', Nat.div_div_eq_div_mul]
    rw [Nat.pow_succ', Nat.mod_mul, List.range_succ_eq_map, List.map_cons, List.map_map, digitSum]
    simp only [Function.comp_def, Nat.succ_eq_add_one, hshift, ih]
    simp

/-- Byte `q` of a byte string, as a digit of its value (R9). -/
theorem toNat_getD_eq {s : List Byte} {q : Nat} (hq : q < s.length) : (s.getD q 0).toNat = le s / 256 ^ q % 256 := by
  have hbyte := leBytes_getElem s.length (le s) q (by simpa using hq)
  simp only [leBytes_le] at hbyte
  rw [List.getD_eq_getElem s 0 hq, hbyte, BitVec.toNat_ofNat]

/-- The low byte of a number holds its low eight bits. -/
theorem bit_mod_256 (v : Nat) {k : Nat} (hk : k < 8) : v % 256 / 2 ^ k % 2 = v / 2 ^ k % 2 := by
  have hsplit : 256 = 2 ^ k * (2 * 2 ^ (7 - k)) := by
    rw [← Nat.pow_succ', ← Nat.pow_add, show k + (7 - k + 1) = 8 by omega]
  rw [hsplit, Nat.mod_mul_right_div_self, Nat.mod_mul_right_mod]

/-- Bit `i` of a byte string is bit `i` of its value. -/
theorem byteBit_eq {s : List Byte} {i : Nat} (hi : i < 8 * s.length) :
    (s.getD (i / 8) 0).toNat / 2 ^ (i % 8) % 2 = le s / 2 ^ i % 2 := by
  have hpow : 2 ^ i = 256 ^ (i / 8) * 2 ^ (i % 8) := by
    rw [show (256 : Nat) = 2 ^ 8 from rfl, ← Nat.pow_mul, ← Nat.pow_add, Nat.div_add_mod]
  rw [toNat_getD_eq (by omega), hpow, ← Nat.div_div_eq_div_mul, bit_mod_256 _ (Nat.mod_lt i (by decide))]

theorem digitSum_scalarBits {s : List Byte} (hs : s.length = 32) : digitSum (scalarBits s) = le s := by
  have hbits : scalarBits s = (List.range 256).map fun i => ((le s / 2 ^ i % 2 : Nat) : Int) :=
    List.map_congr_left fun i hi => congrArg Nat.cast (byteBit_eq (by rw [List.mem_range] at hi; omega))
  have hlt : le s < 2 ^ 256 := by
    have h := le_lt s
    rw [hs] at h
    omega
  rw [hbits, digitSum_bits, Nat.mod_eq_of_lt hlt]

/-- Every digit not yet recoded is a bit. -/
def IsBits (r : List Int) : Prop := ∀ d ∈ r, d = 0 ∨ d = 1

theorem isBits_cons {d : Int} {rest : List Int} : IsBits (d :: rest) ↔ (d = 0 ∨ d = 1) ∧ IsBits rest :=
  List.forall_mem_cons

theorem scalarBits_isBits (s : List Byte) : IsBits (scalarBits s) :=
  List.forall_mem_map.2 fun _ _ => by omega

/-! ### The borrow walk adds one (R270) -/

theorem borrowWalk_isBits {r : List Int} (h : IsBits r) : IsBits (borrowWalk r) := by
  induction r with
  | nil => exact h
  | cons d rest ih =>
    obtain ⟨-, hrest⟩ := isBits_cons.1 h
    simp only [borrowWalk]
    split
    · exact isBits_cons.2 ⟨.inr rfl, hrest⟩
    · exact isBits_cons.2 ⟨.inl rfl, ih hrest⟩

/-- A carry into a number adds one to it, or runs off its end and leaves 0. -/
theorem digitSum_borrowWalk {r : List Int} (h : IsBits r) : digitSum (borrowWalk r) = digitSum r + 1 ∨
    (digitSum (borrowWalk r) = 0 ∧ digitSum r + 1 = 2 ^ r.length) := by
  induction r with
  | nil => exact .inr ⟨rfl, rfl⟩
  | cons d rest ih =>
    obtain ⟨rfl | rfl, hrest⟩ := isBits_cons.1 h
    · left
      simp only [borrowWalk, if_true, digitSum]
      ring
    · have hstep : digitSum (borrowWalk (1 :: rest)) = 2 * digitSum (borrowWalk rest) := by
        simp [borrowWalk, digitSum]
      rw [hstep, digitSum, List.length_cons, pow_succ]
      rcases ih hrest with hsum | ⟨hzero, hfull⟩
      · left
        omega
      · right
        omega

/-! ### The look-ahead of one position (R270) -/

section
variable (n : Nat) (w digit : Int) (rest : List Int)

theorem absorb_cons_zero : absorb (n + 1) w digit (0 :: rest) =
    ((absorb n (2 * w) digit rest).1, 0 :: (absorb n (2 * w) digit rest).2) := by simp [absorb]

theorem absorb_cons_one_add {w digit : Int} (h : digit + w ≤ 15) : absorb (n + 1) w digit (1 :: rest) =
    ((absorb n (2 * w) (digit + w) rest).1, 0 :: (absorb n (2 * w) (digit + w) rest).2) := by simp [absorb, h]

theorem absorb_cons_one_borrow {w digit : Int} (h : ¬ digit + w ≤ 15) (h' : -15 ≤ digit - w) :
    absorb (n + 1) w digit (1 :: rest) = ((absorb n (2 * w) (digit - w) (borrowWalk rest)).1,
      0 :: (absorb n (2 * w) (digit - w) (borrowWalk rest)).2) := by simp [absorb, h, h']

theorem absorb_cons_one_stop {w digit : Int} (h : ¬ digit + w ≤ 15) (h' : ¬ -15 ≤ digit - w) :
    absorb (n + 1) w digit (1 :: rest) = (digit, 1 :: rest) := by simp [absorb, h, h']

/-- The look-ahead over bits, by what it does at each of them: pass a 0, add a 1, take it away with a borrow, or stop. -/
theorem absorb_induction {P : Int → Int → List Int → Int × List Int → Prop}
    (stop : ∀ w digit rest, IsBits rest → P w digit rest (digit, rest))
    (zero : ∀ w digit rest r, P (2 * w) digit rest r → P w digit (0 :: rest) (r.1, 0 :: r.2))
    (add : ∀ w digit rest r, digit + w ≤ 15 → P (2 * w) (digit + w) rest r → P w digit (1 :: rest) (r.1, 0 :: r.2))
    (borrow : ∀ w digit rest r, IsBits rest → ¬ digit + w ≤ 15 → -15 ≤ digit - w →
      P (2 * w) (digit - w) (borrowWalk rest) r → P w digit (1 :: rest) (r.1, 0 :: r.2))
    (h : IsBits rest) : P w digit rest (absorb n w digit rest) := by
  induction n generalizing w digit rest with
  | zero => exact stop w digit rest h
  | succ n ih =>
    cases rest with
    | nil => exact stop w digit [] h
    | cons r rest =>
      obtain ⟨rfl | rfl, hrest⟩ := isBits_cons.1 h
      · rw [absorb_cons_zero]
        exact zero _ _ _ _ (ih _ _ _ hrest)
      · by_cases hadd : digit + w ≤ 15
        · rw [absorb_cons_one_add n rest hadd]
          exact add _ _ _ _ hadd (ih _ _ _ hrest)
        · by_cases hsub : -15 ≤ digit - w
          · rw [absorb_cons_one_borrow n rest hadd hsub]
            exact borrow _ _ _ _ hrest hadd hsub (ih _ _ _ (borrowWalk_isBits hrest))
          · rw [absorb_cons_one_stop n rest hadd hsub]
            exact stop _ _ _ h

end

theorem absorb_isBits (n : Nat) (w digit : Int) {rest : List Int} (h : IsBits rest) :
    IsBits (absorb n w digit rest).2 :=
  absorb_induction (P := fun _ _ _ r => IsBits r.2) n w digit rest (fun _ _ _ h => h)
    (fun _ _ _ _ h => isBits_cons.2 ⟨.inl rfl, h⟩) (fun _ _ _ _ _ h => isBits_cons.2 ⟨.inl rfl, h⟩)
    (fun _ _ _ _ _ _ _ h => isBits_cons.2 ⟨.inl rfl, h⟩) h

/-- What R271 says of one digit. -/
def SlideDigit (d : Int) : Prop := (d = 0 ∨ d % 2 = 1) ∧ -15 ≤ d ∧ d ≤ 15

/-- A look-ahead in even steps keeps the digit odd and within 15. -/
theorem absorb_digit (n : Nat) {w digit : Int} {rest : List Int} (h : IsBits rest) (hw : 0 < w) (heven : w % 2 = 0)
    (hodd : digit % 2 = 1) (hmin : -15 ≤ digit) (hmax : digit ≤ 15) : SlideDigit (absorb n w digit rest).1 := by
  refine absorb_induction (P := fun w digit _ r => 0 < w → w % 2 = 0 → digit % 2 = 1 → -15 ≤ digit → digit ≤ 15 →
    SlideDigit r.1) n w digit rest ?_ ?_ ?_ ?_ h hw heven hodd hmin hmax
  · exact fun w digit rest _ _ _ hodd hmin hmax => ⟨.inr hodd, hmin, hmax⟩
  · exact fun w digit rest r ih hw _ hodd hmin hmax => ih (by omega) (by omega) hodd hmin hmax
  · exact fun w digit rest r hadd ih hw heven hodd hmin _ => ih (by omega) (by omega) (by omega) (by omega) hadd
  · exact fun w digit rest r _ _ hsub ih hw heven hodd _ hmax => ih (by omega) (by omega) (by omega) hsub (by omega)

/-! ### The recoded digits (R271) -/

theorem recode_cons_zero (n : Nat) (rest : List Int) : recode n (0 :: rest) = 0 :: recode (n - 1) rest := by
  cases n with
  | zero => rfl
  | succ n => simp [recode]

theorem recode_cons_one (n : Nat) (rest : List Int) :
    recode (n + 1) (1 :: rest) = (absorb 6 2 1 rest).1 :: recode n (absorb 6 2 1 rest).2 := by simp [recode]

theorem recode_slideDigit (n : Nat) {r : List Int} (h : IsBits r) : ∀ d ∈ recode n r, SlideDigit d := by
  induction n generalizing r with
  | zero =>
    intro d hd
    rcases h d hd with rfl | rfl <;> simp [SlideDigit]
  | succ n ih =>
    cases r with
    | nil => simp [recode]
    | cons d rest =>
      obtain ⟨rfl | rfl, hrest⟩ := isBits_cons.1 h
      · rw [recode_cons_zero]
        exact List.forall_mem_cons.2 ⟨by simp [SlideDigit], ih hrest⟩
      · rw [recode_cons_one]
        exact List.forall_mem_cons.2 ⟨absorb_digit 6 hrest (by decide) rfl rfl (by decide) (by decide),
          ih (absorb_isBits 6 2 1 hrest)⟩

theorem slide_slideDigit (s : List Byte) : ∀ d ∈ slide s, SlideDigit d := recode_slideDigit 256 (scalarBits_isBits s)

/-! ### The sum of the recoded digits (R271)

A borrow that runs off the end takes the modulus 2^length away from the sum. A value of at most half the modulus leaves at
most half of its own to the positions that follow, so only values above one half lose a borrow. -/

/-- A recoding of the value `v` below the modulus `m` sums to `v`, or to `v - m` for `v` above half of `m`. -/
def RecodesTo (m v sum : Int) : Prop := sum = v ∨ (sum = v - m ∧ m + 2 ≤ 2 * v)

/-- `n` positions of recoding keep the value of every list of bits. -/
def RecodesBits (n : Nat) : Prop := ∀ r, IsBits r → RecodesTo (2 ^ r.length) (digitSum r) (digitSum (recode n r))

theorem digitSum_recode_cons_zero (n : Nat) (rest : List Int) :
    digitSum (recode n (0 :: rest)) = 2 * digitSum (recode (n - 1) rest) := by
  rw [recode_cons_zero, digitSum, zero_add]

/-- A digit below the weight `w` of the list after it leaves the sum on the same side of one half. -/
theorem RecodesTo.of_rest {m v sum w digit : Int} (h : RecodesTo m v sum) (hw : 0 < w) (hlow : -w < digit) :
    RecodesTo (w * m) (digit + w * v) (digit + w * sum) := by
  rcases h with rfl | ⟨rfl, hhalf⟩
  · exact .inl rfl
  · refine .inr ⟨by ring, ?_⟩
    have hscaled : w * (m + 2) ≤ w * (2 * v) := Int.mul_le_mul_of_nonneg_left hhalf hw.le
    linarith

/-- A borrow that ran off leaves a value too small for a second one. -/
theorem RecodesTo.eq_of_neg {m v sum : Int} (h : RecodesTo m v sum) (hm : 0 ≤ m) (hv : v < 0) : sum = v :=
  h.resolve_right fun ⟨_, hhalf⟩ => by omega

/-- A look-ahead from `digit` over `rest` with result `r`, and the recoding of what `r` leaves, keep `digit + w·rest`. -/
def KeepsSum (w digit : Int) (rest : List Int) (r : Int × List Int) : Prop :=
  ∀ k, (∀ j ≤ k, RecodesBits j) → 0 < w → -w < digit → digit < w →
    RecodesTo (w * 2 ^ rest.length) (digit + w * digitSum rest) (r.1 + w * digitSum (recode k r.2))

section
variable {w digit digit' : Int} {rest rest' : List Int} {r : Int × List Int} (ih : KeepsSum (2 * w) digit' rest' r)
include ih

/-- One look-ahead over `x` that leaves the value as it was. -/
theorem KeepsSum.cons {x : Int} (hlen : rest'.length = rest.length)
    (hvalue : digit' + 2 * w * digitSum rest' = digit + w * (x + 2 * digitSum rest))
    (hdigit : -w < digit → digit < w → -(2 * w) < digit' ∧ digit' < 2 * w) :
    KeepsSum w digit (x :: rest) (r.1, 0 :: r.2) := by
  intro k hk hw hlow hhigh
  obtain ⟨hlow', hhigh'⟩ := hdigit hlow hhigh
  have h := ih (k - 1) (fun j hj => hk j (by omega)) (by omega) hlow' hhigh'
  rw [hvalue, hlen] at h
  rw [digitSum_recode_cons_zero, digitSum, List.length_cons, pow_succ]
  convert h using 1 <;> ring

/-- One look-ahead over a 1 whose borrow runs off the end of a list of ones. -/
theorem KeepsSum.runOff (hzero : digitSum rest' = 0) (hfull : digitSum rest + 1 = 2 ^ rest.length)
    (hdigit : digit' = digit - w) (hpos : 0 < digit) : KeepsSum w digit (1 :: rest) (r.1, 0 :: r.2) := by
  intro k hk hw _ hhigh
  have h := ih (k - 1) (fun j hj => hk j (by omega)) (by omega) (by omega) (by omega)
  rw [hzero, hdigit] at h
  have hsum := h.eq_of_neg (by positivity) (by omega)
  have hm : w * 1 ≤ w * 2 ^ rest.length := Int.mul_le_mul_of_nonneg_left (one_le_pow₀ (by decide)) hw.le
  rw [digitSum_recode_cons_zero, digitSum, eq_sub_of_add_eq hfull, List.length_cons, pow_succ]
  refine .inr ⟨by linear_combination hsum, ?_⟩
  have hdigit : 1 ≤ digit := hpos
  linarith

end

theorem absorb_keepsSum (n : Nat) (w digit : Int) {rest : List Int} (h : IsBits rest) :
    KeepsSum w digit rest (absorb n w digit rest) := by
  refine absorb_induction n w digit rest ?_ ?_ ?_ ?_ h
  · exact fun w digit rest h k hk hw hlow _ => (hk k le_rfl rest h).of_rest hw hlow
  · exact fun w digit rest r ih => ih.cons rfl (by ring) (by omega)
  · exact fun w digit rest r _ ih => ih.cons rfl (by ring) (by omega)
  · intro w digit rest r hrest hadd hsub ih
    rcases digitSum_borrowWalk hrest with hsum | ⟨hzero, hfull⟩
    · exact ih.cons (borrowWalk_length rest) (by rw [hsum]; ring) (by omega)
    · exact ih.runOff hzero hfull rfl (by omega)

theorem recodesBits (n : Nat) : RecodesBits n := by
  induction n using Nat.strong_induction_on with
  | _ n ih =>
    intro r h
    cases n with
    | zero => exact .inl rfl
    | succ n =>
      cases r with
      | nil => exact .inl rfl
      | cons d rest =>
        obtain ⟨rfl | rfl, hrest⟩ := isBits_cons.1 h
        · rw [digitSum_recode_cons_zero, digitSum, List.length_cons, pow_succ']
          simpa using (ih n (Nat.lt_succ_self n) rest hrest).of_rest (w := 2) (digit := 0) (by decide) (by decide)
        · rw [recode_cons_one, digitSum, digitSum, List.length_cons, pow_succ']
          exact absorb_keepsSum 6 2 1 hrest n (fun j hj => ih j (Nat.lt_succ_of_le hj)) (by decide) (by decide) (by decide)

theorem slide_recodesTo {s : List Byte} (hs : s.length = 32) : RecodesTo (2 ^ 256) (le s) (digitSum (slide s)) := by
  have h := recodesBits 256 (scalarBits s) (scalarBits_isBits s)
  rwa [digitSum_scalarBits hs, scalarBits, List.length_map, List.length_range] at h

/-- Settles O34: a borrow runs off the end at most once, and only above half of 2^256. -/
theorem slideDigitsAreBoundedAndSum : Obligations.SlideDigitsAreBoundedAndSum := by
  refine ⟨fun s hs => ⟨slide_length s, slide_slideDigit s, fun hlt => ?_, ?_⟩, by decide +kernel⟩
  · refine (slide_recodesTo hs).resolve_right fun ⟨_, hhalf⟩ => ?_
    omega
  · exact (slide_recodesTo hs).imp_right And.left

/-! ### SC_SLIDE (R272) -/

theorem toInt_ofInt_slideDigit {d : Int} (h : SlideDigit d) : (BitVec.ofInt 8 d).toInt = d := by
  obtain ⟨-, hmin, hmax⟩ := h
  exact BitVec.toInt_ofInt_eq_self (by decide) (by omega) (by omega)

theorem digitBytes_toInt {r : List Int} (h : ∀ d ∈ r, SlideDigit d) : (digitBytes r).map BitVec.toInt = r := by
  rw [digitBytes, List.map_map]
  exact (List.map_congr_left fun d hd => toInt_ofInt_slideDigit (h d hd)).trans (List.map_id r)

theorem exec_scSlide_of_le {rd : Operand} (h : rd.toNat ≤ 24) (ra : Operand) (s : State) :
    exec (.scSlide rd ra) s = finish (.ok [.data (32 * rd.toNat) (digitBytes (slide (s.slot ra)))]) s := by
  simp only [exec, execScSlide, slotOctetOffset, inRange_ok 25 rd .rd (by omega)]
  rfl

/-- Settles O32: a digit of magnitude at most 15 fits its byte, and rd ≤ 24 leaves 256 bytes of DATA. -/
theorem slideCommandStoresDigits : Obligations.SlideCommandStoresDigits := by
  refine ⟨(commandRow_da .scSlide).decides, fun s rd ra => ⟨fun hrd hwf => ?_, fun hrd => ?_⟩⟩
  · have hlen : (digitBytes (slide (s.slot ra))).length = 256 := by rw [digitBytes, List.length_map, slide_length]
    refine ⟨digitBytes (slide (s.slot ra)), hlen, digitBytes_toInt (slide_slideDigit _), ?_⟩
    rw [exec_scSlide_of_le hrd]
    exact storesBytes_finish hwf (by simp only [hlen, Config.dataSize]; omega)
  · simp only [exec, execScSlide, slotOctetOffset, inRange_error 25 rd .rd (by omega)]
    rfl

/-! ### PT_DSMUL and PT_SMULB (R275–R277, R280) -/

theorem exec_ptDsmul_of_ext {s : State} {rd ra : Operand} {e : Ext} (hrd : rd.toNat ≤ 7) (hra : ra.toNat ≤ 7)
    (hsrc : s.pointEntry ra = .ext e) (rb rc : Operand) :
    exec (.ptDsmul rd ra rb rc) s =
      .next (s.doneWithPoint rd (.proj (doubleScalarMult (s.slot rb) e (s.slot rc)))) := by
  have hrd : rd.toNat < 8 := by omega
  have hra : ra.toNat < 8 := by omega
  rw [pointEntry_eq hra] at hsrc
  have hne : s.src.pReg[ra.toNat] ≠ .empty := hsrc ▸ nofun
  rw [exec, execPtDsmul_eq_pointUnary, pointUnary_inRange _ rd ra s hrd hra hne, hsrc]
  exact congrArg _ (complete_applyWrite_point s hrd _)

/-- Settles O28: PT_DSMUL is a point command with one source, and zero scalars leave no digit pair to run. -/
theorem doubleScalarCommandCompletes : Obligations.DoubleScalarCommandCompletes := by
  refine ⟨(commandRow_dabc .ptDsmul).decides, fun s rd ra rb rc e hrd hra hsrc =>
    exec_ptDsmul_of_ext hrd hra hsrc rb rc, fun rb rc => pointSourceErrors_of_point, fun e => ?_⟩
  have hpairs : digitPairs (leBytes 32 0) (leBytes 32 0) = [] := by decide +kernel
  rw [doubleScalarMult, hpairs, List.foldl_nil]

/-- Settles O29: PT_SMULB loads the Extended point of the base multiple. -/
theorem fixedBaseCommandCompletes : Obligations.FixedBaseCommandCompletes :=
  ⟨(commandRow_da .ptSmulb).decides, fun s _ ra hrd => ⟨baseMult (s.slot ra), rfl, exec_pointConst s hrd⟩⟩

/-- Settles O41: the digit loop on coordinates represents the digit loop on the curve. -/
theorem doubleScalarFollowsTheLaw : Obligations.DoubleScalarFollowsTheLaw := fun _ a b he _ _ =>
  have h := doubleScalarMult_represents he.represents a b
  ⟨h.valid, h.affine_eq⟩

end Sys2Proof.Machine

namespace Sys2Proof.Machine

/-! ## Scalar commands (45_scalar.md) -/

theorem Rom.L_pos : 0 < Rom.L := by decide

theorem mod_L_lt (n : Nat) : n % Rom.L < Rom.L := Nat.mod_lt n Rom.L_pos

/-- A residue mod L fits 32 bytes, so its bytes read back as itself (R9). -/
theorem le_leBytes_mod_L (n : Nat) : le (leBytes 32 (n % Rom.L)) = n % Rom.L :=
  le_leBytes_of_lt 32 _ ((mod_L_lt n).trans (by decide))

/-- The stored bytes, read back. -/
theorem StoresBytes.readBytes {s t : State} {o : Host.Outcome State Fault Refusal} {off : Nat} {bytes : List Byte}
    (h : StoresBytes s o off bytes) (ho : o = .next t) : t.data.readBytes off bytes.length = bytes := by
  obtain ⟨m, rfl, -, hread, -⟩ := h
  cases ho
  refine List.ext_getElem (Memory.readBytes_length ..) fun k _ hk => ?_
  rw [Memory.readBytes_getElem, hread k _ (List.getElem?_eq_getElem hk)]

section
variable {s : State} (hwf : s.data.wf) (rd ra rb rc : Operand)
include hwf

theorem storesBytes_slot {bytes : List Byte} (hlen : bytes.length = 32) :
    StoresBytes s (finish (.ok [.data (slotOffset rd) bytes]) s) (slotOffset rd) bytes :=
  storesBytes_finish hwf (hlen ▸ slotOffset_in_data rd)

theorem storesBytes_scMuladd : StoresBytes s (exec (.scMuladd rd ra rb rc) s) (slotOffset rd)
    (leBytes 32 ((le (s.slot ra) * le (s.slot rb) + le (s.slot rc)) % Rom.L)) :=
  storesBytes_slot hwf rd (leBytes_length 32 _)

theorem storesBytes_scReduce (hra : ra.toNat ≤ 30) : StoresBytes s (exec (.scReduce rd ra) s) (slotOffset rd)
    (leBytes 32 (le (s.memRead (slotOffset ra) 64) % Rom.L)) := by
  simp only [exec, execScReduce, slotPairOffset, inRange_ok 31 ra .ra (by omega)]
  exact storesBytes_slot hwf rd (leBytes_length 32 _)

theorem storesBytes_scLdl : StoresBytes s (exec (.scLdl rd) s) (slotOffset rd) (leBytes 32 Rom.L) :=
  storesBytes_slot hwf rd (leBytes_length 32 _)

end

/-- Settles O30: each command's one write is the 32 bytes of its value, at a slot. -/
theorem scalarResultsAreExactModL : Obligations.ScalarResultsAreExactModL := by
  refine ⟨(commandRow_dabc .scMuladd).decides, (commandRow_da .scReduce).decides, (commandRow_d .scLdl).decides,
    fun s rd ra rb rc => ⟨fun hwf => ⟨storesBytes_scMuladd hwf rd ra rb rc, storesBytes_scReduce hwf rd ra,
      storesBytes_scLdl hwf rd⟩, fun hra => ?_⟩⟩
  simp only [exec, execScReduce, slotPairOffset, inRange_error 31 ra .ra (by omega)]
  rfl

theorem finish_flag (s : State) (b : Bool) : finish (.ok [.flag b]) s = .next (s.doneWithFlag b) := rfl

/-- Settles O31: the completion writes FLAG with the comparison, and nothing else. -/
theorem scalarMinimalityWritesFlag : Obligations.ScalarMinimalityWritesFlag := by
  refine ⟨(commandRow_a .scMin).decides, fun s ra => ?_⟩
  rw [exec, execScMin, finish_flag, isMinimal]
  rfl

/-- A residue mod L, stored in 32 bytes of DATA, is what those bytes hold. -/
theorem StoresBytes.le_mod_L {s t : State} {o : Host.Outcome State Fault Refusal} {off n : Nat}
    (h : StoresBytes s o off (leBytes 32 (n % Rom.L))) (ho : o = .next t) : le (t.data.readBytes off 32) = n % Rom.L := by
  have hread := h.readBytes ho
  rw [leBytes_length] at hread
  rw [hread, le_leBytes_mod_L]

theorem isMinimal_mod_L (n : Nat) : isMinimal (n % Rom.L) = true := decide_eq_true (mod_L_lt n)

/-- Settles O33: what is stored is a residue mod L, and a reduced value is its own residue. -/
theorem scalarOutputsAreMinimal : Obligations.ScalarOutputsAreMinimal := by
  refine fun s t rd ra rb rc hwf => ⟨fun ht => ?_, fun hra ht => ?_⟩
  · rw [← slotOffset, (storesBytes_scMuladd hwf rd ra rb rc).le_mod_L ht]
    exact isMinimal_mod_L _
  · rw [← slotOffset, (storesBytes_scReduce hwf rd ra hra).le_mod_L ht]
    exact ⟨isMinimal_mod_L _, Nat.mod_eq_of_lt⟩

end Sys2Proof.Machine

namespace Sys2Proof.Machine

/-! ## The scalar datapath (45_scalar.md R306–R308) -/

theorem ScalarLimbs.value_eq_sum (s : ScalarLimbs) : s.value = ∑ k : Fin 24, s[k] * 2 ^ (21 * k.val) :=
  (Fin.sum_univ_def _).symm

/-! ### The primitives keep the value (R307) -/

theorem ScalarLimbs.moveCarry_getElem (s : ScalarLimbs) (k : Fin 24) (c : Int) (j : Fin 24) :
    (s.moveCarry k c)[j] = if j = k then s[j] - c * 2 ^ 21 else if j.val = k.val + 1 then s[j] + c else s[j] := by
  simp [ScalarLimbs.moveCarry]

theorem ScalarLimbs.fold_getElem (s : ScalarLimbs) (k j : Fin 24) : (s.fold k)[j] =
    if j = k then 0 else if k.val ≤ j.val + 12 then s[j] + foldConst (j.val + 12 - k.val) * s[k] else s[j] := by
  simp [ScalarLimbs.fold]

/-- A carry takes `c` units of the next limb out of one limb and puts them into the next. -/
theorem ScalarLimbs.moveCarry_value (s : ScalarLimbs) {k : Fin 24} (hk : k.val < 23) (c : Int) :
    (s.moveCarry k c).value = s.value := by
  have hlimb : ∀ j : Fin 24, (s.moveCarry k c)[j] =
      s[j] - (if j = k then c * 2 ^ 21 else 0) + (if j = ⟨k.val + 1, by omega⟩ then c else 0) := by
    intro j
    rw [ScalarLimbs.moveCarry_getElem]
    simp only [Fin.ext_iff]
    split <;> split <;> omega
  simp only [ScalarLimbs.value_eq_sum, hlimb, add_mul, sub_mul, ite_mul, zero_mul, Finset.sum_add_distrib,
    Finset.sum_sub_distrib, Finset.sum_ite_eq', Finset.mem_univ, if_true]
  ring

/-- The six constants at the weights they are folded to: −δ in units of 2^(21(k−12)) (R307). -/
theorem foldConst_weight : ∀ k : Fin 24, 12 ≤ k.val →
    ∑ j : Fin 24, (if j ≠ k ∧ k.val ≤ j.val + 12 then foldConst (j.val + 12 - k.val) * 2 ^ (21 * j.val) else 0)
      = (2 ^ 252 - Rom.L) * 2 ^ (21 * (k.val - 12)) := by decide +kernel

/-- `fold(k)` takes s_k times a multiple of L off the value (R307). -/
theorem ScalarLimbs.fold_value (s : ScalarLimbs) {k : Fin 24} (hk : 12 ≤ k.val) :
    (s.fold k).value = s.value - s[k] * 2 ^ (21 * (k.val - 12)) * Rom.L := by
  have hlimb : ∀ j : Fin 24, (s.fold k)[j] * 2 ^ (21 * j.val) = s[j] * 2 ^ (21 * j.val)
      - (if j = k then s[k] * 2 ^ (21 * k.val) else 0)
      + s[k] * (if j ≠ k ∧ k.val ≤ j.val + 12 then foldConst (j.val + 12 - k.val) * 2 ^ (21 * j.val) else 0) := by
    intro j
    rw [ScalarLimbs.fold_getElem]
    by_cases hj : j = k
    · subst hj; simp
    · by_cases hle : k.val ≤ j.val + 12
      · simp only [hj, hle, if_false, if_true, ne_eq, not_false_eq_true, and_self]
        ring
      · simp [hj, hle]
  have hpow : (2 : Int) ^ (21 * k.val) = 2 ^ 252 * 2 ^ (21 * (k.val - 12)) := by
    rw [← pow_add]
    congr 1
    omega
  simp only [ScalarLimbs.value_eq_sum, hlimb, Finset.sum_add_distrib, Finset.sum_sub_distrib, ← Finset.mul_sum,
    foldConst_weight k hk, Finset.sum_ite_eq', Finset.mem_univ, if_true, hpow]
  ring

/-- The carry of both kinds: `h` is 2^20 to round and 0 for the floor (R306). -/
def ScalarLimbs.carry (s : ScalarLimbs) (k : Fin 24) (h : Int) : ScalarLimbs := s.moveCarry k ((s[k] + h) / 2 ^ 21)

theorem ScalarLimbs.carryF_eq_carry (s : ScalarLimbs) (k : Fin 24) : s.carryF k = s.carry k 0 := by
  rw [ScalarLimbs.carry, add_zero, ScalarLimbs.carryF]

/-- Settles O59: a carry only moves units of the next limb, and a fold takes off a multiple of L. -/
theorem scalarFoldsAndCarriesAreExact : Obligations.ScalarFoldsAndCarriesAreExact := by
  refine ⟨by decide, fun s k => ⟨fun hk => ?_, fun hk => ⟨s.moveCarry_value hk _, s.moveCarry_value hk _⟩⟩⟩
  rw [s.fold_value hk, Int.sub_mul_emod_self_right]

/-! ### Ranges of the limbs

A range for every limb. What a primitive makes of the ranges depends on them alone, so one evaluation decides a whole
sequence of primitives. -/

/-- The least and the greatest value of limb 0, of limb 1 and so on; the limbs after the last pair are 0. -/
abbrev ScalarBox := List (Int × Int)

def ScalarBox.limb (b : ScalarBox) (k : Nat) : Int × Int := b.getD k (0, 0)

def ScalarLimbs.inBox (s : ScalarLimbs) (b : ScalarBox) : Prop :=
  ∀ k : Fin 24, (b.limb k).1 ≤ s[k] ∧ s[k] ≤ (b.limb k).2

/-- A box given limb by limb. -/
def ScalarBox.ofLimbs (f : Nat → Int × Int) : ScalarBox := (List.range 24).map f

theorem ScalarBox.limb_ofLimbs (f : Nat → Int × Int) (k : Fin 24) : (ScalarBox.ofLimbs f).limb k = f k := by
  simp [ScalarBox.limb, ScalarBox.ofLimbs]

/-- What a carry leaves: a remainder in limb k, and the carries of both ends in the next limb. -/
def ScalarBox.carry (b : ScalarBox) (k : Fin 24) (h : Int) : ScalarBox := ScalarBox.ofLimbs fun j =>
  if j = k then (-h, 2 ^ 21 - 1 - h)
  else if j = k + 1 then ((b.limb j).1 + ((b.limb k).1 + h) / 2 ^ 21, (b.limb j).2 + ((b.limb k).2 + h) / 2 ^ 21)
  else b.limb j

/-- What a fold leaves: a negative constant exchanges the ends of s_k. -/
def ScalarBox.fold (b : ScalarBox) (k : Fin 24) : ScalarBox := ScalarBox.ofLimbs fun j =>
  if j = k then (0, 0)
  else if k ≤ j + 12 then
    let c := foldConst (j + 12 - k)
    if 0 ≤ c then ((b.limb j).1 + c * (b.limb k).1, (b.limb j).2 + c * (b.limb k).2)
    else ((b.limb j).1 + c * (b.limb k).2, (b.limb j).2 + c * (b.limb k).1)
  else b.limb j

def ScalarBox.step (b : ScalarBox) : ScalarStep → ScalarBox
  | .fold k => b.fold k
  | .carryR k => b.carry k (2 ^ 20)
  | .carryF k => b.carry k 0

/-- Every range of b lies in that of b'. -/
def ScalarBox.within (b b' : ScalarBox) : Bool :=
  (List.range 24).all fun k => (b'.limb k).1 ≤ (b.limb k).1 && (b.limb k).2 ≤ (b'.limb k).2

/-- Limbs of magnitude at most 2^62: a register holds them, and their sum with 2^20. -/
def ScalarBox.wide : ScalarBox := List.replicate 24 (-2 ^ 62, 2 ^ 62)

/-- From b the steps lead into b', and no limb on the way is too wide for a register. -/
def ScalarBox.runsTo (b : ScalarBox) (b' : ScalarBox) : List ScalarStep → Bool
  | [] => b.within ScalarBox.wide && b.within b'
  | t :: ts => b.within ScalarBox.wide && (b.step t).runsTo b' ts

section
variable {s : ScalarLimbs} {b : ScalarBox} (hb : s.inBox b)
include hb

theorem ScalarLimbs.inBox.of_within {b' : ScalarBox} (h : b.within b' = true) : s.inBox b' := fun k => by
  have hk := List.all_eq_true.1 h k (List.mem_range.2 k.isLt)
  obtain ⟨hlo, hhi⟩ := Bool.and_eq_true_iff.1 hk
  exact ⟨(of_decide_eq_true hlo).trans (hb k).1, (hb k).2.trans (of_decide_eq_true hhi)⟩

theorem ScalarLimbs.inBox.carry (k : Fin 24) (h : Int) : (s.carry k h).inBox (b.carry k h) := by
  intro j
  have hj := hb j
  have hk := hb k
  rw [ScalarLimbs.carry, ScalarLimbs.moveCarry_getElem, ScalarBox.carry, ScalarBox.limb_ofLimbs]
  simp only [Fin.val_inj]
  split
  · next hjk => subst hjk; dsimp only; omega
  · split
    · dsimp only; omega
    · exact hj

theorem ScalarLimbs.inBox.fold (k : Fin 24) : (s.fold k).inBox (b.fold k) := by
  intro j
  obtain ⟨hlo, hhi⟩ := hb k
  have hj := hb j
  rw [ScalarLimbs.fold_getElem, ScalarBox.fold, ScalarBox.limb_ofLimbs]
  simp only [Fin.val_inj]
  split
  · exact ⟨le_rfl, le_rfl⟩
  · split
    · split
      · next hc =>
        exact ⟨add_le_add hj.1 (mul_le_mul_of_nonneg_left hlo hc), add_le_add hj.2 (mul_le_mul_of_nonneg_left hhi hc)⟩
      · next hc =>
        have hc := (not_le.1 hc).le
        exact ⟨add_le_add hj.1 (mul_le_mul_of_nonpos_left hhi hc), add_le_add hj.2 (mul_le_mul_of_nonpos_left hlo hc)⟩
    · exact hj

theorem ScalarLimbs.inBox.step (t : ScalarStep) : (s.step t).inBox (b.step t) := by
  cases t with
  | fold k => exact hb.fold k
  | carryR k => exact hb.carry k (2 ^ 20)
  | carryF k =>
    rw [ScalarLimbs.step, s.carryF_eq_carry]
    exact hb.carry k 0

/-- The value without limb k lies between those of the ends. -/
theorem ScalarLimbs.inBox.value_sub (k : Fin 24) :
    ∑ j ∈ Finset.univ.erase k, (b.limb j).1 * 2 ^ (21 * j.val) ≤ s.value - s[k] * 2 ^ (21 * k.val) ∧
    s.value - s[k] * 2 ^ (21 * k.val) ≤ ∑ j ∈ Finset.univ.erase k, (b.limb j).2 * 2 ^ (21 * j.val) := by
  rw [ScalarLimbs.value_eq_sum, ← Finset.sum_erase_eq_sub (Finset.mem_univ k)]
  constructor <;> refine Finset.sum_le_sum fun j _ => mul_le_mul_of_nonneg_right ?_ (by positivity)
  · exact (hb j).1
  · exact (hb j).2

end

/-! ### Registers hold their limbs (R306) -/

/-- The registers that limbs leave: each limb mod 2^64. -/
def ScalarLimbs.toRegs (s : ScalarLimbs) : ScalarRegs := s.map (BitVec.ofInt 64)

theorem ScalarLimbs.toRegs_getElem (s : ScalarLimbs) (k : Nat) (hk : k < 24) : s.toRegs[k] = BitVec.ofInt 64 s[k] := by
  simp [ScalarLimbs.toRegs]

theorem ScalarRegs.eq_toRegs {r : ScalarRegs} {s : ScalarLimbs} (h : ∀ k : Fin 24, r[k] = BitVec.ofInt 64 s[k]) :
    r = s.toRegs := Vector.ext fun k hk => (h ⟨k, hk⟩).trans (s.toRegs_getElem k hk).symm

theorem ScalarLimbs.inBox.wide_bounds {s : ScalarLimbs} (h : s.inBox ScalarBox.wide) (k : Nat) (hk : k < 24) :
    -2 ^ 62 ≤ s[k] ∧ s[k] ≤ 2 ^ 62 := by
  have hlimb := h ⟨k, hk⟩
  rwa [ScalarBox.limb, ScalarBox.wide, List.getD_replicate _ hk] at hlimb

theorem ScalarLimbs.inBox.limbs_toRegs {s : ScalarLimbs} (h : s.inBox ScalarBox.wide) : s.toRegs.limbs = s := by
  refine Vector.ext fun k hk => ?_
  obtain ⟨hlo, hhi⟩ := h.wide_bounds k hk
  rw [ScalarRegs.limbs_getElem, ScalarLimbs.toRegs_getElem]
  exact BitVec.toInt_ofInt_eq_self (by decide) (by omega) (by omega)

theorem ofInt_sub_shiftLeft (x n : Int) :
    BitVec.ofInt 64 (x - n * 2 ^ 21) = BitVec.ofInt 64 x - BitVec.ofInt 64 n <<< 21 := by
  have hshift : BitVec.ofInt 64 n <<< 21 = BitVec.ofInt 64 (n * 2 ^ 21) := by
    rw [BitVec.shiftLeft_eq_mul_twoPow, BitVec.ofInt_mul]
    congr 1
  rw [hshift, eq_sub_iff_add_eq, ← BitVec.ofInt_add, sub_add_cancel]

theorem ScalarLimbs.toRegs_fold (s : ScalarLimbs) (k : Fin 24) : s.toRegs.fold k = (s.fold k).toRegs := by
  refine ScalarRegs.eq_toRegs fun j => ?_
  rw [ScalarLimbs.fold_getElem]
  simp only [ScalarRegs.fold, Fin.getElem_fin, Vector.getElem_ofFn, Fin.eta, ScalarLimbs.toRegs_getElem]
  split
  · rfl
  · split
    · rw [BitVec.ofInt_add, BitVec.ofInt_mul]
    · rfl

theorem ScalarLimbs.toRegs_moveCarry (s : ScalarLimbs) (k : Fin 24) (n : Int) :
    s.toRegs.moveCarry k (BitVec.ofInt 64 n) = (s.moveCarry k n).toRegs := by
  refine ScalarRegs.eq_toRegs fun j => ?_
  rw [ScalarLimbs.moveCarry_getElem]
  simp only [ScalarRegs.moveCarry, Fin.getElem_fin, Vector.getElem_ofFn, Fin.eta, ScalarLimbs.toRegs_getElem]
  split
  · rw [ofInt_sub_shiftLeft]
  · split
    · rw [BitVec.ofInt_add]
    · rfl

/-- An arithmetic shift divides, rounding down (00_scope.md R8). -/
theorem sshiftRight_21_ofInt {n : Int} (hlo : -2 ^ 63 ≤ n) (hhi : n < 2 ^ 63) :
    (BitVec.ofInt 64 n).sshiftRight 21 = BitVec.ofInt 64 (n / 2 ^ 21) := by
  have hn : (BitVec.ofInt 64 n).toInt = n := BitVec.toInt_ofInt_eq_self (by decide) (by omega) (by omega)
  refine BitVec.eq_of_toInt_eq ?_
  rw [BitVec.toInt_sshiftRight, hn, Int.shiftRight_eq_div_pow]
  exact (BitVec.toInt_ofInt_eq_self (by decide) (by omega) (by omega)).symm

/-- One primitive on registers that hold their limbs, with room for the rounding. -/
theorem ScalarLimbs.inBox.toRegs_step {s : ScalarLimbs} (h : s.inBox ScalarBox.wide) (t : ScalarStep) :
    s.toRegs.step t = (s.step t).toRegs := by
  cases t with
  | fold k => exact s.toRegs_fold k
  | carryR k =>
    obtain ⟨hlo, hhi⟩ := h.wide_bounds k k.isLt
    rw [ScalarRegs.step, ScalarRegs.carryR, Fin.getElem_fin, ScalarLimbs.toRegs_getElem,
      show (2 ^ 20 : BitVec 64) = BitVec.ofInt 64 (2 ^ 20) by decide, ← BitVec.ofInt_add,
      sshiftRight_21_ofInt (by omega) (by omega)]
    exact s.toRegs_moveCarry k _
  | carryF k =>
    obtain ⟨hlo, hhi⟩ := h.wide_bounds k k.isLt
    rw [ScalarRegs.step, ScalarRegs.carryF, Fin.getElem_fin, ScalarLimbs.toRegs_getElem,
      sshiftRight_21_ofInt (by omega) (by omega)]
    exact s.toRegs_moveCarry k _

/-- Limbs in b, after any number of the steps, fit registers that hold them, and end in b'. -/
def ScalarBox.Leads (b b' : ScalarBox) (ts : List ScalarStep) : Prop := ∀ s : ScalarLimbs, s.inBox b →
  (∀ n, ((ts.take n).foldl ScalarLimbs.step s).inBox ScalarBox.wide ∧
    (ts.take n).foldl ScalarRegs.step s.toRegs = ((ts.take n).foldl ScalarLimbs.step s).toRegs) ∧
  (ts.foldl ScalarLimbs.step s).inBox b'

theorem ScalarBox.leads_of_runsTo {b b' : ScalarBox} {ts : List ScalarStep} (h : b.runsTo b' ts = true) :
    b.Leads b' ts := by
  intro s hs
  induction ts generalizing b s with
  | nil =>
    obtain ⟨hwide, hend⟩ := Bool.and_eq_true_iff.1 h
    refine ⟨fun n => ?_, hs.of_within hend⟩
    rw [List.take_nil]
    exact ⟨hs.of_within hwide, rfl⟩
  | cons t ts ih =>
    obtain ⟨hwide, hrest⟩ := Bool.and_eq_true_iff.1 h
    have hwide := hs.of_within hwide
    obtain ⟨hrun, hend⟩ := ih hrest _ (hs.step t)
    refine ⟨fun n => ?_, hend⟩
    cases n with
    | zero => exact ⟨hwide, rfl⟩
    | succ n =>
      rw [List.take_succ_cons, List.foldl_cons, List.foldl_cons, hwide.toRegs_step]
      exact hrun n

theorem ScalarBox.Leads.append {b b₁ b₂ : ScalarBox} {ts us : List ScalarStep} (h : b.Leads b₁ ts) (h' : b₁.Leads b₂ us) :
    b.Leads b₂ (ts ++ us) := by
  intro s hs
  obtain ⟨hrun, hmid⟩ := h s hs
  obtain ⟨hrun', hend⟩ := h' _ hmid
  refine ⟨fun n => ?_, by rwa [List.foldl_append]⟩
  rw [List.take_append, List.foldl_append, List.foldl_append]
  rcases le_total n ts.length with hn | hn
  · rw [Nat.sub_eq_zero_of_le hn]
    exact hrun n
  · have hall := (hrun ts.length).2
    rw [List.take_length] at hall
    rw [List.take_of_length_le hn, hall]
    exact hrun' _

/-! ### The reduction tail (R308)

Before the last fold the value is r + q·2^252 with 252 bits of digits r and q = 0 or −1. The fold leaves r − q·δ, which lies
in [0, L). -/

/-- The limbs the tail starts from, loaded or left by SC_MULADD's carries. -/
def ScalarBox.tail : ScalarBox := List.replicate 24 (-2 ^ 34, 2 ^ 34)

/-- Before the last fold: 252 bits of digits, and limb 12 is 0, or −1 for a negative value. -/
def ScalarBox.beforeLastFold : ScalarBox := List.replicate 12 (0, 2 ^ 21 - 1) ++ [(-1, 0)]

/-- After the tail, as far as ranges show it. -/
def ScalarBox.final : ScalarBox := List.replicate 11 (0, 2 ^ 21 - 1) ++ [(-1, 2 ^ 21)]

/-- The last fold and the floor carries after it. -/
def lastFoldSteps : List ScalarStep := .fold 12 :: ([0, 1, 2, 3, 4, 5, 6, 7, 8, 9, 10] : List (Fin 24)).map .carryF

theorem reduceSteps_eq : reduceSteps = reduceSteps.take 48 ++ lastFoldSteps := rfl

theorem ScalarBox.tail_leads_beforeLastFold : ScalarBox.tail.Leads ScalarBox.beforeLastFold (reduceSteps.take 48) :=
  ScalarBox.leads_of_runsTo (by decide +kernel)

theorem ScalarBox.beforeLastFold_leads_final : ScalarBox.beforeLastFold.Leads ScalarBox.final lastFoldSteps :=
  ScalarBox.leads_of_runsTo (by decide +kernel)

theorem ScalarBox.tail_leads_final : ScalarBox.tail.Leads ScalarBox.final reduceSteps :=
  reduceSteps_eq ▸ ScalarBox.tail_leads_beforeLastFold.append ScalarBox.beforeLastFold_leads_final

/-- What SC_MULADD's product sums can be; no product reaches limb 23. -/
def ScalarBox.product : ScalarBox := List.replicate 23 (0, 2 ^ 54)

theorem mulAddSteps_eq : mulAddSteps = mulAddSteps.take 23 ++ reduceSteps := rfl

theorem ScalarBox.product_leads_tail : ScalarBox.product.Leads ScalarBox.tail (mulAddSteps.take 23) :=
  ScalarBox.leads_of_runsTo (by decide +kernel)

theorem ScalarBox.product_leads_final : ScalarBox.product.Leads ScalarBox.final mulAddSteps :=
  mulAddSteps_eq ▸ ScalarBox.product_leads_tail.append ScalarBox.tail_leads_final

/-- The steps that keep the value mod L: folds from limb 12 on, carries below limb 23. -/
def ScalarStep.keepsValue : ScalarStep → Bool
  | .fold k => 12 ≤ k.val
  | .carryR k => k.val < 23
  | .carryF k => k.val < 23

theorem ScalarLimbs.step_value_emod (s : ScalarLimbs) {t : ScalarStep} (h : t.keepsValue = true) :
    (s.step t).value % Rom.L = s.value % Rom.L := by
  cases t with
  | fold k => rw [ScalarLimbs.step, s.fold_value (of_decide_eq_true h), Int.sub_mul_emod_self_right]
  | carryR k => exact congrArg (· % (Rom.L : Int)) (s.moveCarry_value (of_decide_eq_true h) _)
  | carryF k => exact congrArg (· % (Rom.L : Int)) (s.moveCarry_value (of_decide_eq_true h) _)

theorem ScalarLimbs.foldl_step_value_emod (s : ScalarLimbs) {ts : List ScalarStep} (h : ∀ t ∈ ts, t.keepsValue = true) :
    (ts.foldl ScalarLimbs.step s).value % Rom.L = s.value % Rom.L := by
  induction ts generalizing s with
  | nil => rfl
  | cons t ts ih =>
    obtain ⟨ht, hrest⟩ := List.forall_mem_cons.1 h
    rw [List.foldl_cons, ih _ hrest, s.step_value_emod ht]

theorem ScalarLimbs.foldl_carryF_value (s : ScalarLimbs) {ks : List (Fin 24)} (h : ∀ k ∈ ks, k.val < 23) :
    ((ks.map .carryF).foldl ScalarLimbs.step s).value = s.value := by
  induction ks generalizing s with
  | nil => rfl
  | cons k ks ih =>
    obtain ⟨hk, hrest⟩ := List.forall_mem_cons.1 h
    rw [List.map_cons, List.foldl_cons, ih _ hrest]
    exact s.moveCarry_value hk _

theorem mulAddSteps_keepsValue : ∀ t ∈ mulAddSteps, t.keepsValue = true := by decide +kernel

theorem reduceSteps_keepsValue : ∀ t ∈ reduceSteps, t.keepsValue = true := fun t ht =>
  mulAddSteps_keepsValue t (mulAddSteps_eq ▸ List.mem_append_right _ ht)

theorem lastFoldSteps_value (s : ScalarLimbs) :
    (lastFoldSteps.foldl ScalarLimbs.step s).value = s.value - s[12] * Rom.L := by
  have hfold := s.fold_value (k := 12) le_rfl
  rw [lastFoldSteps, List.foldl_cons, ScalarLimbs.foldl_carryF_value _ (by decide), ScalarLimbs.step, hfold]
  simp

theorem Rom.L_int : (Rom.L : Int) = 2 ^ 252 + 0x14def9dea2f79cd65812631a5cf5d3ed := by decide

theorem ScalarLimbs.inBox.value_bounds_beforeLastFold {s : ScalarLimbs} (h : s.inBox ScalarBox.beforeLastFold) :
    0 ≤ s.value - s[12] * 2 ^ 252 ∧ s.value - s[12] * 2 ^ 252 < 2 ^ 252 ∧ -1 ≤ s[12] ∧ s[12] ≤ 0 := by
  obtain ⟨hlo, hhi⟩ := h.value_sub 12
  have hlow : ∑ j ∈ Finset.univ.erase (12 : Fin 24), (ScalarBox.beforeLastFold.limb j).1 * 2 ^ (21 * j.val) = 0 := by
    decide +kernel
  have hhigh : ∑ j ∈ Finset.univ.erase (12 : Fin 24), (ScalarBox.beforeLastFold.limb j).2 * 2 ^ (21 * j.val)
      = 2 ^ 252 - 1 := by decide +kernel
  rw [hlow] at hlo
  rw [hhigh] at hhi
  exact ⟨hlo, Int.lt_of_le_sub_one hhi, h 12⟩

/-- The last fold leaves a residue: it takes the multiple of 2^252 off the value and adds or keeps at most δ. -/
theorem ScalarLimbs.inBox.lastFoldSteps_value_bounds {s : ScalarLimbs} (h : s.inBox ScalarBox.beforeLastFold) :
    0 ≤ (lastFoldSteps.foldl ScalarLimbs.step s).value ∧ (lastFoldSteps.foldl ScalarLimbs.step s).value < Rom.L := by
  obtain ⟨hlo, hhi, hmin, hmax⟩ := h.value_bounds_beforeLastFold
  rw [lastFoldSteps_value, Rom.L_int]
  obtain hq | hq : s[12] = -1 ∨ s[12] = 0 := by omega
  · rw [hq] at hlo hhi ⊢
    omega
  · rw [hq] at hlo hhi ⊢
    omega

/-- The tail reduces the value (R308). -/
theorem ScalarLimbs.inBox.reduceSteps_value {s : ScalarLimbs} (h : s.inBox ScalarBox.tail) :
    (reduceSteps.foldl ScalarLimbs.step s).value = s.value % Rom.L := by
  have hbounds := (ScalarBox.tail_leads_beforeLastFold s h).2.lastFoldSteps_value_bounds
  rw [← List.foldl_append, ← reduceSteps_eq] at hbounds
  rw [← s.foldl_step_value_emod reduceSteps_keepsValue, Int.emod_eq_of_lt hbounds.1 hbounds.2]

theorem ScalarLimbs.inBox.final_zero {s : ScalarLimbs} (h : s.inBox ScalarBox.final) {k : Fin 24} (hk : 12 ≤ k.val) :
    s[k] = 0 := by
  have hlimb : ∀ k : Fin 24, 12 ≤ k.val → ScalarBox.final.limb k = (0, 0) := by decide +kernel
  have hrange := h k
  rw [hlimb k hk] at hrange
  exact le_antisymm hrange.2 hrange.1

theorem ScalarLimbs.inBox.final_digit {s : ScalarLimbs} (h : s.inBox ScalarBox.final) {k : Fin 24} (hk : k.val < 11) :
    0 ≤ s[k] ∧ s[k] < 2 ^ 21 := by
  have hlimb : ∀ k : Fin 24, k.val < 11 → ScalarBox.final.limb k = (0, 2 ^ 21 - 1) := by decide +kernel
  have hrange := h k
  rw [hlimb k hk] at hrange
  exact ⟨hrange.1, Int.lt_of_le_sub_one hrange.2⟩

/-- A value that is not negative has no negative top limb. -/
theorem ScalarLimbs.inBox.final_top {s : ScalarLimbs} (h : s.inBox ScalarBox.final) (hvalue : 0 ≤ s.value) :
    0 ≤ s[11] ∧ s[11] ≤ 2 ^ 21 := by
  have hhi := (h.value_sub 11).2
  have hhigh : ∑ j ∈ Finset.univ.erase (11 : Fin 24), (ScalarBox.final.limb j).2 * 2 ^ (21 * j.val) = 2 ^ 231 - 1 := by
    decide +kernel
  rw [hhigh] at hhi
  have hle : s[11] ≤ 2 ^ 21 := (h 11).2
  change s.value - s[11] * 2 ^ 231 ≤ _ at hhi
  omega

/-- Twelve limbs hold the value when the rest are 0. -/
theorem ScalarLimbs.value_eq_sum_of_high_zero {s : ScalarLimbs} (h : ∀ k : Fin 24, 12 ≤ k.val → s[k] = 0) :
    s.value = ∑ k : Fin 12, s[k.val] * 2 ^ (21 * k.val) := by
  rw [ScalarLimbs.value_eq_sum]
  refine (Fin.sum_univ_add (a := 12) (b := 12) _).trans ?_
  have hhigh : ∀ k : Fin 12, s[Fin.natAdd 12 k] * 2 ^ (21 * (Fin.natAdd 12 k).val) = 0 := fun k => by
    rw [h (Fin.natAdd 12 k) (Nat.le_add_right 12 k), zero_mul]
  exact (congrArg _ (Finset.sum_eq_zero fun k _ => hhigh k)).trans (add_zero _)

theorem ScalarRegs.pack_eq {r : ScalarRegs} (h : ∀ k : Fin 24, 12 ≤ k.val → r.limbs[k] = 0) :
    r.pack = leBytes 32 r.limbs.value.toNat := by
  rw [ScalarLimbs.value_eq_sum_of_high_zero h, ScalarRegs.pack, ← Fin.sum_univ_def]
  simp only [ScalarRegs.limbs_getElem]

/-! ### Loading (R306) -/

/-- A number in radix 2^21: n digits and the rest. -/
theorem sum_radix_21 (v n : Nat) :
    ∑ k ∈ Finset.range n, v / 2 ^ (21 * k) % 2 ^ 21 * 2 ^ (21 * k) + v / 2 ^ (21 * n) * 2 ^ (21 * n) = v := by
  induction n with
  | zero => simp
  | succ n ih =>
    have hdigit : v / 2 ^ (21 * n) % 2 ^ 21 + 2 ^ 21 * (v / 2 ^ (21 * (n + 1))) = v / 2 ^ (21 * n) := by
      rw [Nat.mul_succ, pow_add, ← Nat.div_div_eq_div_mul, Nat.mod_add_div]
    rw [Finset.sum_range_succ]
    calc _ = ∑ k ∈ Finset.range n, v / 2 ^ (21 * k) % 2 ^ 21 * 2 ^ (21 * k)
          + (v / 2 ^ (21 * n) % 2 ^ 21 + 2 ^ 21 * (v / 2 ^ (21 * (n + 1)))) * 2 ^ (21 * n) := by ring
      _ = v := by rw [hdigit, ih]

theorem loadLimb64_sum (b : List Byte) : ∑ k ∈ Finset.range 24, loadLimb64 b k * 2 ^ (21 * k) = le b := by
  rw [Finset.sum_range_succ, Finset.sum_congr rfl fun k hk => by rw [loadLimb64, if_pos (Finset.mem_range.1 hk)]]
  have hrest : loadLimb64 b 23 = le b / 2 ^ (21 * 23) := (if_neg (by decide)).trans (congrArg (le b / 2 ^ ·) (by decide))
  rw [hrest]
  exact sum_radix_21 (le b) 23

theorem loadLimb32_sum (b : List Byte) : ∑ k ∈ Finset.range 12, loadLimb32 b k * 2 ^ (21 * k) = le b := by
  rw [Finset.sum_range_succ, Finset.sum_congr rfl fun k hk => by rw [loadLimb32, if_pos (Finset.mem_range.1 hk)]]
  exact sum_radix_21 (le b) 11

theorem ScalarLimbs.load64_getElem (b : List Byte) (k : Nat) (hk : k < 24) :
    (ScalarLimbs.load64 b)[k] = loadLimb64 b k := by simp [ScalarLimbs.load64]

theorem ScalarLimbs.load32_getElem (b : List Byte) (k : Nat) (hk : k < 24) :
    (ScalarLimbs.load32 b)[k] = loadLimb32 b k := by simp [ScalarLimbs.load32]

theorem ScalarLimbs.load64_value (b : List Byte) : (ScalarLimbs.load64 b).value = le b := by
  rw [ScalarLimbs.value_eq_sum, ← loadLimb64_sum b, ← Fin.sum_univ_eq_sum_range]
  push_cast
  exact Finset.sum_congr rfl fun k _ => by rw [Fin.getElem_fin, ScalarLimbs.load64_getElem]

theorem ScalarLimbs.load32_high (b : List Byte) {k : Nat} (hk : 12 ≤ k) (hk' : k < 24) : (ScalarLimbs.load32 b)[k] = 0 := by
  rw [ScalarLimbs.load32_getElem, loadLimb32, if_neg (by omega), if_neg (by omega), Nat.cast_zero]

theorem ScalarLimbs.load32_sum (b : List Byte) :
    ∑ k : Fin 12, (ScalarLimbs.load32 b)[k.val] * 2 ^ (21 * k.val) = le b := by
  rw [← loadLimb32_sum b, ← Fin.sum_univ_eq_sum_range]
  push_cast
  exact Finset.sum_congr rfl fun k _ => by rw [ScalarLimbs.load32_getElem]

theorem ScalarRegs.load64_eq (b : List Byte) : ScalarRegs.load64 b = (ScalarLimbs.load64 b).toRegs :=
  ScalarRegs.eq_toRegs fun k => by simp [ScalarRegs.load64, ScalarLimbs.load64, BitVec.ofInt_natCast]

theorem ScalarRegs.load32_eq (b : List Byte) : ScalarRegs.load32 b = (ScalarLimbs.load32 b).toRegs :=
  ScalarRegs.eq_toRegs fun k => by simp [ScalarRegs.load32, ScalarLimbs.load32, BitVec.ofInt_natCast]

theorem loadLimb64_lt {b : List Byte} (hb : b.length = 64) (k : Nat) : loadLimb64 b k < 2 ^ 29 := by
  have hlt := le_lt b
  rw [hb] at hlt
  unfold loadLimb64
  split <;> omega

theorem loadLimb32_lt {b : List Byte} (hb : b.length = 32) (k : Nat) : loadLimb32 b k < 2 ^ 25 := by
  have hlt := le_lt b
  rw [hb] at hlt
  unfold loadLimb32
  split
  · omega
  · split <;> omega

theorem ScalarLimbs.load64_inBox {b : List Byte} (hb : b.length = 64) : (ScalarLimbs.load64 b).inBox ScalarBox.tail := by
  intro k
  have hlt := loadLimb64_lt hb k
  rw [ScalarBox.limb, ScalarBox.tail, List.getD_replicate _ k.isLt, Fin.getElem_fin, ScalarLimbs.load64_getElem]
  dsimp only
  omega

/-! ### The product sums (R308) -/

/-- One product term of limb k, or 0 where the indices do not meet. -/
def ScalarLimbs.productTerm (x y : ScalarLimbs) (k : Fin 24) (i : Fin 12) : Int :=
  if i.val ≤ k.val ∧ k.val < i.val + 12 then x[i.val] * y[k.val - i.val] else 0

theorem ScalarLimbs.mulAdd_getElem (x y z : ScalarLimbs) (k : Fin 24) :
    (x.mulAdd y z)[k] = z[k] + ∑ i, x.productTerm y k i := by
  simp [ScalarLimbs.mulAdd, ScalarLimbs.productTerm, Fin.sum_univ_def]

/-- Limb i of the left factor meets the first twelve limbs of the right one, at the weight of both. -/
theorem ScalarLimbs.sum_productTerm (x y : ScalarLimbs) (i : Fin 12) :
    ∑ k : Fin 24, x.productTerm y k i * 2 ^ (21 * k.val) =
      x[i.val] * 2 ^ (21 * i.val) * ∑ j : Fin 12, y[j.val] * 2 ^ (21 * j.val) := by
  rw [Finset.mul_sum]
  refine (Finset.sum_of_injOn (fun j : Fin 12 => (⟨i.val + j.val, by omega⟩ : Fin 24)) ?_ ?_ ?_ ?_).symm
  · intro j _ j' _ h
    simpa [Fin.ext_iff] using h
  · exact fun _ _ => Finset.mem_coe.2 (Finset.mem_univ _)
  · intro k _ hk
    rw [ScalarLimbs.productTerm, if_neg, zero_mul]
    rintro ⟨hle, hlt⟩
    exact hk ⟨⟨k.val - i.val, by omega⟩, by simp, Fin.ext (by simp; omega)⟩
  · intro j _
    simp only [ScalarLimbs.productTerm, Nat.le_add_right, Nat.add_lt_add_left j.isLt, and_self, if_true,
      Nat.add_sub_cancel_left]
    ring

/-- Schoolbook multiplication multiplies the values. -/
theorem ScalarLimbs.mulAdd_value (x y z : ScalarLimbs) : (x.mulAdd y z).value = z.value +
    (∑ i : Fin 12, x[i.val] * 2 ^ (21 * i.val)) * ∑ j : Fin 12, y[j.val] * 2 ^ (21 * j.val) := by
  simp only [ScalarLimbs.value_eq_sum, ScalarLimbs.mulAdd_getElem, add_mul, Finset.sum_add_distrib, Finset.sum_mul]
  rw [Finset.sum_comm]
  simp only [ScalarLimbs.sum_productTerm]

theorem ScalarLimbs.product_value (a b c : List Byte) : (ScalarLimbs.product a b c).value = le a * le b + le c := by
  rw [ScalarLimbs.product, ScalarLimbs.mulAdd_value, ScalarLimbs.value_eq_sum_of_high_zero
    fun k hk => ScalarLimbs.load32_high c hk k.isLt]
  simp only [ScalarLimbs.load32_sum]
  ring

theorem ofInt_sum_map {α : Type} (f : α → Int) (l : List α) :
    BitVec.ofInt 64 (l.map f).sum = (l.map fun i => BitVec.ofInt 64 (f i)).sum := by
  induction l with
  | nil => rfl
  | cons i l ih => rw [List.map_cons, List.sum_cons, BitVec.ofInt_add, ih, List.map_cons, List.sum_cons]

theorem ScalarLimbs.toRegs_mulAdd (x y z : ScalarLimbs) : x.toRegs.mulAdd y.toRegs z.toRegs = (x.mulAdd y z).toRegs := by
  refine ScalarRegs.eq_toRegs fun k => ?_
  simp only [ScalarRegs.mulAdd, ScalarLimbs.mulAdd, Fin.getElem_fin, Vector.getElem_ofFn, ScalarLimbs.toRegs_getElem,
    BitVec.ofInt_add, ofInt_sum_map, apply_ite (BitVec.ofInt 64), BitVec.ofInt_mul]
  rfl

theorem ScalarRegs.product_eq (a b c : List Byte) : ScalarRegs.product a b c = (ScalarLimbs.product a b c).toRegs := by
  simp only [ScalarRegs.product, ScalarLimbs.product, ScalarRegs.load32_eq, ScalarLimbs.toRegs_mulAdd]

section
variable {a b c : List Byte} (ha : a.length = 32) (hb : b.length = 32)
include ha hb

/-- Limbs of 25 bits: a term has 50, and the twelve of a limb have fewer than 54. -/
theorem productTerm_load32_bounds (k : Fin 24) (i : Fin 12) :
    0 ≤ (ScalarLimbs.load32 a).productTerm (ScalarLimbs.load32 b) k i ∧
    (ScalarLimbs.load32 a).productTerm (ScalarLimbs.load32 b) k i ≤ 2 ^ 50 := by
  unfold ScalarLimbs.productTerm
  split
  · rw [ScalarLimbs.load32_getElem, ScalarLimbs.load32_getElem]
    have hx := (loadLimb32_lt ha i).le
    have hy := (loadLimb32_lt hb (k.val - i.val)).le
    refine ⟨by positivity, ?_⟩
    calc _ ≤ ((2 ^ 25 * 2 ^ 25 : Nat) : Int) := mod_cast Nat.mul_le_mul hx hy
      _ = 2 ^ 50 := by norm_num
  · norm_num

theorem sum_productTerm_load32_bounds (k : Fin 24) :
    0 ≤ ∑ i, (ScalarLimbs.load32 a).productTerm (ScalarLimbs.load32 b) k i ∧
    ∑ i, (ScalarLimbs.load32 a).productTerm (ScalarLimbs.load32 b) k i ≤ 12 * 2 ^ 50 := by
  refine ⟨Finset.sum_nonneg fun i _ => (productTerm_load32_bounds ha hb k i).1, ?_⟩
  simpa using Finset.sum_le_card_nsmul Finset.univ _ _ fun i _ => (productTerm_load32_bounds ha hb k i).2

theorem ScalarLimbs.product_inBox (hc : c.length = 32) : (ScalarLimbs.product a b c).inBox ScalarBox.product := by
  intro k
  rw [ScalarLimbs.product, ScalarLimbs.mulAdd_getElem, Fin.getElem_fin]
  by_cases hk : k.val < 23
  · obtain ⟨hlo, hhi⟩ := sum_productTerm_load32_bounds ha hb k
    have hlt := loadLimb32_lt hc k
    rw [ScalarLimbs.load32_getElem, ScalarBox.limb, ScalarBox.product, List.getD_replicate _ hk]
    dsimp only
    omega
  · obtain rfl : k = 23 := Fin.ext (by omega)
    have hzero : ∀ i : Fin 12, (ScalarLimbs.load32 a).productTerm (ScalarLimbs.load32 b) 23 i = 0 := fun i =>
      if_neg fun ⟨_, hlt⟩ => by omega
    rw [Finset.sum_eq_zero fun i _ => hzero i, ScalarLimbs.load32_high c (by decide)]
    exact ⟨le_rfl, le_rfl⟩

end

/-! ### The datapath (R301, R302, R306, R308) -/

/-- Steps that lead limbs into the final ranges and their value to a residue pack that residue, and every register holds
its limb on the way. -/
theorem foldl_step_conforms {s : ScalarLimbs} {b : ScalarBox} {ts : List ScalarStep} {v : Nat}
    (hlead : b.Leads ScalarBox.final ts) (hs : s.inBox b)
    (hvalue : (ts.foldl ScalarLimbs.step s).value = ((v % Rom.L : Nat) : Int)) :
    (ts.foldl ScalarRegs.step s.toRegs).pack = leBytes 32 (v % Rom.L) ∧
    (∀ n, ((ts.take n).foldl ScalarRegs.step s.toRegs).limbs = (ts.take n).foldl ScalarLimbs.step s) ∧
    let final := ts.foldl ScalarLimbs.step s
    ∀ k : Fin 24, (k.val < 11 → 0 ≤ final[k] ∧ final[k] < 2 ^ 21) ∧ (k.val = 11 → 0 ≤ final[k] ∧ final[k] ≤ 2 ^ 21) := by
  obtain ⟨hrun, hfinal⟩ := hlead s hs
  have hlimbs : ∀ n, ((ts.take n).foldl ScalarRegs.step s.toRegs).limbs = (ts.take n).foldl ScalarLimbs.step s :=
    fun n => (congrArg _ (hrun n).2).trans (hrun n).1.limbs_toRegs
  have hall := hlimbs ts.length
  rw [List.take_length] at hall
  refine ⟨?_, hlimbs, fun k => ⟨hfinal.final_digit, fun hk => ?_⟩⟩
  · rw [ScalarRegs.pack_eq fun k hk => hall ▸ hfinal.final_zero hk, hall, hvalue, Int.toNat_natCast]
  · obtain rfl : k = 11 := Fin.ext hk
    exact hfinal.final_top (hvalue ▸ Int.natCast_nonneg _)

/-- Settles O60: the ranges of the limbs fit their registers through both sequences, and the last fold reduces the value. -/
theorem scalarDatapathMatchesTheValueRules : Obligations.ScalarDatapathMatchesTheValueRules := by
  refine ⟨fun b hb => ?_, fun a b c ha hb hc => ?_⟩
  · have hbox := ScalarLimbs.load64_inBox hb
    rw [scalarReduceLimbs, ScalarRegs.load64_eq]
    refine foldl_step_conforms ScalarBox.tail_leads_final hbox ?_
    rw [hbox.reduceSteps_value, ScalarLimbs.load64_value, Int.natCast_emod]
  · have hbox := ScalarLimbs.product_inBox ha hb hc
    rw [scalarMulAddLimbs, ScalarRegs.product_eq]
    refine foldl_step_conforms ScalarBox.product_leads_final hbox ?_
    have htail := (ScalarBox.product_leads_tail _ hbox).2
    rw [mulAddSteps_eq, List.foldl_append, htail.reduceSteps_value, ScalarLimbs.foldl_step_value_emod _
      fun t ht => mulAddSteps_keepsValue t (List.mem_of_mem_take ht), ScalarLimbs.product_value]
    push_cast
    rfl

end Sys2Proof.Machine

namespace Sys2Proof.Machine

/-! ## The error a completion reports (60_exceptions.md R330, R332, R335) -/

/-- The error the tables name for a latched word is the one its completion raises, and nothing else changes (R330). -/
theorem runWord_failsWith_of_wordError {w : Word} {s : State} {e : CmdError} (h : wordError w s = some e) :
    FailsWith s (runWord w s) e.code e.field := by
  rcases runWord_cases w s with ⟨e', he, hrun⟩ | ⟨hnone, -⟩
  · cases he.symm.trans h
    exact hrun
  · cases hnone.symm.trans h

/-- A word for which the tables name no error completes and leaves ERR, ERRCODE and ERRFIELD alone (R132, R332). -/
theorem runWord_keeps_error_of_wordError_none {w : Word} {s : State} (h : wordError w s = none) :
    ∃ t, runWord w s = .next t ∧ t.err = s.err ∧ t.errCode = s.errCode ∧ t.errField = s.errField ∧
      t.pending = none ∧ t.done = true := by
  rcases runWord_cases w s with ⟨e, he, -⟩ | ⟨-, i, ws, -, hrun, -⟩
  · cases he.symm.trans h
  · obtain ⟨-, -, -, herr, hcode, hfield, -⟩ := applyWrites_preserves_control s ws
    exact ⟨_, hrun, herr, hcode, hfield, rfl, rfl⟩

/-- Settles O8: the completion raises the error of the tables if there is one, and else applies writes, none of which
reaches ERR, ERRCODE or ERRFIELD. -/
theorem commandErrorsFollowThePriority : Obligations.CommandErrorsFollowThePriority := fun _ _ =>
  ⟨fun _ => runWord_failsWith_of_wordError, runWord_keeps_error_of_wordError_none⟩

/-- A word that no row of the opcode map covers is no command (R103, R104). -/
theorem decode_eq_none_of_uncovered {w : Word} (h : ∀ r ∈ opcodeMap, r.covers w = false) : decode w = none := by
  refine Option.eq_none_iff_forall_ne_some.2 fun i hi => ?_
  obtain ⟨r, hr, hcov, -⟩ := exists_row_of_decode hi
  exact Bool.false_ne_true ((h r hr).symm.trans hcov)

/-- ILLEGAL_CMD with field 0 is the first error of the list (R332, R335). -/
theorem wordError_of_decode_none {w : Word} (h : decode w = none) (s : State) :
    wordError w s = some ⟨.illegalCmd, .none⟩ := by
  rw [wordError, h]

theorem sequencerTurn_of_pending {s : State} {c : Pending} (h : s.pending = some c) :
    sequencerTurn s = runWord c.word s := by
  rw [sequencerTurn, h]

/-- Settles O6: a command's word is covered by its row, so an uncovered word decodes to none. -/
theorem illegalWordsRaiseIllegalCmd : Obligations.IllegalWordsRaiseIllegalCmd := by
  intro s c hpending huncovered
  have herr := wordError_of_decode_none (decode_eq_none_of_uncovered huncovered) s
  rw [sequencerTurn_of_pending hpending]
  exact runWord_failsWith_of_wordError herr

end Sys2Proof.Machine

namespace Sys2Proof.Machine

/-! ## Accesses while BUSY = 1 (70_reset_and_hazards.md R370) -/

section
variable {a : BusAddr} {s : State}

theorem busWrite_cmd_busy (hbusy : s.busy = true) (ha : AtWord a 3) (d : Word) : busWrite a d s = s.hazard := by
  simp only [busWrite, busTarget_cmd a ha, writeCmd, hbusy, if_true]

theorem busWrite_data_busy (hbusy : s.busy = true) (ha : InDataWindow a) (d : Word) : busWrite a d s = s.hazard := by
  simp only [busWrite, busTarget_data a ha, writeData, hbusy, if_true]

theorem busRead_data_busy (hbusy : s.busy = true) (ha : InDataWindow a) :
    busRead a s = { s.hazard with rdata := 0 } := by
  simp only [busRead, busReadEffect, busReadValue, busTarget_data a ha, hbusy, if_true]

/-- A read below the DATA window changes the read data only, busy or not (20_memory.md R77). -/
theorem busRead_of_lt_dataWindow (ha : a.toNat < 0x400) : busRead a s = { s with rdata := busReadValue a s } :=
  busRead_of_register fun off htarget => absurd (busTarget_data_inv a off htarget).1.1 (Nat.not_le.2 ha)

theorem busRead_of_atWord {n : Nat} (ha : AtWord a n) (hn : n < 0x100) :
    busRead a s = { s with rdata := busReadValue a s } :=
  busRead_of_lt_dataWindow (by unfold AtWord at ha; omega)

theorem busReadValue_id (ha : AtWord a 0) : busReadValue a s = 0x45443235 := by
  simp only [busReadValue, busTarget_id a ha, idWord]

theorem busReadValue_ctrl (ha : AtWord a 1) : busReadValue a s = s.ctrlWord := by
  simp only [busReadValue, busTarget_ctrl a ha]

theorem busReadValue_status (ha : AtWord a 2) : busReadValue a s = s.statusWord := by
  simp only [busReadValue, busTarget_status a ha]

theorem busReadValue_cmd (ha : AtWord a 3) : busReadValue a s = s.cmd := by
  simp only [busReadValue, busTarget_cmd a ha]

end

/-- Settles O45: the refusals are `State.hazard`, the other clauses hold in every state. -/
theorem busyRulesRefuseAndRecord : Obligations.BusyRulesRefuseAndRecord := by
  refine ⟨fun s a d hbusy => ⟨fun ha => busWrite_cmd_busy hbusy ha d, fun ha => busWrite_data_busy hbusy ha d,
    busRead_data_busy hbusy, fun ha h0 h1 => ?_, fun ha => ?_, fun ha => ?_, fun ha => ?_, fun ha => ?_,
    fun ha => ⟨_, busRead_of_lt_dataWindow ha⟩, fun ha => ?_, fun ha h1 => ?_⟩, fun s a d herr ha h0 h1 => ?_⟩
  · rw [busWrite_ctrl ha, writeCtrl_refused h1 h0 (.inl hbusy)]
  · rw [busRead_of_atWord ha (by decide), busReadValue_id ha]
  · rw [busRead_of_atWord ha (by decide), busReadValue_ctrl ha]
  · rw [busRead_of_atWord ha (by decide), busReadValue_status ha]
  · rw [busRead_of_atWord ha (by decide), busReadValue_cmd ha]
  · rw [busWrite_status ha, writeStatus_eq]
  · rw [busWrite_ctrl ha, writeCtrl_reset h1]
  · rw [busWrite_ctrl ha, writeCtrl_refused h1 h0 (.inr herr)]

end Sys2Proof.Machine
